-- ==== Sys2Proof/Word.lean ====
section
/-! DEFINITION. The word types of the block: the widths the spec writes as u8, u16 and u32 (R11). -/

namespace Sys2Proof

/-- `u8` of R11: one 8-bit register value. -/
abbrev Byte := BitVec 8

/-- `u16` of R11: the divisor read back from DLM:DLL. -/
abbrev U16 := BitVec 16

/-- `u32` of R11. -/
abbrev U32 := BitVec 32

/-- The largest `u32`, as the natural the calculator's domain is written with (R204). -/
abbrev maxU32 : Nat := 2 ^ 32 - 1

/-- R11: `v[i]`, as a Bool. -/
abbrev bit (v : Byte) (i : Nat) : Bool := v.getLsbD i

end Sys2Proof
end

