-- ==== Sys2Proof/Config.lean ====
section
/-! DEFINITION. The types of R12, the attribute record of R22, the parameters of R9, and the free values: what the
environment supplies where the spec calls a value a draw. -/

namespace Sys2Proof

/-- R12. `default` is the "use default" sentinel. -/
inductive Parity
  | default | none | even | odd | mark | space
deriving DecidableEq, Repr, Inhabited

/-- R12. `default` is the "use default" sentinel. -/
inductive StopBits
  | default | one | oneAndHalf | two
deriving DecidableEq, Repr, Inhabited

/-- R12, R351. `deviceError` is reserved: no operation of the block returns it. -/
inductive Status
  | success | deviceError | unsupported | invalidParameter
deriving DecidableEq, Repr

/-- R12, R24. Written by the out-of-scope dispatcher, only read here. -/
inductive Variant
  | unprobed | miniUart16550 | pl011
deriving DecidableEq, Repr

/-- R153: where a "use default" line setting is read. -/
inductive DefaultSource
  | liveLcr | configLcr
deriving DecidableEq, Repr

/-- R22: the in/out record of SetAttributes. -/
structure Attr where
  baud : U32
  dataBits : Byte
  parity : Parity
  stopBits : StopBits
  rxFifoDepth : U32
  timeout : U32
deriving DecidableEq, Repr, Inhabited

/-- R27, R29, R31: the eight places of the register file, each named by the registers that share its offset. -/
inductive Slot
  | rbrThrDll | ierDlm | iirFcr | lcr | mcr | lsr | msr | scr
deriving DecidableEq, Repr

/-- Every place of the register file, in the order of R31's table. -/
def Slot.all : List Slot := [.rbrThrDll, .ierDlm, .iirFcr, .lcr, .mcr, .lsr, .msr, .scr]

/-- R31: the register offsets, parameters with the standard 16550 values (PRESUMED, log 7). -/
structure Offsets where
  rbrThrDll : Nat := 0
  ierDlm : Nat := 1
  iirFcr : Nat := 2
  lcr : Nat := 3
  mcr : Nat := 4
  lsr : Nat := 5
  msr : Nat := 6
  scr : Nat := 7
deriving DecidableEq, Repr

/-- The offset of one place. -/
def Offsets.at (o : Offsets) : Slot → Nat
  | .rbrThrDll => o.rbrThrDll
  | .ierDlm => o.ierDlm
  | .iirFcr => o.iirFcr
  | .lcr => o.lcr
  | .mcr => o.mcr
  | .lsr => o.lsr
  | .msr => o.msr
  | .scr => o.scr

/-- R104: the signals of a control mask, parameters with the values of the spec's table (PRESUMED, log 8). -/
structure Signals where
  dtr : U32 := 0x0001#32
  rts : U32 := 0x0002#32
  cts : U32 := 0x0010#32
  dsr : U32 := 0x0020#32
  ri : U32 := 0x0040#32
  cd : U32 := 0x0080#32
  ibe : U32 := 0x0100#32
  obe : U32 := 0x0200#32
  hwLoop : U32 := 0x1000#32
  swLoop : U32 := 0x2000#32
  hwFlow : U32 := 0x4000#32
deriving DecidableEq, Repr

/-- R9, R23: the parameters, fixed for a run. A field with a value here is one the spec decides; the others are the
platform's. `clockRate` is a natural because R10 (d) makes its width a check. -/
structure Cfg where
  clockRate : Nat
  defaultBaud : U32
  lcr : Byte
  fcr : Byte
  hwFlow : Bool
  detectCable : Bool
  stride : Nat
  extFifoSize : U32
  defaultParity : Parity
  defaultDataBits : Byte
  defaultStopBits : StopBits
  uartBase : Nat
  clkDivAddr : Nat
  addrWidth : Nat := 64
  clkMult : Nat := 4
  fracBits : Nat := 12
  clkDivMask : U32 := 0x00FFFFFF#32
  fcrInitMask : Byte := 0xFF#8
  defaultSource : DefaultSource := .liveLcr
  offsets : Offsets := {}
  signals : Signals := {}
deriving DecidableEq, Repr

namespace Config

/-- DESIGN CHOICE (log 1): the platform values State.reset holds, those of the spec's own example program P1. -/
def examplePlatform : Cfg where
  clockRate := 48000000
  defaultBaud := 115200#32
  lcr := 0x03#8
  fcr := 0x07#8
  hwFlow := false
  detectCable := false
  stride := 4
  extFifoSize := 64#32
  defaultParity := .none
  defaultDataBits := 8#8
  defaultStopBits := .one
  uartBase := 0x10000000
  clkDivAddr := 0x20000000

/-- Free value (R32, R33): the `n`th 8-bit draw the environment has not already laid out in `State.env`. -/
opaque freeByte : Nat → Byte

/-- Free value (R43): the `n`th 32-bit draw of the clock-divider register. -/
opaque freeWord : Nat → U32

/-- Free value (R156): the record a failing attribute resolution leaves. -/
opaque freeAttr : Nat → Attr

end Config
end Sys2Proof
end

