-- ==== Sys2Proof/Syntax.lean ====
section
/-! DEFINITION. The operations of R91, the operand and result registers of R92, and the caller's programs of R93 to
R95 as abstract text: lines, values, names and pseudo-operations. -/

namespace Sys2Proof

/-- R91: the 29 operations. A selector carries no operand (R90): operands are the named registers of R92. -/
inductive Instr
  | encData | encPar | encStop | lcrPack | lcrEnc
  | decData | decPar | decStop | fifoDepth | lcrMatch | attrResolve
  | clkScale | divCalc | divCompute | divSplit | divJoin
  | gateTx | gateTxempty | gateRxready | gatePollrts | ctlSet | ctlGet
  | seqInit | seqWrite | seqRead | seqPoll | seqSetctl | seqGetctl | seqSetattr
deriving DecidableEq, Repr

/-- Every operation, in the order of R91's table. -/
def Instr.all : List Instr :=
  [.encData, .encPar, .encStop, .lcrPack, .lcrEnc, .decData, .decPar, .decStop, .fifoDepth, .lcrMatch, .attrResolve]
  ++ [.clkScale, .divCalc, .divCompute, .divSplit, .divJoin]
  ++ [.gateTx, .gateTxempty, .gateRxready, .gatePollrts, .ctlSet, .ctlGet]
  ++ [.seqInit, .seqWrite, .seqRead, .seqPoll, .seqSetctl, .seqGetctl, .seqSetattr]

/-- R91: the spelling of each operation. -/
def Instr.mnemonic : Instr → String
  | .encData => "ENC.DATA"
  | .encPar => "ENC.PAR"
  | .encStop => "ENC.STOP"
  | .lcrPack => "LCR.PACK"
  | .lcrEnc => "LCR.ENC"
  | .decData => "DEC.DATA"
  | .decPar => "DEC.PAR"
  | .decStop => "DEC.STOP"
  | .fifoDepth => "FIFO.DEPTH"
  | .lcrMatch => "LCR.MATCH"
  | .attrResolve => "ATTR.RESOLVE"
  | .clkScale => "CLK.SCALE"
  | .divCalc => "DIV.CALC"
  | .divCompute => "DIV.COMPUTE"
  | .divSplit => "DIV.SPLIT"
  | .divJoin => "DIV.JOIN"
  | .gateTx => "GATE.TX"
  | .gateTxempty => "GATE.TXEMPTY"
  | .gateRxready => "GATE.RXREADY"
  | .gatePollrts => "GATE.POLLRTS"
  | .ctlSet => "CTL.SET"
  | .ctlGet => "CTL.GET"
  | .seqInit => "SEQ.INIT"
  | .seqWrite => "SEQ.WRITE"
  | .seqRead => "SEQ.READ"
  | .seqPoll => "SEQ.POLL"
  | .seqSetctl => "SEQ.SETCTL"
  | .seqGetctl => "SEQ.GETCTL"
  | .seqSetattr => "SEQ.SETATTR"

/-- The families of R90 and R91. -/
inductive Family
  | codec | divisor | gate | sequencer
deriving DecidableEq, Repr

/-- R91's family column. -/
def Instr.family : Instr → Family
  | .encData | .encPar | .encStop | .lcrPack | .lcrEnc | .decData | .decPar | .decStop | .fifoDepth | .lcrMatch
  | .attrResolve => .codec
  | .clkScale | .divCalc | .divCompute | .divSplit | .divJoin => .divisor
  | .gateTx | .gateTxempty | .gateRxready | .gatePollrts | .ctlSet | .ctlGet => .gate
  | .seqInit | .seqWrite | .seqRead | .seqPoll | .seqSetctl | .seqGetctl | .seqSetattr => .sequencer

/-- The operand registers of R92 by name. -/
inductive OperandName
  | dataBits | parity | stopBits | dataCode | stopCode | parCode | lcr | fcr | extFifoSize | a | b | req | liveLcr
  | base | divReg | effClk | baud | divisor | hi | lo | lsr | mcr | ready | mask | msr | buf | count
deriving DecidableEq, Repr

/-- The result registers of R92 by name. -/
inductive ResultName
  | st | dataCode | parCode | stopCode | lcr | dataBits | parity | stopBits | depth | eq | res | allDefault
  | effClk | divisor | hi | lo | divisor16 | writable | empty | ready | mcrOut | mask | count | buf | countRead
deriving DecidableEq, Repr

/-- R92, column "in": the operands every use of the operation must give (R93). `liveLcr` of ATTR.RESOLVE is given
only when needed, so it stands in `Instr.optionalOperands`. -/
def Instr.operands : Instr → List OperandName
  | .encData => [.dataBits]
  | .encPar => [.parity]
  | .encStop => [.stopBits]
  | .lcrPack => [.dataCode, .stopCode, .parCode]
  | .lcrEnc => [.dataBits, .parity, .stopBits]
  | .decData => [.lcr]
  | .decPar => [.lcr]
  | .decStop => [.lcr, .dataBits]
  | .fifoDepth => [.fcr, .extFifoSize]
  | .lcrMatch => [.a, .b]
  | .attrResolve => [.req]
  | .clkScale => [.base, .divReg]
  | .divCalc => [.effClk, .baud]
  | .divCompute => [.baud]
  | .divSplit => [.divisor]
  | .divJoin => [.hi, .lo]
  | .gateTx => []
  | .gateTxempty => [.lsr]
  | .gateRxready => [.lsr]
  | .gatePollrts => [.mcr, .ready]
  | .ctlSet => [.mask, .mcr]
  | .ctlGet => [.msr, .mcr, .lsr]
  | .seqInit => []
  | .seqWrite => [.buf]
  | .seqRead => [.count]
  | .seqPoll => []
  | .seqSetctl => [.mask]
  | .seqGetctl => []
  | .seqSetattr => [.req]

/-- R92: "`liveLcr: u8` (read only when needed)". -/
def Instr.optionalOperands : Instr → List OperandName
  | .attrResolve => [.liveLcr]
  | _ => []

/-- R92, column "out", in the order R93 binds them. -/
def Instr.results : Instr → List ResultName
  | .encData => [.st, .dataCode]
  | .encPar => [.st, .parCode]
  | .encStop => [.st, .stopCode]
  | .lcrPack => [.lcr]
  | .lcrEnc => [.st, .lcr]
  | .decData => [.dataBits]
  | .decPar => [.st, .parity]
  | .decStop => [.stopBits]
  | .fifoDepth => [.depth]
  | .lcrMatch => [.eq]
  | .attrResolve => [.st, .res, .lcr, .allDefault]
  | .clkScale => [.effClk]
  | .divCalc => [.divisor]
  | .divCompute => [.divisor]
  | .divSplit => [.hi, .lo]
  | .divJoin => [.divisor16]
  | .gateTx => [.writable]
  | .gateTxempty => [.empty]
  | .gateRxready => [.ready]
  | .gatePollrts => [.mcrOut]
  | .ctlSet => [.st, .mcrOut]
  | .ctlGet => [.st, .mask]
  | .seqInit => [.st]
  | .seqWrite => [.count]
  | .seqRead => [.buf, .countRead]
  | .seqPoll => [.ready]
  | .seqSetctl => [.st]
  | .seqGetctl => [.st, .mask]
  | .seqSetattr => [.st, .res]

/-- R94: the values a program can write or bind. -/
inductive Value
  | num (n : Nat)
  | parity (p : Parity)
  | stopBits (s : StopBits)
  | status (s : Status)
  | bool (b : Bool)
  | bytes (l : List Byte)
  | attr (a : Attr)
deriving DecidableEq, Repr

/-- A program's name for a result (R93), kept as a number (log 12). -/
abbrev Ident := Nat

/-- R94: one value of a byte list or of a record: a literal, or a name bound by an earlier line. -/
inductive Atom
  | lit (v : Value)
  | bound (x : Ident)
deriving DecidableEq, Repr

/-- R94: what a line writes for an operand: a literal, a name bound by an earlier line, a byte list, or an ATTR record.
The values of a list or a record may be bound names too; one of literals alone is also a `lit`. -/
inductive Source
  | lit (v : Value)
  | bound (x : Ident)
  | bytes (l : List Atom)
  | attr (baud dataBits parity stopBits rxFifoDepth timeout : Atom)
deriving DecidableEq, Repr

/-- R95: the pseudo-operations. -/
inductive Pseudo
  | waitTxempty
  | waitWritable
  | waitRxready
  | latchOn
  | latchOff (lcr : Source)
deriving DecidableEq, Repr

/-- R93: one line of a program. An operation is its selector byte with its operands and the names its results go to
(`none` is `_`); a line may carry a label, which no operation refers to. -/
inductive Line
  | op (label : Option Ident) (selector : Byte) (args : List (OperandName × Source)) (outs : List (Option Ident))
  | pseudo (label : Option Ident) (p : Pseudo)
deriving DecidableEq, Repr

end Sys2Proof
end

