-- ==== Sys2Proof/WellFormed.lean ====
section
/-! DEFINITION. What R10, R65 and R93 ask of a configuration and of a program line. -/

namespace Sys2Proof

/-- R10 (a). -/
def Cfg.baudInDomain (c : Cfg) : Bool := decide (1 ≤ c.defaultBaud.toNat ∧ 16 * c.defaultBaud.toNat ≤ maxU32)

/-- R10 (b). -/
def Cfg.strideOk (c : Cfg) : Bool := decide (1 ≤ c.stride)

/-- R10 (c), for offsets 0 to 7 and for the offsets the configuration gives the registers. -/
def Cfg.addressesFit (c : Cfg) : Bool :=
  (List.range 8).all (fun off => decide (c.uartBase + off * c.stride < 2 ^ c.addrWidth))
  && Slot.all.all (fun r => decide (c.uartBase + c.offsets.at r * c.stride < 2 ^ c.addrWidth))

/-- R10 (d). -/
def Cfg.clockRateFits (c : Cfg) : Bool := decide (c.clockRate < 2 ^ 32)

/-- R65. -/
def Cfg.clkDivAligned (c : Cfg) : Bool := decide (c.clkDivAddr % 4 = 0)

/-- R9: `CLKDIV_ADDR` is an `ADDR_WIDTH`-bit value. -/
def Cfg.clkDivFits (c : Cfg) : Bool := decide (c.clkDivAddr < 2 ^ c.addrWidth)

/-- DESIGN CHOICE (log 7): two places of R31's table have two offsets. -/
def Cfg.offsetsDistinct (c : Cfg) : Bool := decide (Slot.all.map c.offsets.at).Nodup

/-- R10, R65: a configuration the model accepts. -/
def Cfg.wf (c : Cfg) : Bool :=
  c.baudInDomain && c.strideOk && c.addressesFit && c.clockRateFits && c.clkDivAligned && c.clkDivFits
  && c.offsetsDistinct

/-- R90, R107: an operation is its selector alone, so every operation is well formed as it stands. -/
def Instr.wf (i : Instr) : Bool := Instr.all.contains i

/-- R93: every operand of the operation is given, none twice, none that is not the operation's. -/
def Instr.argsGiven (i : Instr) (args : List (OperandName × Source)) : Bool :=
  i.operands.all (fun r => (args.map Prod.fst).contains r)
  && decide (args.map Prod.fst).Nodup
  && (args.map Prod.fst).all (fun r => i.operands.contains r || i.optionalOperands.contains r)

/-- R93: each result is bound to a name or discarded. -/
def Instr.outsFit (i : Instr) (outs : List (Option Ident)) : Bool := decide (outs.length = i.results.length)

end Sys2Proof
end

