-- ==== Sys2Proof/Decode.lean ====
section
/-! DEFINITION. The operation selector (R90, R91, R106, R107): the decoder, and the encoder written from the same
table. -/

namespace Sys2Proof

/-- Why a selector spells no operation. -/
inductive DecodeError
  /-- R107: there is no selector byte to read. -/
  | noSelector
  /-- R106: the byte stands in no row of R91. -/
  | unlisted (selector : Byte)
deriving DecidableEq, Repr

/-- R91: the operation a selector spells, or R106's refusal by name. -/
def decodeSelector (op : Byte) : Except DecodeError Instr :=
  match op.toNat with
  | 0x01 => .ok .encData
  | 0x02 => .ok .encPar
  | 0x03 => .ok .encStop
  | 0x04 => .ok .lcrPack
  | 0x05 => .ok .lcrEnc
  | 0x06 => .ok .decData
  | 0x07 => .ok .decPar
  | 0x08 => .ok .decStop
  | 0x09 => .ok .fifoDepth
  | 0x0A => .ok .lcrMatch
  | 0x0B => .ok .attrResolve
  | 0x10 => .ok .clkScale
  | 0x11 => .ok .divCalc
  | 0x12 => .ok .divCompute
  | 0x13 => .ok .divSplit
  | 0x14 => .ok .divJoin
  | 0x20 => .ok .gateTx
  | 0x21 => .ok .gateTxempty
  | 0x22 => .ok .gateRxready
  | 0x23 => .ok .gatePollrts
  | 0x24 => .ok .ctlSet
  | 0x25 => .ok .ctlGet
  | 0x30 => .ok .seqInit
  | 0x31 => .ok .seqWrite
  | 0x32 => .ok .seqRead
  | 0x33 => .ok .seqPoll
  | 0x34 => .ok .seqSetctl
  | 0x35 => .ok .seqGetctl
  | 0x36 => .ok .seqSetattr
  | _ => .error (.unlisted op)

/-- R107: an operation is one selector byte; the rest of the list follows it. Total on any bytes. -/
def decode : List Byte → Except DecodeError (Instr × List Byte)
  | [] => .error .noSelector
  | op :: rest => (decodeSelector op).map (fun i => (i, rest))

/-- R90, R91: the family nibble of a selector. -/
def familyNibble : Family → BitVec 4
  | .codec => 0x0#4
  | .divisor => 0x1#4
  | .gate => 0x2#4
  | .sequencer => 0x3#4

/-- R90, R91: the operation's number within its family. -/
def withinFamily : Instr → BitVec 4
  | .encData => 0x1#4
  | .encPar => 0x2#4
  | .encStop => 0x3#4
  | .lcrPack => 0x4#4
  | .lcrEnc => 0x5#4
  | .decData => 0x6#4
  | .decPar => 0x7#4
  | .decStop => 0x8#4
  | .fifoDepth => 0x9#4
  | .lcrMatch => 0xA#4
  | .attrResolve => 0xB#4
  | .clkScale => 0x0#4
  | .divCalc => 0x1#4
  | .divCompute => 0x2#4
  | .divSplit => 0x3#4
  | .divJoin => 0x4#4
  | .gateTx => 0x0#4
  | .gateTxempty => 0x1#4
  | .gateRxready => 0x2#4
  | .gatePollrts => 0x3#4
  | .ctlSet => 0x4#4
  | .ctlGet => 0x5#4
  | .seqInit => 0x0#4
  | .seqWrite => 0x1#4
  | .seqRead => 0x2#4
  | .seqPoll => 0x3#4
  | .seqSetctl => 0x4#4
  | .seqGetctl => 0x5#4
  | .seqSetattr => 0x6#4

/-- The selector of an operation: its family nibble above its number (R90). -/
def encodeSelector (i : Instr) : Byte := familyNibble i.family ++ withinFamily i

/-- The bytes of an operation (R107). -/
def encode (i : Instr) : List Byte := [encodeSelector i]

/-- The operation a row of the opcode table spells: `nbits` is always 8 (R107). -/
def decodeTableWord (nbits w : Nat) : Option Instr :=
  if nbits = 8 ∧ w < 256 then
    match decode [BitVec.ofNat 8 w] with
    | .ok (i, []) => some i
    | _ => none
  else none

end Sys2Proof
end

