-- ==== Sys2Proof/Machine/State.lean ====
section
/-! DEFINITION. The state of the block (R20): operand and result registers, configuration, variant, sequencer
position, register file, event history; the environment's draws; the caller's program; the outcomes of R356; reset. -/

namespace Sys2Proof.Machine

/-- R21, R92: the named operand registers. `none` is R47's "holds no value", whose reading is a fault. `req` is ATTR
on its way in (R22). -/
structure Operands where
  dataBits : Option Byte := none
  parity : Option Parity := none
  stopBits : Option StopBits := none
  dataCode : Option (BitVec 2) := none
  stopCode : Option (BitVec 1) := none
  parCode : Option (BitVec 3) := none
  lcr : Option Byte := none
  fcr : Option Byte := none
  extFifoSize : Option U32 := none
  a : Option Byte := none
  b : Option Byte := none
  req : Option Attr := none
  liveLcr : Option Byte := none
  base : Option U32 := none
  divReg : Option U32 := none
  effClk : Option Nat := none
  baud : Option U32 := none
  divisor : Option U32 := none
  hi : Option Byte := none
  lo : Option Byte := none
  lsr : Option Byte := none
  mcr : Option Byte := none
  ready : Option Bool := none
  mask : Option U32 := none
  msr : Option Byte := none
  buf : Option (List Byte) := none
  count : Option Nat := none
deriving DecidableEq, Repr

/-- R21, R92: the named result registers; `none` is "holds no value". `res` is ATTR on its way out (R22). -/
structure Results where
  st : Option Status := none
  dataCode : Option (BitVec 2) := none
  parCode : Option (BitVec 3) := none
  stopCode : Option (BitVec 1) := none
  lcr : Option Byte := none
  dataBits : Option Byte := none
  parity : Option Parity := none
  stopBits : Option StopBits := none
  depth : Option U32 := none
  eq : Option Bool := none
  res : Option Attr := none
  allDefault : Option Bool := none
  effClk : Option Nat := none
  divisor : Option U32 := none
  hi : Option Byte := none
  lo : Option Byte := none
  divisor16 : Option U16 := none
  writable : Option Bool := none
  empty : Option Bool := none
  ready : Option Bool := none
  mcrOut : Option Byte := none
  mask : Option U32 := none
  count : Option Nat := none
  buf : Option (List Byte) := none
  countRead : Option Nat := none
deriving DecidableEq, Repr

/-- R28, R32: a stored register. `unwritten` is R47's reset value: the first read draws, and the draw then stays. -/
inductive Stored
  | unwritten
  | holds (v : Byte)
deriving DecidableEq, Repr

/-- R28: the stored registers by name. -/
inductive StoredName
  | lcr | ier | mcr | dll | dlm | scr
deriving DecidableEq, Repr

/-- R27 to R42: what the register file stores. RBR, LSR, MSR and IIR are the environment's, and FCR and THR store
nothing (R28, R34). -/
structure UartRegs where
  lcr : Stored := .unwritten
  ier : Stored := .unwritten
  mcr : Stored := .unwritten
  dll : Stored := .unwritten
  dlm : Stored := .unwritten
  scr : Stored := .unwritten
deriving DecidableEq, Repr

/-- One stored register of the file. -/
def UartRegs.get (u : UartRegs) : StoredName → Stored
  | .lcr => u.lcr
  | .ier => u.ier
  | .mcr => u.mcr
  | .dll => u.dll
  | .dlm => u.dlm
  | .scr => u.scr

/-- The file with one stored register holding a value. -/
def UartRegs.put (u : UartRegs) (r : StoredName) (v : Byte) : UartRegs :=
  match r with
  | .lcr => { u with lcr := .holds v }
  | .ier => { u with ier := .holds v }
  | .mcr => { u with mcr := .holds v }
  | .dll => { u with dll := .holds v }
  | .dlm => { u with dlm := .holds v }
  | .scr => { u with scr := .holds v }

/-- R33, R43: the values the environment supplies in order, one list for each register it draws (the lists of the
spec's own vectors). When a list is empty, the draw is a free value (log 2). -/
structure Env where
  lsr : List Byte := []
  msr : List Byte := []
  rbr : List Byte := []
  clkDiv : List U32 := []
deriving DecidableEq, Repr

/-- R28: the environment registers the block reads, by name. -/
inductive EnvName
  | lsr | msr | rbr
deriving DecidableEq, Repr

/-- The draws laid out for one environment register. -/
def Env.queue (e : Env) : EnvName → List Byte
  | .lsr => e.lsr
  | .msr => e.msr
  | .rbr => e.rbr

/-- The environment with one register's draws replaced. -/
def Env.putQueue (e : Env) (r : EnvName) (l : List Byte) : Env :=
  match r with
  | .lsr => { e with lsr := l }
  | .msr => { e with msr := l }
  | .rbr => { e with rbr := l }

/-- R15. -/
inductive AccessKind
  | read | write
deriving DecidableEq, Repr

/-- R15: one device access. `width` is in bytes, as in R14. -/
structure Event where
  kind : AccessKind
  address : Nat
  width : Nat
  value : Nat
deriving DecidableEq, Repr

/-- R281: the values Initialize computes once, at I0. -/
structure InitTargets where
  tDiv : U32
  tLcr : Byte
deriving DecidableEq, Repr

/-- R281 to R283: the labels of Initialize, each with the values read or computed before it and still used. -/
inductive InitPos
  | i0
  | i1 (t : InitTargets)
  | i2 (t : InitTargets) (l0 : Byte) (okL : Bool)
  | i3 (t : InitTargets) (l0 : Byte) (okL : Bool)
  | i4 (t : InitTargets) (l0 : Byte) (okL : Bool) (hi : Byte)
  | i5 (t : InitTargets) (l0 : Byte) (okL : Bool) (hi lo : Byte)
  | i6 (t : InitTargets) (okL okD : Bool)
  | i7 (t : InitTargets)
  | i8 (t : InitTargets)
  | i9 (t : InitTargets)
  | i10 (t : InitTargets) (lo : Byte)
  | i11 (t : InitTargets)
  | i12 | i13 | i14 | i15 | i16
deriving DecidableEq, Repr

/-- R291: what a Write keeps between its labels. `rest` is the bytes not yet sent, so the rule's `i` is `n` less its
length; `k` counts the bytes of the batch. -/
structure WriteVars where
  n : Nat
  depth : Nat
  k : Nat
deriving DecidableEq, Repr

/-- R290, R291: the labels of Write. -/
inductive WritePos
  | w0 | w1 | w2
  | w3
  | w4 (v : WriteVars) (rest : List Byte)
  | w5 (v : WriteVars) (rest : List Byte)
  | w6 (v : WriteVars) (rest : List Byte)
  | w7 (v : WriteVars) (byte : Byte) (rest : List Byte)
  | w8 (v : WriteVars) (byte : Byte) (rest : List Byte)
  | w9 (n : Nat)
deriving DecidableEq, Repr

/-- R300: what a Read keeps between its labels. The rule's `j` is the length of `buf`. -/
structure ReadVars where
  count : Nat
  base : Byte
  buf : List Byte
deriving DecidableEq, Repr

/-- R300: the labels of Read. -/
inductive ReadPos
  | rd0
  | rd1 (v : ReadVars)
  | rd2 (v : ReadVars)
  | rd3 (v : ReadVars)
  | rd4 (v : ReadVars)
  | rd5 (v : ReadVars)
  | rd6 (v : ReadVars)
deriving DecidableEq, Repr

/-- R305: the labels of Poll. -/
inductive PollPos
  | p0
  | p1 (ready : Bool)
  | p2 (ready : Bool) (m : Byte)
  | p3 (ready : Bool)
deriving DecidableEq, Repr

/-- R310: the labels of SetControl. -/
inductive SetctlPos
  | s0
  | s1 (mask : U32)
  | s2 (m2 : Byte)
  | s3
deriving DecidableEq, Repr

/-- R315: the labels of GetControl. -/
inductive GetctlPos
  | g0
  | g1 (s : Byte)
  | g2 (s c : Byte)
  | g3 (s c l : Byte)
deriving DecidableEq, Repr

/-- R320: the labels of SetAttributes. `live` holds no value when A0 read no LCR. -/
inductive SetattrPos
  | a0
  | a1 (req : Attr) (live : Option Byte)
  | a2 (res : Attr) (lcr : Byte) (allDefault : Bool)
  | a3 (res : Attr) (lcr : Byte)
  | a4 (res : Attr) (lcr : Byte) (d : U32)
  | a5 (res : Attr) (lcr : Byte) (hi lo : Byte)
  | a6 (res : Attr) (lcr : Byte) (lo : Byte)
  | a7 (res : Attr) (lcr : Byte)
  | a8 (res : Attr)
deriving DecidableEq, Repr

/-- R25: the sequencer's position. -/
inductive Position
  | idle
  | init (p : InitPos)
  | write (p : WritePos)
  | read (p : ReadPos)
  | poll (p : PollPos)
  | setctl (p : SetctlPos)
  | getctl (p : GetctlPos)
  | setattr (p : SetattrPos)
deriving DecidableEq, Repr

/-- R8, R25: the operation a position is inside. -/
def Position.inProgress : Position → Option Instr
  | .idle => none
  | .init _ => some .seqInit
  | .write _ => some .seqWrite
  | .read _ => some .seqRead
  | .poll _ => some .seqPoll
  | .setctl _ => some .seqSetctl
  | .getctl _ => some .seqGetctl
  | .setattr _ => some .seqSetattr

/-- The state of the block, its environment and its caller. -/
structure State where
  /-- R24. -/
  variant : Variant
  /-- R9, R23. -/
  cfg : Cfg
  /-- R25. -/
  pos : Position
  /-- R20 (1), R21: the operand registers of the operation in progress; at Idle they hold no value (R22, log 25). -/
  opr : Operands
  /-- R21. They keep a finished operation's results, its return values, until the next operation starts (log 5). -/
  res : Results
  /-- R27. -/
  uart : UartRegs
  /-- R33, R43: what the environment will supply (log 2). -/
  env : Env
  /-- The model's own: how many free values have been taken (log 2). -/
  freeCount : Nat
  /-- R15: the event history, oldest first. -/
  events : List Event
  /-- R93: the lines the caller has not yet issued, in order. -/
  program : List Line
  /-- R93: the names the results of the operation in progress go to. -/
  outs : List (Option Ident)
  /-- R93: the caller's names. -/
  names : List (Ident × Value)
deriving DecidableEq, Repr

/-- R356: the machine stops because a register that holds no value was read. Safe: nothing follows a fault. -/
inductive Fault
  /-- Raised by any operation that reads an operand register holding no value (R21, U5). Safe. -/
  | operandHoldsNoValue (r : OperandName)
  /-- Raised by a program line that uses a name holding no value: one whose result held none (R21, U5), or one that no
  earlier line binds (DESIGN CHOICE, log 27). Safe. -/
  | nameHoldsNoValue (x : Ident)
deriving DecidableEq, Repr

/-- R356: the model gives the step no meaning. Every refusal is safe: a refused step claims nothing. -/
inductive Refusal
  /-- Raised by exec for an instruction whose meaning is not written. Safe. -/
  | notModelled (mnemonic : String)
  /-- Raised by step for a selector in no row of R91 (R106, U6). Safe. -/
  | selectorUnlisted (selector : Byte)
  /-- Raised at an operation's start when the variant is not MiniUart16550 (R6, U11). Safe. -/
  | variantNotMiniUart
  /-- Raised when an operation starts while another is in progress (R8, U11). Safe. -/
  | operationInProgress
  /-- Raised at an operation's start under a configuration that breaks R10 or R65 (U10). Safe. -/
  | configurationRejected
  /-- Raised by the calculator and by attribute resolution outside R204's domain (U9, R152 step 5). Safe. -/
  | outsideDivisorDomain
  /-- Raised by a read of offset 2, IIR (R30, U7); no operation makes one. Safe. -/
  | iirRead
  /-- Raised by an access to offset 7, SCR (R42, U8); no operation makes one. Safe. -/
  | scratchAccess
  /-- Raised by a write to LSR or MSR, for which the spec gives no effect (R30); no operation makes one. Safe. -/
  | statusRegisterWrite
  /-- Raised by a program line that is not well formed by R93: an operand missing, given twice or foreign, or a wrong
  number of results. Safe. -/
  | lineIllFormed
  /-- Raised by a program line that gives an operand register a value not of its type or width (R92, R94). Safe. -/
  | operandIllTyped (r : OperandName)
deriving DecidableEq, Repr

/-- The outcome of one step of this machine. -/
abbrev Out := Host.Outcome State Fault Refusal

/-- R47, R380: the machine after reset. -/
def State.reset : State where
  variant := .unprobed
  cfg := Config.examplePlatform
  pos := .idle
  opr := {}
  res := {}
  uart := {}
  env := {}
  freeCount := 0
  events := []
  program := []
  outs := []
  names := []

end Sys2Proof.Machine
end

