-- ==== Sys2Proof/Machine/Flags.lean ====
section
/-! DEFINITION. The block has no flags of its own (R26): the bit masks of R103 (PRESUMED, log 8) and the predicates and masks the
gate computes from MSR, LSR and MCR (R240 to R252). -/

/-- R105: SET_MASK, the signals SetControl accepts. -/
def Sys2Proof.Signals.setMask (g : Signals) : U32 := g.rts ||| g.dtr ||| g.hwFlow

namespace Sys2Proof.Machine

/-! ### R103 -/

abbrev LSR_DR : Byte := 0x01#8
abbrev LSR_THRE : Byte := 0x20#8
abbrev LSR_TEMT : Byte := 0x40#8
abbrev MCR_DTR : Byte := 0x01#8
abbrev MCR_RTS : Byte := 0x02#8
abbrev LCR_DLAB : Byte := 0x80#8

/-- R240: writability under hardware flow control, from one MSR value. -/
def txWritable (detectCable : Bool) (msr : Byte) : Bool :=
  let dsr := bit msr 5
  let cts := bit msr 4
  if detectCable then dsr && cts else !(dsr && !cts)

/-- R243. -/
def txEmpty (lsr : Byte) : Bool := decide (lsr &&& (LSR_THRE ||| LSR_TEMT) = LSR_THRE ||| LSR_TEMT)

/-- R245. -/
def rxReady (lsr : Byte) : Bool := bit lsr 0

/-- R246. -/
def pollRts (mcr : Byte) (ready : Bool) : Byte := if ready then mcr &&& ~~~MCR_RTS else mcr ||| MCR_RTS

/-- R105: a mask SetControl accepts. -/
def maskAccepted (g : Signals) (mask : U32) : Bool := decide (mask &&& ~~~g.setMask = 0#32)

/-- R248, R249: the MCR value a valid mask gives. -/
def ctlMcr (g : Signals) (mask : U32) (mcr : Byte) : Byte :=
  let m := mcr &&& ~~~(MCR_DTR ||| MCR_RTS)
  let m := if mask &&& g.dtr = 0#32 then m else m ||| MCR_DTR
  if mask &&& g.rts = 0#32 then m else m ||| MCR_RTS

/-- R248: `none` is Unsupported. -/
def ctlSet (g : Signals) (mask : U32) (mcr : Byte) : Option Byte :=
  if maskAccepted g mask then some (ctlMcr g mask mcr) else none

/-- One signal of a mask. -/
def signal (present : Bool) (sig : U32) : U32 := if present then sig else 0#32

/-- R250. -/
def ctlGet (g : Signals) (hwFlow : Bool) (msr mcr lsr : Byte) : U32 :=
  signal (bit msr 4) g.cts ||| signal (bit msr 5) g.dsr ||| signal (bit msr 6) g.ri
  ||| signal (bit msr 7) g.cd ||| signal (bit mcr 0) g.dtr ||| signal (bit mcr 1) g.rts
  ||| signal hwFlow g.hwFlow ||| signal (txEmpty lsr) g.obe ||| signal (!rxReady lsr) g.ibe

end Sys2Proof.Machine
end

