-- ==== Sys2Proof/Machine/Operands.lean ====
section
/-! DEFINITION. Operand forms: the code tables of R96 to R102, the codec's functions on them (R140 to R151), attribute
resolution (R152), reading an operand register, loading operand registers with a program's values (R92, R94). -/

namespace Sys2Proof.Machine

/-- R21: reads an operand register; one that holds no value faults. -/
def need {α : Type} (r : OperandName) (v : Option α) (k : α → Out) : Out :=
  match v with
  | some a => k a
  | none => .fault (.operandHoldsNoValue r)

/-! ### Codes -/

/-- R97, R140. -/
def encData (d : Byte) : Option (BitVec 2) :=
  if 5 ≤ d.toNat ∧ d.toNat ≤ 8 then some (BitVec.ofNat 2 (d.toNat - 5)) else none

/-- R96, R141. -/
def encPar : Parity → Option (BitVec 3)
  | .none => some 0#3
  | .odd => some 1#3
  | .even => some 3#3
  | .mark => some 5#3
  | .space => some 7#3
  | .default => none

/-- R98, R142. -/
def encStop : StopBits → Option (BitVec 1)
  | .one => some 0#1
  | .oneAndHalf => some 1#1
  | .two => some 1#1
  | .default => none

/-- R99, R143. -/
def lcrPack (dataCode : BitVec 2) (stopCode : BitVec 1) (parCode : BitVec 3) : Byte :=
  ((parCode.setWidth 8 <<< 3) ||| (stopCode.setWidth 8 <<< 2) ||| dataCode.setWidth 8) &&& 0x3F#8

/-- R144: `none` is InvalidParameter. -/
def lcrEnc (d : Byte) (p : Parity) (s : StopBits) : Option Byte :=
  match encData d, encPar p, encStop s with
  | some dc, some pc, some sc => some (lcrPack dc sc pc)
  | _, _, _ => none

/-- R145. -/
def decData (lcr : Byte) : Byte := (lcr.extractLsb' 0 2).setWidth 8 + 5#8

/-- R96, R146: `none` for the codes 2, 4 and 6. -/
def decPar (lcr : Byte) : Option Parity :=
  match (lcr.extractLsb' 3 3).toNat with
  | 0 => some .none
  | 1 => some .odd
  | 3 => some .even
  | 5 => some .mark
  | 7 => some .space
  | _ => none

/-- R98, R147: by the data-bits count already resolved. -/
def decStop (lcr : Byte) (dataBits : Byte) : StopBits :=
  if bit lcr 2 = false then .one else if dataBits = 5#8 then .oneAndHalf else .two

/-- R46, R100, R150. -/
def fifoDepth (fcr : Byte) (extFifoSize : U32) : U32 :=
  if bit fcr 0 = false then 1#32 else if bit fcr 5 = false then 16#32 else extFifoSize

/-- R151. -/
def lcrMatch (a b : Byte) : Bool := decide (a &&& 0x3F#8 = b &&& 0x3F#8)

/-- R101, R206: the high byte of a divisor. -/
def divHi (divisor : U32) : Byte := divisor.extractLsb' 8 8

/-- R101, R206: the low byte of a divisor. -/
def divLo (divisor : U32) : Byte := divisor.extractLsb' 0 8

/-- R101, R207. -/
def divJoin (hi lo : Byte) : U16 := BitVec.ofNat 16 (hi.toNat * 256 + lo.toNat)

/-! ### Attribute resolution -/

/-- R152: every line setting and the baud rate ask for the default. -/
def attrAllDefault (r : Attr) : Bool :=
  decide (r.baud = 0#32 ∧ r.dataBits = 0#8 ∧ r.parity = .default ∧ r.stopBits = .default)

/-- R152, R320 (A0): whether resolution reads the live LCR. -/
def attrNeedsLive (c : Cfg) (r : Attr) : Bool :=
  decide (c.defaultSource = .liveLcr ∧ (r.dataBits = 0#8 ∨ r.parity = .default ∨ r.stopBits = .default))

/-- One resolved field: a value, an InvalidParameter, or a need of the live LCR while it holds no value. -/
inductive Field (α : Type)
  | value (a : α)
  | invalid
  | noSource
deriving DecidableEq, Repr

/-- R153: what a default line setting is decoded from, if it is at hand. -/
def attrSource (c : Cfg) (live : Option Byte) : Option Byte :=
  match c.defaultSource with
  | .liveLcr => live
  | .configLcr => some c.lcr

/-- R152 step 2. -/
def resolveDataBits (src : Option Byte) (d : Byte) : Field Byte :=
  if d = 0#8 then
    match src with
    | some l => .value (decData l)
    | none => .noSource
  else if (encData d).isSome then .value d else .invalid

/-- R152 step 3. -/
def resolveParity (src : Option Byte) (p : Parity) : Field Parity :=
  if p = .default then
    match src with
    | some l =>
      match decPar l with
      | some q => .value q
      | none => .invalid
    | none => .noSource
  else if (encPar p).isSome then .value p else .invalid

/-- R152 step 4: the decode reads the resolved data bits. -/
def resolveStopBits (src : Option Byte) (dataBits : Byte) (s : StopBits) : Field StopBits :=
  if s = .default then
    match src with
    | some l => .value (decStop l dataBits)
    | none => .noSource
  else if (encStop s).isSome then .value s else .invalid

/-- R152 step 1, R154. -/
def resolveBaud (c : Cfg) (baud : U32) : U32 := if baud = 0#32 then c.defaultBaud else baud

/-- What ATTR.RESOLVE comes to (R152). -/
inductive Resolution
  | resolved (res : Attr) (lcr : Byte)
  | invalid
  | noSource
  | outsideDomain
deriving DecidableEq, Repr

/-- R152, R155: baud, data bits, parity, stop bits, the calculator's domain, the pack, in that order. -/
def attrResolve (c : Cfg) (req : Attr) (live : Option Byte) : Resolution :=
  let src := attrSource c live
  let baud := resolveBaud c req.baud
  match resolveDataBits src req.dataBits with
  | .invalid => .invalid
  | .noSource => .noSource
  | .value d =>
    match resolveParity src req.parity with
    | .invalid => .invalid
    | .noSource => .noSource
    | .value p =>
      match resolveStopBits src d req.stopBits with
      | .invalid => .invalid
      | .noSource => .noSource
      | .value s =>
        if maxU32 < 16 * baud.toNat then .outsideDomain
        else
          match lcrEnc d p s with
          | some l => .resolved { req with baud := baud, dataBits := d, parity := p, stopBits := s } l
          | none => .invalid

/-! ### Numbers of the software interface (R130, informative) -/

/-- R130: the interface's numbers of Parity; no operation reads one. -/
def parityNumber : Parity → Nat
  | .default => 0
  | .none => 1
  | .even => 2
  | .odd => 3
  | .mark => 4
  | .space => 5

/-- R130, R141: an interface reads a Parity from a number; `none` is its InvalidParameter. -/
def parityOfNumber (n : Nat) : Option Parity :=
  match n with
  | 0 => some .default
  | 1 => some .none
  | 2 => some .even
  | 3 => some .odd
  | 4 => some .mark
  | 5 => some .space
  | _ => none

/-- R130: the interface's numbers of StopBits; no operation reads one. -/
def stopBitsNumber : StopBits → Nat
  | .default => 0
  | .one => 1
  | .oneAndHalf => 2
  | .two => 3

/-- R130: an interface reads a StopBits from a number. -/
def stopBitsOfNumber (n : Nat) : Option StopBits :=
  match n with
  | 0 => some .default
  | 1 => some .one
  | 2 => some .oneAndHalf
  | 3 => some .two
  | _ => none

/-- R130: the interface's numbers of Status in a native word of `w` bits, error codes with the top bit set. -/
def statusNumber (w : Nat) : Status → Nat
  | .success => 0
  | .invalidParameter => 2 ^ (w - 1) + 2
  | .unsupported => 2 ^ (w - 1) + 3
  | .deviceError => 2 ^ (w - 1) + 7

/-! ### Operand registers and results as a program's values -/

/-- R92, R94: a number that fits an unsigned register of `w` bits. -/
def fits (w n : Nat) : Option (BitVec w) := if n < 2 ^ w then some (BitVec.ofNat w n) else none

/-- R94: a value as a number of `w` bits. -/
def asNumber (w : Nat) : Value → Option (BitVec w)
  | .num n => fits w n
  | _ => none

/-- R94: a value as a Parity. -/
def asParity : Value → Option Parity
  | .parity p => some p
  | _ => none

/-- R94: a value as a StopBits. -/
def asStopBits : Value → Option StopBits
  | .stopBits s => some s
  | _ => none

/-- R92, R94: an operand register given a program's value; `none` when the value is not of its type or width. -/
def Operands.load (o : Operands) (r : OperandName) (v : Value) : Option Operands :=
  match r, v with
  | .dataBits, .num n => (fits 8 n).map (fun x => { o with dataBits := some x })
  | .parity, .parity p => some { o with parity := some p }
  | .stopBits, .stopBits s => some { o with stopBits := some s }
  | .dataCode, .num n => (fits 2 n).map (fun x => { o with dataCode := some x })
  | .stopCode, .num n => (fits 1 n).map (fun x => { o with stopCode := some x })
  | .parCode, .num n => (fits 3 n).map (fun x => { o with parCode := some x })
  | .lcr, .num n => (fits 8 n).map (fun x => { o with lcr := some x })
  | .fcr, .num n => (fits 8 n).map (fun x => { o with fcr := some x })
  | .extFifoSize, .num n => (fits 32 n).map (fun x => { o with extFifoSize := some x })
  | .a, .num n => (fits 8 n).map (fun x => { o with a := some x })
  | .b, .num n => (fits 8 n).map (fun x => { o with b := some x })
  | .req, .attr a => some { o with req := some a }
  | .liveLcr, .num n => (fits 8 n).map (fun x => { o with liveLcr := some x })
  | .base, .num n => (fits 32 n).map (fun x => { o with base := some x })
  | .divReg, .num n => (fits 32 n).map (fun x => { o with divReg := some x })
  | .effClk, .num n => some { o with effClk := some n }
  | .baud, .num n => (fits 32 n).map (fun x => { o with baud := some x })
  | .divisor, .num n => (fits 32 n).map (fun x => { o with divisor := some x })
  | .hi, .num n => (fits 8 n).map (fun x => { o with hi := some x })
  | .lo, .num n => (fits 8 n).map (fun x => { o with lo := some x })
  | .lsr, .num n => (fits 8 n).map (fun x => { o with lsr := some x })
  | .mcr, .num n => (fits 8 n).map (fun x => { o with mcr := some x })
  | .ready, .bool b => some { o with ready := some b }
  | .mask, .num n => (fits 32 n).map (fun x => { o with mask := some x })
  | .msr, .num n => (fits 8 n).map (fun x => { o with msr := some x })
  | .buf, .bytes l => some { o with buf := some l }
  | .count, .num n => some { o with count := some n }
  | _, _ => none

/-- R93: a result register as a program's value, if it holds one. -/
def Results.value (r : Results) : ResultName → Option Value
  | .st => r.st.map .status
  | .dataCode => r.dataCode.map (fun x => .num x.toNat)
  | .parCode => r.parCode.map (fun x => .num x.toNat)
  | .stopCode => r.stopCode.map (fun x => .num x.toNat)
  | .lcr => r.lcr.map (fun x => .num x.toNat)
  | .dataBits => r.dataBits.map (fun x => .num x.toNat)
  | .parity => r.parity.map .parity
  | .stopBits => r.stopBits.map .stopBits
  | .depth => r.depth.map (fun x => .num x.toNat)
  | .eq => r.eq.map .bool
  | .res => r.res.map .attr
  | .allDefault => r.allDefault.map .bool
  | .effClk => r.effClk.map .num
  | .divisor => r.divisor.map (fun x => .num x.toNat)
  | .hi => r.hi.map (fun x => .num x.toNat)
  | .lo => r.lo.map (fun x => .num x.toNat)
  | .divisor16 => r.divisor16.map (fun x => .num x.toNat)
  | .writable => r.writable.map .bool
  | .empty => r.empty.map .bool
  | .ready => r.ready.map .bool
  | .mcrOut => r.mcrOut.map (fun x => .num x.toNat)
  | .mask => r.mask.map (fun x => .num x.toNat)
  | .count => r.count.map .num
  | .buf => r.buf.map .bytes
  | .countRead => r.countRead.map .num

end Sys2Proof.Machine
end

