-- ==== Sys2Proof/Machine/Ops.lean ====
section
/-! DEFINITION. The shared operations: starting and ending an operation (R6, R8, R10, R350, R358), draws (R32, R33,
R43), the device accesses of R14 with their events (R15), and the gate's evaluation (R240, R241). -/

/-- R60: the address of a register. -/
def Sys2Proof.Cfg.addr (c : Cfg) (r : Slot) : Nat := c.uartBase + c.offsets.at r * c.stride

namespace Sys2Proof.Machine

/-! ### Starting and ending -/

/-- R6, R8, R10: what every operation passes before it does anything; the result registers hold no value from here on
(R21). Which refusal a start gets that fails several of the checks is the model's (DESIGN CHOICE, log 24). -/
def start (s : State) (k : State → Out) : Out :=
  if s.pos ≠ .idle then .refused .operationInProgress
  else if s.cfg.wf = false then .refused .configurationRejected
  else if s.variant ≠ .miniUart16550 then .refused .variantNotMiniUart
  else k { s with res := {} }

/-- R13 `return`, R25: the operation ends with these results and the position is Idle. Its operand registers end with it
(R20): ATTR is not kept beyond the call (R22), nor is any other operand (DEDUCED, log 25). -/
def finish (r : Results) (s : State) : Out := .next { s with opr := {}, res := r, pos := .idle }

/-- R13 `raise`, R350, R358: the operation ends with a status and no other result. The block has no trap: this is the
whole of its error delivery. -/
def raise (st : Status) (s : State) : Out := finish { st := some st } s

/-- R25: the sequencer goes to a label. -/
def goto (p : Position) (s : State) : Out := .next { s with pos := p }

/-! ### Draws -/

/-- R32: the value a stored register has now; an unwritten one has the next free value. -/
def State.stored (s : State) (r : StoredName) : Byte :=
  match s.uart.get r with
  | .holds v => v
  | .unwritten => Config.freeByte s.freeCount

/-- R32: the draw of an unwritten register is taken once and stays. -/
def State.settle (s : State) (r : StoredName) : State :=
  match s.uart.get r with
  | .holds _ => s
  | .unwritten => { s with uart := s.uart.put r (Config.freeByte s.freeCount), freeCount := s.freeCount + 1 }

/-- R33: the value the next read of an environment register draws. -/
def State.drawn (s : State) (r : EnvName) : Byte :=
  match s.env.queue r with
  | v :: _ => v
  | [] => Config.freeByte s.freeCount

/-- R33: the state once that draw is taken. -/
def State.draw (s : State) (r : EnvName) : State :=
  match s.env.queue r with
  | _ :: vs => { s with env := s.env.putQueue r vs }
  | [] => { s with freeCount := s.freeCount + 1 }

/-- R43: the value the next read of the clock-divider register draws. -/
def State.drawnClkDiv (s : State) : U32 :=
  match s.env.clkDiv with
  | v :: _ => v
  | [] => Config.freeWord s.freeCount

/-- R43: the state once that draw is taken. -/
def State.drawClkDiv (s : State) : State :=
  match s.env.clkDiv with
  | _ :: vs => { s with env := { s.env with clkDiv := vs } }
  | [] => { s with freeCount := s.freeCount + 1 }

/-- R156: the state once a free attribute record is taken. -/
def State.drawAttr (s : State) : State := { s with freeCount := s.freeCount + 1 }

/-! ### Events -/

/-- R15. -/
def State.record (s : State) (e : Event) : State := { s with events := s.events ++ [e] }

/-- R14, R15, R62: the event of an 8-bit read. -/
def readEvent (c : Cfg) (r : Slot) (v : Byte) : Event :=
  { kind := .read, address := c.addr r, width := 1, value := v.toNat }

/-- R14, R15, R62: the event of an 8-bit write. -/
def writeEvent (c : Cfg) (r : Slot) (v : Byte) : Event :=
  { kind := .write, address := c.addr r, width := 1, value := v.toNat }

/-- R14, R15, R63: the event of the clock-divider read. -/
def clkDivEvent (c : Cfg) (v : U32) : Event :=
  { kind := .read, address := c.clkDivAddr, width := 4, value := v.toNat }

/-! ### Device accesses -/

/-- R31: the registers' names as the places of the register file. -/
abbrev R_RBR : Slot := .rbrThrDll
abbrev R_THR : Slot := .rbrThrDll
abbrev R_DLL : Slot := .rbrThrDll
abbrev R_IER : Slot := .ierDlm
abbrev R_DLM : Slot := .ierDlm
abbrev R_IIR : Slot := .iirFcr
abbrev R_FCR : Slot := .iirFcr
abbrev R_LCR : Slot := .lcr
abbrev R_MCR : Slot := .mcr
abbrev R_LSR : Slot := .lsr
abbrev R_MSR : Slot := .msr
abbrev R_SCR : Slot := .scr

/-- R29: the bank of offsets 0 and 1, decided by the LCR value stored at this moment. -/
def State.dlab (s : State) : Bool := bit (s.stored .lcr) 7

/-- R32: a read of a stored register. -/
def readStored (r : Slot) (n : StoredName) (s : State) (k : Byte → State → Out) : Out :=
  k (s.stored n) ((s.settle n).record (readEvent s.cfg r (s.stored n)))

/-- R33: a read of an environment register. -/
def readEnv (r : Slot) (n : EnvName) (s : State) (k : Byte → State → Out) : Out :=
  k (s.drawn n) ((s.draw n).record (readEvent s.cfg r (s.drawn n)))

/-- R32: a write of a stored register. -/
def writeStored (r : Slot) (n : StoredName) (v : Byte) (s : State) (k : State → Out) : Out :=
  k (State.record { s with uart := s.uart.put n v } (writeEvent s.cfg r v))

/-- R34: a write of THR or FCR is an event and nothing else. -/
def writeOnly (r : Slot) (v : Byte) (s : State) (k : State → Out) : Out := k (s.record (writeEvent s.cfg r v))

/-- R14 `DevRead`, R29 to R34: one 8-bit read. Offsets 0 and 1 are banked by DLAB, so an unwritten LCR takes its draw
first (log 4). -/
def devRead (r : Slot) (s : State) (k : Byte → State → Out) : Out :=
  match r with
  | .rbrThrDll => if s.dlab then readStored r .dll (s.settle .lcr) k else readEnv r .rbr (s.settle .lcr) k
  | .ierDlm => if s.dlab then readStored r .dlm (s.settle .lcr) k else readStored r .ier (s.settle .lcr) k
  | .iirFcr => .refused .iirRead
  | .lcr => readStored r .lcr s k
  | .mcr => readStored r .mcr s k
  | .lsr => readEnv r .lsr s k
  | .msr => readEnv r .msr s k
  | .scr => .refused .scratchAccess

/-- R14 `DevWrite`, R29 to R34: one 8-bit write. -/
def devWrite (r : Slot) (v : Byte) (s : State) (k : State → Out) : Out :=
  match r with
  | .rbrThrDll => if s.dlab then writeStored r .dll v (s.settle .lcr) k else writeOnly r v (s.settle .lcr) k
  | .ierDlm => if s.dlab then writeStored r .dlm v (s.settle .lcr) k else writeStored r .ier v (s.settle .lcr) k
  | .iirFcr => writeOnly r v s k
  | .lcr => writeStored r .lcr v s k
  | .mcr => writeStored r .mcr v s k
  | .lsr => .refused .statusRegisterWrite
  | .msr => .refused .statusRegisterWrite
  | .scr => .refused .scratchAccess

/-- R14 `ClkDivRead`, R63: one 32-bit read of the clock-divider register. -/
def clkDivRead (s : State) (k : U32 → State → Out) : Out :=
  k s.drawnClkDiv (s.drawClkDiv.record (clkDivEvent s.cfg s.drawnClkDiv))

/-- R240, R241: one evaluation of the transmit gate, with one MSR read if and only if flow control is on. -/
def gateTx (s : State) (k : Bool → State → Out) : Out :=
  if s.cfg.hwFlow then devRead R_MSR s (fun m s => k (txWritable s.cfg.detectCable m) s) else k true s

/-- R95 `LATCH.ON`, R283 I8, R320 A4. -/
def latchOn (s : State) (k : State → Out) : Out := devWrite R_LCR LCR_DLAB s k

/-- R95 `LATCH.OFF`. -/
def latchOff (v : Byte) (s : State) (k : State → Out) : Out := devWrite R_LCR (v &&& 0x3F#8) s k

end Sys2Proof.Machine
end

