-- ==== Sys2Proof/Machine/Codec.lean ====
section
/-! DEFINITION. The meanings of the codec's operations (40_codec.md, R140 to R156): each one atomic step with no device
access. -/

namespace Sys2Proof.Machine

/-- R140. -/
def execEncData (s : State) : Out :=
  start s fun s => need .dataBits s.opr.dataBits fun d =>
    match encData d with
    | some c => finish { st := some .success, dataCode := some c } s
    | none => raise .invalidParameter s

/-- R141. -/
def execEncPar (s : State) : Out :=
  start s fun s => need .parity s.opr.parity fun p =>
    match encPar p with
    | some c => finish { st := some .success, parCode := some c } s
    | none => raise .invalidParameter s

/-- R142. -/
def execEncStop (s : State) : Out :=
  start s fun s => need .stopBits s.opr.stopBits fun b =>
    match encStop b with
    | some c => finish { st := some .success, stopCode := some c } s
    | none => raise .invalidParameter s

/-- R143. -/
def execLcrPack (s : State) : Out :=
  start s fun s => need .dataCode s.opr.dataCode fun dc => need .stopCode s.opr.stopCode fun sc =>
    need .parCode s.opr.parCode fun pc => finish { lcr := some (lcrPack dc sc pc) } s

/-- R144. -/
def execLcrEnc (s : State) : Out :=
  start s fun s => need .dataBits s.opr.dataBits fun d => need .parity s.opr.parity fun p =>
    need .stopBits s.opr.stopBits fun b =>
      match lcrEnc d p b with
      | some l => finish { st := some .success, lcr := some l } s
      | none => raise .invalidParameter s

/-- R145. -/
def execDecData (s : State) : Out :=
  start s fun s => need .lcr s.opr.lcr fun l => finish { dataBits := some (decData l) } s

/-- R146. -/
def execDecPar (s : State) : Out :=
  start s fun s => need .lcr s.opr.lcr fun l =>
    match decPar l with
    | some p => finish { st := some .success, parity := some p } s
    | none => raise .invalidParameter s

/-- R147. -/
def execDecStop (s : State) : Out :=
  start s fun s => need .lcr s.opr.lcr fun l => need .dataBits s.opr.dataBits fun d =>
    finish { stopBits := some (decStop l d) } s

/-- R150. -/
def execFifoDepth (s : State) : Out :=
  start s fun s => need .fcr s.opr.fcr fun f => need .extFifoSize s.opr.extFifoSize fun e =>
    finish { depth := some (fifoDepth f e) } s

/-- R151. -/
def execLcrMatch (s : State) : Out :=
  start s fun s => need .a s.opr.a fun a => need .b s.opr.b fun b => finish { eq := some (lcrMatch a b) } s

/-- R152 to R156. On failure each field of `res` is a free value and `allDefault` is computed all the same (R156);
`liveLcr` is read only when a default needs it. -/
def execAttrResolve (s : State) : Out :=
  start s fun s => need .req s.opr.req fun req =>
    match attrResolve s.cfg req s.opr.liveLcr with
    | .resolved res l =>
      finish { st := some .success, res := some res, lcr := some l, allDefault := some (attrAllDefault req) } s
    | .invalid =>
      finish { st := some .invalidParameter, res := some (Config.freeAttr s.freeCount),
               allDefault := some (attrAllDefault req) } s.drawAttr
    | .noSource => .fault (.operandHoldsNoValue .liveLcr)
    | .outsideDomain => .refused .outsideDivisorDomain

end Sys2Proof.Machine
end

