-- ==== Sys2Proof/Machine/Gate.lean ====
section
/-! DEFINITION. The modem-status polling gate and the control signals (42_gate.md, R240 to R252). -/

namespace Sys2Proof.Machine

/-- R240, R241. -/
def execGateTx (s : State) : Out :=
  start s fun s => gateTx s fun w s => finish { writable := some w } s

/-- R243. -/
def execGateTxempty (s : State) : Out :=
  start s fun s => need .lsr s.opr.lsr fun l => finish { empty := some (txEmpty l) } s

/-- R245. -/
def execGateRxready (s : State) : Out :=
  start s fun s => need .lsr s.opr.lsr fun l => finish { ready := some (rxReady l) } s

/-- R246. -/
def execGatePollrts (s : State) : Out :=
  start s fun s => need .mcr s.opr.mcr fun m => need .ready s.opr.ready fun r =>
    finish { mcrOut := some (pollRts m r) } s

/-- R248, R249. -/
def execCtlSet (s : State) : Out :=
  start s fun s => need .mask s.opr.mask fun mask => need .mcr s.opr.mcr fun m =>
    match ctlSet s.cfg.signals mask m with
    | some m2 => finish { st := some .success, mcrOut := some m2 } s
    | none => raise .unsupported s

/-- R250. -/
def execCtlGet (s : State) : Out :=
  start s fun s => need .msr s.opr.msr fun g => need .mcr s.opr.mcr fun c => need .lsr s.opr.lsr fun l =>
    finish { st := some .success, mask := some (ctlGet s.cfg.signals s.cfg.hwFlow g c l) } s

end Sys2Proof.Machine
end

