-- ==== Sys2Proof/Machine/Divisor.lean ====
section
/-! DEFINITION. The baud-divisor calculator (41_divisor.md, R200 to R208): exact arithmetic on naturals, refused
outside R204's domain. -/

namespace Sys2Proof.Machine

/-- R102, R200: the effective clock, with the parameters of R9. -/
def clkScale (c : Cfg) (base : Nat) (divReg : U32) : Nat :=
  let div24 := (divReg &&& c.clkDivMask).toNat
  if div24 = 0 then base else (base * c.clkMult * 2 ^ c.fracBits) / div24

/-- R201, R204: `none` outside the calculator's domain. -/
def divCalc (effClk : Nat) (baud : U32) : Option U32 :=
  if 1 ≤ baud.toNat ∧ 16 * baud.toNat ≤ maxU32 then
    let den := baud.toNat * 16
    let q := effClk / den
    let q := if baud.toNat * 8 ≤ effClk % den then q + 1 else q
    if q ≤ maxU32 then some (BitVec.ofNat 32 q) else none
  else none

/-- R202: the divisor for a baud rate, with one clock-divider read. -/
def computeDivisor (baud : U32) (s : State) (k : U32 → State → Out) : Out :=
  clkDivRead s fun divReg s =>
    match divCalc (clkScale s.cfg s.cfg.clockRate divReg) baud with
    | some d => k d s
    | none => .refused .outsideDivisorDomain

/-- R200. -/
def execClkScale (s : State) : Out :=
  start s fun s => need .base s.opr.base fun b => need .divReg s.opr.divReg fun r =>
    finish { effClk := some (clkScale s.cfg b.toNat r) } s

/-- R201, R204. -/
def execDivCalc (s : State) : Out :=
  start s fun s => need .effClk s.opr.effClk fun e => need .baud s.opr.baud fun b =>
    match divCalc e b with
    | some d => finish { divisor := some d } s
    | none => .refused .outsideDivisorDomain

/-- R202. -/
def execDivCompute (s : State) : Out :=
  start s fun s => need .baud s.opr.baud fun b =>
    computeDivisor b s fun d s => finish { divisor := some d } s

/-- R206. -/
def execDivSplit (s : State) : Out :=
  start s fun s => need .divisor s.opr.divisor fun d => finish { hi := some (divHi d), lo := some (divLo d) } s

/-- R207. -/
def execDivJoin (s : State) : Out :=
  start s fun s => need .hi s.opr.hi fun h => need .lo s.opr.lo fun l =>
    finish { divisor16 := some (divJoin h l) } s

end Sys2Proof.Machine
end

