-- ==== Sys2Proof/Machine/SeqControl.lean ====
section
/-! DEFINITION. SEQ.SETCTL, SEQ.GETCTL and SEQ.SETATTR (43_sequences.md, R310 to R323): one label a step. -/

namespace Sys2Proof.Machine

/-- R310: what SetControl does at each of its labels. The mask is validated at S0, before any access. -/
def setctlLabel (p : SetctlPos) (s : State) : Out :=
  match p with
  | .s0 => need .mask s.opr.mask fun mask =>
      if maskAccepted s.cfg.signals mask then goto (.setctl (.s1 mask)) s else raise .unsupported s
  | .s1 mask => devRead R_MCR s fun m s => goto (.setctl (.s2 (ctlMcr s.cfg.signals mask m))) s
  | .s2 m2 => devWrite R_MCR m2 s fun s => goto (.setctl .s3) s
  | .s3 => finish { st := some .success } s

/-- R310. -/
def execSeqSetctl (s : State) : Out :=
  match s.pos with
  | .setctl p => setctlLabel p s
  | _ => start s fun s => goto (.setctl .s0) s

/-- R315: what GetControl does at each of its labels. -/
def getctlLabel (p : GetctlPos) (s : State) : Out :=
  match p with
  | .g0 => devRead R_MSR s fun v s => goto (.getctl (.g1 v)) s
  | .g1 v => devRead R_MCR s fun c s => goto (.getctl (.g2 v c)) s
  | .g2 v c => devRead R_LSR s fun l s => goto (.getctl (.g3 v c l)) s
  | .g3 v c l => finish { st := some .success, mask := some (ctlGet s.cfg.signals s.cfg.hwFlow v c l) } s

/-- R315. -/
def execSeqGetctl (s : State) : Out :=
  match s.pos with
  | .getctl p => getctlLabel p s
  | _ => start s fun s => goto (.getctl .g0) s

/-- R320 to R322: what SetAttributes does at each of its labels. -/
def setattrLabel (p : SetattrPos) (s : State) : Out :=
  match p with
  | .a0 => need .req s.opr.req fun req =>
      if attrNeedsLive s.cfg req then devRead R_LCR s fun l s => goto (.setattr (.a1 req (some l))) s
      else goto (.setattr (.a1 req none)) s
  | .a1 req live =>
    match attrResolve s.cfg req live with
    | .resolved res l => goto (.setattr (.a2 res l (attrAllDefault req))) s
    | .invalid =>
      finish { st := some .invalidParameter, res := some (Config.freeAttr s.freeCount) } s.drawAttr
    | .noSource => .fault (.operandHoldsNoValue .liveLcr)
    | .outsideDomain => .refused .outsideDivisorDomain
  | .a2 res l allDefault =>
    if allDefault then finish { st := some .success, res := some res } s else goto (.setattr (.a3 res l)) s
  | .a3 res l => computeDivisor res.baud s fun d s => goto (.setattr (.a4 res l d)) s
  | .a4 res l d => latchOn s fun s => goto (.setattr (.a5 res l (divHi d) (divLo d))) s
  | .a5 res l hi lo => devWrite R_DLM hi s fun s => goto (.setattr (.a6 res l lo)) s
  | .a6 res l lo => devWrite R_DLL lo s fun s => goto (.setattr (.a7 res l)) s
  | .a7 res l => devWrite R_LCR l s fun s => goto (.setattr (.a8 res)) s
  | .a8 res => finish { st := some .success, res := some res } s

/-- R320. -/
def execSeqSetattr (s : State) : Out :=
  match s.pos with
  | .setattr p => setattrLabel p s
  | _ => start s fun s => goto (.setattr .a0) s

end Sys2Proof.Machine
end

