-- ==== Sys2Proof/Machine/SeqInit.lean ====
section
/-! DEFINITION. SEQ.INIT (43_sequences.md, R280 to R285): one label a step. -/

namespace Sys2Proof.Machine

/-- R281 to R283: what Initialize does at each of its labels. -/
def initLabel (p : InitPos) (s : State) : Out :=
  match p with
  | .i0 => computeDivisor s.cfg.defaultBaud s fun d s =>
      goto (.init (.i1 { tDiv := d, tLcr := s.cfg.lcr &&& 0x3F#8 })) s
  | .i1 t => devRead R_LCR s fun l0 s => goto (.init (.i2 t l0 (lcrMatch l0 s.cfg.lcr))) s
  | .i2 t l0 okL => devWrite R_LCR (l0 ||| 0x80#8) s fun s => goto (.init (.i3 t l0 okL)) s
  | .i3 t l0 okL => devRead R_DLM s fun hi s => goto (.init (.i4 t l0 okL hi)) s
  | .i4 t l0 okL hi => devRead R_DLL s fun lo s => goto (.init (.i5 t l0 okL hi lo)) s
  | .i5 t l0 okL hi lo => devWrite R_LCR (l0 &&& 0x7F#8) s fun s =>
      goto (.init (.i6 t okL (decide ((divJoin hi lo).toNat = t.tDiv.toNat)))) s
  | .i6 t okL okD => if okL && okD then finish { st := some .success } s else goto (.init (.i7 t)) s
  | .i7 t => devRead R_LSR s fun l s => goto (.init (if txEmpty l then .i8 t else .i7 t)) s
  | .i8 t => latchOn s fun s => goto (.init (.i9 t)) s
  | .i9 t => devWrite R_DLM (divHi t.tDiv) s fun s => goto (.init (.i10 t (divLo t.tDiv))) s
  | .i10 t lo => devWrite R_DLL lo s fun s => goto (.init (.i11 t)) s
  | .i11 t => devWrite R_LCR t.tLcr s fun s => goto (.init .i12) s
  | .i12 => devWrite R_FCR 0x00#8 s fun s => goto (.init .i13) s
  | .i13 => devWrite R_FCR (s.cfg.fcr &&& s.cfg.fcrInitMask) s fun s => goto (.init .i14) s
  | .i14 => devWrite R_IER 0x00#8 s fun s => goto (.init .i15) s
  | .i15 => devWrite R_MCR 0x00#8 s fun s => goto (.init .i16) s
  | .i16 => finish { st := some .success } s

/-- R280: started from Idle, Initialize stands at I0; from there each call performs one label. -/
def execSeqInit (s : State) : Out :=
  match s.pos with
  | .init p => initLabel p s
  | _ => start s fun s => goto (.init .i0) s

end Sys2Proof.Machine
end

