-- ==== Sys2Proof/Machine/SeqIo.lean ====
section
/-! DEFINITION. SEQ.WRITE, SEQ.READ and SEQ.POLL (43_sequences.md, R290 to R305): one label a step; a wait that has not
seen its status stays at its label (R397). -/

namespace Sys2Proof.Machine

/-- R290, R291: what Write does at each of its labels. -/
def writeLabel (p : WritePos) (s : State) : Out :=
  match p with
  | .w0 => devRead R_LSR s fun l s => goto (.write (if txEmpty l then .w1 else .w0)) s
  | .w1 => gateTx s fun w s => goto (.write (if w then .w2 else .w1)) s
  | .w2 => finish { count := some 0 } s
  | .w3 => need .buf s.opr.buf fun buf =>
      goto (.write (.w4 { n := buf.length, depth := (fifoDepth s.cfg.fcr s.cfg.extFifoSize).toNat, k := 0 } buf)) s
  | .w4 v rest => goto (.write (if rest = [] then .w9 v.n else .w5 v rest)) s
  | .w5 v rest => devRead R_LSR s fun l s =>
      goto (.write (if txEmpty l then .w6 { v with k := 0 } rest else .w5 v rest)) s
  | .w6 v rest =>
    match rest with
    | [] => goto (.write (.w4 v [])) s
    | b :: rest' => goto (.write (if v.k < v.depth then .w7 v b rest' else .w4 v (b :: rest'))) s
  | .w7 v b rest => gateTx s fun w s => goto (.write (if w then .w8 v b rest else .w7 v b rest)) s
  | .w8 v b rest => devWrite R_THR b s fun s => goto (.write (.w6 { v with k := v.k + 1 } rest)) s
  | .w9 n => finish { count := some n } s

/-- R290, R291: an empty buffer starts the flush at W0, any other the send at W3. -/
def execSeqWrite (s : State) : Out :=
  match s.pos with
  | .write p => writeLabel p s
  | _ => start s fun s => need .buf s.opr.buf fun buf => goto (.write (if buf = [] then .w0 else .w3)) s

/-- R300, R301: what Read does at each of its labels. -/
def readLabel (p : ReadPos) (s : State) : Out :=
  match p with
  | .rd0 => need .count s.opr.count fun n => devRead R_MCR s fun m s =>
      goto (.read (.rd1 { count := n, base := m &&& ~~~MCR_RTS, buf := [] })) s
  | .rd1 v => goto (.read (if v.buf.length < v.count then .rd2 v else .rd6 v)) s
  | .rd2 v => devRead R_LSR s fun l s => goto (.read (if rxReady l then .rd4 v else .rd3 v)) s
  | .rd3 v =>
    if s.cfg.hwFlow then devWrite R_MCR (pollRts v.base false) s fun s => goto (.read (.rd2 v)) s
    else goto (.read (.rd2 v)) s
  | .rd4 v =>
    if s.cfg.hwFlow then devWrite R_MCR (pollRts v.base true) s fun s => goto (.read (.rd5 v)) s
    else goto (.read (.rd5 v)) s
  | .rd5 v => devRead R_RBR s fun b s => goto (.read (.rd1 { v with buf := v.buf ++ [b] })) s
  | .rd6 v => finish { buf := some v.buf, countRead := some v.count } s

/-- R300. -/
def execSeqRead (s : State) : Out :=
  match s.pos with
  | .read p => readLabel p s
  | _ => start s fun s => goto (.read .rd0) s

/-- R305: what Poll does at each of its labels. -/
def pollLabel (p : PollPos) (s : State) : Out :=
  match p with
  | .p0 => devRead R_LSR s fun l s => goto (.poll (.p1 (rxReady l))) s
  | .p1 ready =>
    if s.cfg.hwFlow then devRead R_MCR s fun m s => goto (.poll (.p2 ready m)) s else goto (.poll (.p3 ready)) s
  | .p2 ready m => devWrite R_MCR (pollRts m ready) s fun s => goto (.poll (.p3 ready)) s
  | .p3 ready => finish { ready := some ready } s

/-- R305. -/
def execSeqPoll (s : State) : Out :=
  match s.pos with
  | .poll p => pollLabel p s
  | _ => start s fun s => goto (.poll .p0) s

end Sys2Proof.Machine
end

