-- ==== Sys2Proof/Machine/Dispatch.lean ====
section
/-! DEFINITION. One arm for each operation of R91. -/

namespace Sys2Proof.Machine

def exec (i : Instr) (s : State) : Host.Outcome State Fault Refusal :=
  match i with
  | .encData => Sys2Proof.Machine.execEncData s
  | .encPar => Sys2Proof.Machine.execEncPar s
  | .encStop => Sys2Proof.Machine.execEncStop s
  | .lcrPack => Sys2Proof.Machine.execLcrPack s
  | .lcrEnc => Sys2Proof.Machine.execLcrEnc s
  | .decData => Sys2Proof.Machine.execDecData s
  | .decPar => Sys2Proof.Machine.execDecPar s
  | .decStop => Sys2Proof.Machine.execDecStop s
  | .fifoDepth => Sys2Proof.Machine.execFifoDepth s
  | .lcrMatch => Sys2Proof.Machine.execLcrMatch s
  | .attrResolve => Sys2Proof.Machine.execAttrResolve s
  | .clkScale => Sys2Proof.Machine.execClkScale s
  | .divCalc => Sys2Proof.Machine.execDivCalc s
  | .divCompute => Sys2Proof.Machine.execDivCompute s
  | .divSplit => Sys2Proof.Machine.execDivSplit s
  | .divJoin => Sys2Proof.Machine.execDivJoin s
  | .gateTx => Sys2Proof.Machine.execGateTx s
  | .gateTxempty => Sys2Proof.Machine.execGateTxempty s
  | .gateRxready => Sys2Proof.Machine.execGateRxready s
  | .gatePollrts => Sys2Proof.Machine.execGatePollrts s
  | .ctlSet => Sys2Proof.Machine.execCtlSet s
  | .ctlGet => Sys2Proof.Machine.execCtlGet s
  | .seqInit => Sys2Proof.Machine.execSeqInit s
  | .seqWrite => Sys2Proof.Machine.execSeqWrite s
  | .seqRead => Sys2Proof.Machine.execSeqRead s
  | .seqPoll => Sys2Proof.Machine.execSeqPoll s
  | .seqSetctl => Sys2Proof.Machine.execSeqSetctl s
  | .seqGetctl => Sys2Proof.Machine.execSeqGetctl s
  | .seqSetattr => Sys2Proof.Machine.execSeqSetattr s

end Sys2Proof.Machine
end

