-- ==== Sys2Proof/Machine/Caller.lean ====
section
/-! DEFINITION. The caller's side of an operation (R93 to R95): fetching a line, loading operand registers from it,
binding results to names, and the pseudo-operations. -/

namespace Sys2Proof.Machine

/-- R94: the value a name is bound to. A name whose result held no value faults, as R21 has it for the result. So does
a name that no earlier line binds, of which no rule says what its use does (DESIGN CHOICE, log 27). -/
def lookupName (names : List (Ident × Value)) (x : Ident) (k : Value → Out) : Out :=
  match names.lookup x with
  | some v => k v
  | none => .fault (.nameHoldsNoValue x)

/-- R94: one value of a byte list or of a record. -/
def atomValue (names : List (Ident × Value)) (a : Atom) (k : Value → Out) : Out :=
  match a with
  | .lit v => k v
  | .bound x => lookupName names x k

/-- R92, R94: a value read as what operand register `r` needs there; one that does not fit is refused (log 18). -/
def typed {α : Type} (r : OperandName) (read : Value → Option α) (k : α → Out) (v : Value) : Out :=
  match read v with
  | some a => k a
  | none => .refused (.operandIllTyped r)

/-- R94: a byte list, its values from left to right. -/
def bytesValue (names : List (Ident × Value)) (r : OperandName) : List Atom → (List Byte → Out) → Out
  | [], k => k []
  | a :: l, k => atomValue names a (typed r (asNumber 8) fun b => bytesValue names r l fun bs => k (b :: bs))

/-- R22, R94: an ATTR record, its fields from left to right. -/
def attrValue (names : List (Ident × Value)) (r : OperandName) (baud dataBits parity stopBits rxFifoDepth timeout : Atom)
    (k : Attr → Out) : Out :=
  atomValue names baud (typed r (asNumber 32) fun b =>
  atomValue names dataBits (typed r (asNumber 8) fun d =>
  atomValue names parity (typed r asParity fun p =>
  atomValue names stopBits (typed r asStopBits fun s =>
  atomValue names rxFifoDepth (typed r (asNumber 32) fun f =>
  atomValue names timeout (typed r (asNumber 32) fun t =>
    k { baud := b, dataBits := d, parity := p, stopBits := s, rxFifoDepth := f, timeout := t }))))))

/-- R94: the value a line writes for operand register `r`. -/
def sourceValue (names : List (Ident × Value)) (r : OperandName) (src : Source) (k : Value → Out) : Out :=
  match src with
  | .lit v => k v
  | .bound x => lookupName names x k
  | .bytes l => bytesValue names r l fun bs => k (.bytes bs)
  | .attr baud dataBits parity stopBits rxFifoDepth timeout =>
    attrValue names r baud dataBits parity stopBits rxFifoDepth timeout fun a => k (.attr a)

/-- R21, R93, R94: the operand registers of a line, loaded in the order it gives them; the first value that is not to be
had decides how the line stops (log 24). -/
def loadArgs (names : List (Ident × Value)) : List (OperandName × Source) → Operands → (Operands → Out) → Out
  | [], o, k => k o
  | (r, src) :: args, o, k => sourceValue names r src (typed r (o.load r) fun o' => loadArgs names args o' k)

/-- R93: the results, in R92's order, go to the names the line gives them; a result that holds no value leaves its
name unbound (R21). A name bound again has the last binding alone, by a later line or later in one line (DESIGN CHOICE,
log 26). -/
def bindResults (res : Results) :
    List ResultName → List (Option Ident) → List (Ident × Value) → List (Ident × Value)
  | r :: rs, some x :: outs, names =>
    let others := names.filter (fun b => b.1 != x)
    match res.value r with
    | some v => bindResults res rs outs ((x, v) :: others)
    | none => bindResults res rs outs others
  | _ :: rs, none :: outs, names => bindResults res rs outs names
  | _, _, names => names

/-- R25, R93: when the operation has ended, its results are bound. -/
def deliver (i : Instr) (o : Out) : Out :=
  match o with
  | .next t =>
    if t.pos = .idle then .next { t with names := bindResults t.res i.results t.outs t.names, outs := [] } else .next t
  | .fault f => .fault f
  | .refused r => .refused r

/-- R21, R90, R93, R106: an operation line: its selector decoded, the line checked, its operand registers set, the
operation started. The operands come before the start's own checks, so a line that uses a name holding no value faults
even where the operation may not start (R6, R8, R10, R356; DESIGN CHOICE, log 24). -/
def issue (op : Byte) (args : List (OperandName × Source)) (outs : List (Option Ident)) (rest : List Line)
    (s : State) : Out :=
  match decode [op] with
  | .ok (i, _) =>
    if i.argsGiven args && i.outsFit outs then
      loadArgs s.names args {} fun o => deliver i (exec i { s with program := rest, opr := o, outs := outs })
    else .refused .lineIllFormed
  | .error _ => .refused (.selectorUnlisted op)

/-- R95: a wait's line is done when the predicate it evaluated holds; until then it stays. -/
def untilTrue (rest : List Line) (result : Results → Option Bool) (o : Out) : Out :=
  match o with
  | .next t => .next (if result t.res = some true then { t with program := rest } else t)
  | .fault f => .fault f
  | .refused r => .refused r

/-- R95: one round of a pseudo-operation's loop, or the whole of one without a loop. No name of an expansion (`l`, `e`,
`w`, `r`) is bound for later lines (DESIGN CHOICE, log 16), and LATCH.OFF, unlike an operation's line, may start before
it loads its operand (DESIGN CHOICE, log 24). -/
def pseudoStep (p : Pseudo) (rest : List Line) (s : State) : Out :=
  match p with
  | .waitTxempty => start s fun s => devRead R_LSR s fun l s =>
      untilTrue rest (·.empty) (execGateTxempty { s with opr := { lsr := some l } })
  | .waitWritable => untilTrue rest (·.writable) (execGateTx s)
  | .waitRxready => start s fun s => devRead R_LSR s fun l s =>
      untilTrue rest (·.ready) (execGateRxready { s with opr := { lsr := some l } })
  | .latchOn => start s fun s => latchOn s fun s => .next { s with program := rest }
  | .latchOff src => start s fun s => loadArgs s.names [(.lcr, src)] {} fun o => need .lcr o.lcr fun v =>
      latchOff v s fun s => .next { s with program := rest }

/-- The value `State.withFetchWord` gives an operand register: zero of its type, but a baud rate in the calculator's
domain (log 9). -/
def placedValue : OperandName → Value
  | .parity => .parity .default
  | .stopBits => .stopBits .default
  | .req => .attr { baud := 0#32, dataBits := 0#8, parity := .default, stopBits := .default,
                    rxFifoDepth := 0#32, timeout := 0#32 }
  | .ready => .bool false
  | .buf => .bytes []
  | .baud => .num 115200
  | .dataBits | .dataCode | .stopCode | .parCode | .lcr | .fcr | .extFifoSize | .a | .b | .liveLcr | .base | .divReg
  | .effClk | .divisor | .hi | .lo | .lsr | .mcr | .mask | .msr | .count => .num 0

/-- The line `State.withFetchWord` places: the selector with every operand of its operation given and its results
discarded. -/
def placedLine (op : Byte) : Line :=
  match decode [op] with
  | .ok (i, _) => .op none op ((i.operands ++ i.optionalOperands).map (fun r => (r, .lit (placedValue r))))
      (i.results.map (fun _ => none))
  | .error _ => .op none op [] []

end Sys2Proof.Machine
end

