-- ==== Sys2Proof/Machine/Step.lean ====
section
/-! DEFINITION. One step of the machine: a label of the operation in progress, or the start of the caller's next
line. -/

namespace Sys2Proof.Machine

/-- R7, R8, R25, R382: an operation in progress performs its next label; at Idle the caller's next line starts; with no
line to start, the block waits. -/
def step (s : State) : Host.Outcome State Fault Refusal :=
  match s.pos.inProgress with
  | some i => deliver i (exec i s)
  | none =>
    match s.program with
    | [] => .next s
    | .op _ op args outs :: rest => issue op args outs rest s
    | .pseudo _ p :: rest => pseudoStep p rest s

/-- The state in which the next step starts the operation whose selector is `w`: the platform has resolved the variant
(R383), nothing is in progress, and the caller's next line is that operation (log 9). -/
def State.withFetchWord (s : State) (nbits w : Nat) : State :=
  { s with variant := .miniUart16550, pos := .idle,
           program := placedLine (BitVec.ofNat 8 (w % 2 ^ nbits)) :: s.program }

end Sys2Proof.Machine
end

