-- ==== Sys2Proof/Safety.lean ====
section
/-! DEFINITION. What claims are written with: a state that may start an operation, an operation run to its end, a legal
event, and the invariants of the machine. -/

namespace Sys2Proof.Machine

/-- R6, R8, R10, R383: an operation may start. -/
abbrev State.Ready (s : State) : Prop := s.pos = .idle ∧ s.cfg.wf = true ∧ s.variant = .miniUart16550

/-- The operation in progress carried on until Idle, for at most this many labels. -/
def continueOp (i : Instr) : Nat → State → Out
  | 0, s => .next s
  | n + 1, s =>
    if s.pos = .idle then .next s
    else
      match exec i s with
      | .next t => continueOp i n t
      | .fault f => .fault f
      | .refused r => .refused r

/-- One whole call of an operation: its start and at most `n` labels after it, ending at Idle when it ends sooner. -/
def callOp (i : Instr) (n : Nat) (s : State) : Out :=
  match exec i s with
  | .next t => continueOp i n t
  | .fault f => .fault f
  | .refused r => .refused r

/-- R60 to R63, R30, R42: an access the block can make: one byte at a register it uses, or the one 32-bit read of the
clock-divider register. -/
def Event.Legal (c : Cfg) (e : Event) : Prop :=
  (e.kind = .read ∧ e.width = 4 ∧ e.address = c.clkDivAddr ∧ e.value < 2 ^ 32)
  ∨ (e.kind = .read ∧ e.width = 1 ∧ e.value < 2 ^ 8
      ∧ ∃ r ∈ [Slot.rbrThrDll, .ierDlm, .lcr, .mcr, .lsr, .msr], e.address = c.addr r)
  ∨ (e.kind = .write ∧ e.width = 1 ∧ e.value < 2 ^ 8
      ∧ ∃ r ∈ [Slot.rbrThrDll, .ierDlm, .iirFcr, .lcr, .mcr], e.address = c.addr r)

/-- R61: every access of the history is legal. -/
def State.EventsLegal (s : State) : Prop := ∀ e ∈ s.events, e.Legal s.cfg

/-- R21: while an operation is in progress no result register holds a value. -/
def State.ResultsUnwritten (s : State) : Prop := s.pos ≠ .idle → s.res = {}

/-- R20, R22, R380: at Idle no operand register holds a value (log 25). -/
def State.OperandsUnwritten (s : State) : Prop := s.pos = .idle → s.opr = {}

/-- R351, U18: no operation has returned DeviceError. -/
def State.NoDeviceError (s : State) : Prop := s.res.st ≠ some .deviceError

/-- R247: when a Read with flow control is about to read RBR, the last access was the RTS-deasserting MCR write. -/
def State.RtsBracketed (s : State) : Prop :=
  ∀ v, s.pos = .read (.rd5 v) → s.cfg.hwFlow = true →
    s.events.getLast? = some (writeEvent s.cfg R_MCR (v.base &&& 0xFD#8))

/-- R206, R391: at every label between a latch-enable and its latch-disable LCR holds DLAB = 1, and at every label of
the protocols after one LCR holds DLAB = 0. -/
def State.LatchKept (s : State) : Prop :=
  match s.pos with
  | .init (.i1 t) => t.tLcr = s.cfg.lcr &&& 0x3F#8
  | .init (.i2 t _ _) => t.tLcr = s.cfg.lcr &&& 0x3F#8
  | .init (.i3 t l0 _) => t.tLcr = s.cfg.lcr &&& 0x3F#8 ∧ s.uart.lcr = .holds (l0 ||| 0x80#8)
  | .init (.i4 t l0 _ _) => t.tLcr = s.cfg.lcr &&& 0x3F#8 ∧ s.uart.lcr = .holds (l0 ||| 0x80#8)
  | .init (.i5 t l0 _ _ _) => t.tLcr = s.cfg.lcr &&& 0x3F#8 ∧ s.uart.lcr = .holds (l0 ||| 0x80#8)
  | .init (.i6 t _ _) => t.tLcr = s.cfg.lcr &&& 0x3F#8 ∧ ∃ v, s.uart.lcr = .holds v ∧ bit v 7 = false
  | .init (.i7 t) => t.tLcr = s.cfg.lcr &&& 0x3F#8 ∧ ∃ v, s.uart.lcr = .holds v ∧ bit v 7 = false
  | .init (.i8 t) => t.tLcr = s.cfg.lcr &&& 0x3F#8 ∧ ∃ v, s.uart.lcr = .holds v ∧ bit v 7 = false
  | .init (.i9 t) => t.tLcr = s.cfg.lcr &&& 0x3F#8 ∧ s.uart.lcr = .holds 0x80#8
  | .init (.i10 t _) => t.tLcr = s.cfg.lcr &&& 0x3F#8 ∧ s.uart.lcr = .holds 0x80#8
  | .init (.i11 t) => t.tLcr = s.cfg.lcr &&& 0x3F#8 ∧ s.uart.lcr = .holds 0x80#8
  | .init .i12 => s.uart.lcr = .holds (s.cfg.lcr &&& 0x3F#8)
  | .init .i13 => s.uart.lcr = .holds (s.cfg.lcr &&& 0x3F#8)
  | .init .i14 => s.uart.lcr = .holds (s.cfg.lcr &&& 0x3F#8)
  | .init .i15 => s.uart.lcr = .holds (s.cfg.lcr &&& 0x3F#8)
  | .init .i16 => s.uart.lcr = .holds (s.cfg.lcr &&& 0x3F#8)
  | .setattr (.a2 _ l _) => l &&& 0xC0#8 = 0#8
  | .setattr (.a3 _ l) => l &&& 0xC0#8 = 0#8
  | .setattr (.a4 _ l _) => l &&& 0xC0#8 = 0#8
  | .setattr (.a5 _ l _ _) => l &&& 0xC0#8 = 0#8 ∧ s.uart.lcr = .holds 0x80#8
  | .setattr (.a6 _ l _) => l &&& 0xC0#8 = 0#8 ∧ s.uart.lcr = .holds 0x80#8
  | .setattr (.a7 _ l) => l &&& 0xC0#8 = 0#8 ∧ s.uart.lcr = .holds 0x80#8
  | .setattr (.a8 _) => ∃ v, s.uart.lcr = .holds v ∧ v &&& 0xC0#8 = 0#8
  | _ => True

/-- R300: a Read has at most the requested bytes, and fewer at every label that fetches one. -/
def State.ReadCounted (s : State) : Prop :=
  match s.pos with
  | .read (.rd1 v) => v.buf.length ≤ v.count
  | .read (.rd2 v) => v.buf.length < v.count
  | .read (.rd3 v) => v.buf.length < v.count
  | .read (.rd4 v) => v.buf.length < v.count
  | .read (.rd5 v) => v.buf.length < v.count
  | .read (.rd6 v) => v.buf.length = v.count
  | _ => True

/-- R32: a place of the register file reads back the last byte written to it, and two reads in a row read the same. -/
def State.ReadsBack (s : State) (r : Slot) (n : StoredName) : Prop :=
  (∀ (v : Byte) (k : Byte → State → Out), devWrite r v s (fun t => devRead r t k) =
    k v { s with uart := s.uart.put n v, events := s.events ++ [writeEvent s.cfg r v, readEvent s.cfg r v] })
  ∧ (∀ k : Byte → Byte → State → Out, devRead r s (fun a t => devRead r t (fun b u => k a b u)) =
    k (s.stored n) (s.stored n)
      { s.settle n with events := s.events ++ [readEvent s.cfg r (s.stored n), readEvent s.cfg r (s.stored n)] })

/-- R200: the effective clock the calculator finds in this state: the configured rate, scaled by the clock-divider value
the next read draws. -/
def State.effectiveClock (s : State) : Nat :=
  if (s.drawnClkDiv &&& s.cfg.clkDivMask).toNat = 0 then s.cfg.clockRate
  else s.cfg.clockRate * s.cfg.clkMult * 2 ^ s.cfg.fracBits / (s.drawnClkDiv &&& s.cfg.clkDivMask).toNat

/-- R204: outside the calculator's domain, for an effective clock and a baud rate. -/
def OutsideDomain (effClk baud : Nat) : Prop :=
  baud = 0 ∨ 16 * baud > 2 ^ 32 - 1 ∨ (effClk + 8 * baud) / (16 * baud) > 2 ^ 32 - 1

/-- R152 steps 2 to 4: every line setting of the request resolves, given `live` for the live LCR: an explicit one is
valid, and one asked for as a default can be decoded from the default source. -/
def LineSettingsResolve (c : Cfg) (req : Attr) (live : Option Byte) : Prop :=
  (req.dataBits ≠ 0#8 → 5 ≤ req.dataBits.toNat ∧ req.dataBits.toNat ≤ 8)
  ∧ (req.dataBits = 0#8 ∨ req.parity = .default ∨ req.stopBits = .default →
      ∃ l, (if c.defaultSource = .liveLcr then live else some c.lcr) = some l
        ∧ (req.parity = .default → l.toNat / 8 % 8 ∈ [0, 1, 3, 5, 7]))

/-- R96: the parity code table, as the spec writes it. -/
def parityTable : List (Parity × BitVec 3) :=
  [(.none, 0#3), (.odd, 1#3), (.even, 3#3), (.mark, 5#3), (.space, 7#3)]

/-- R98: the stop-bits code table, as the spec writes it. -/
def stopTable : List (StopBits × BitVec 1) := [(.one, 0#1), (.oneAndHalf, 1#1), (.two, 1#1)]

/-- R92: what an operand register holds, as a program writes it, if it holds a value. -/
def Operands.value (o : Operands) : OperandName → Option Value
  | .dataBits => o.dataBits.map (fun x => .num x.toNat)
  | .parity => o.parity.map .parity
  | .stopBits => o.stopBits.map .stopBits
  | .dataCode => o.dataCode.map (fun x => .num x.toNat)
  | .stopCode => o.stopCode.map (fun x => .num x.toNat)
  | .parCode => o.parCode.map (fun x => .num x.toNat)
  | .lcr => o.lcr.map (fun x => .num x.toNat)
  | .fcr => o.fcr.map (fun x => .num x.toNat)
  | .extFifoSize => o.extFifoSize.map (fun x => .num x.toNat)
  | .a => o.a.map (fun x => .num x.toNat)
  | .b => o.b.map (fun x => .num x.toNat)
  | .req => o.req.map .attr
  | .liveLcr => o.liveLcr.map (fun x => .num x.toNat)
  | .base => o.base.map (fun x => .num x.toNat)
  | .divReg => o.divReg.map (fun x => .num x.toNat)
  | .effClk => o.effClk.map .num
  | .baud => o.baud.map (fun x => .num x.toNat)
  | .divisor => o.divisor.map (fun x => .num x.toNat)
  | .hi => o.hi.map (fun x => .num x.toNat)
  | .lo => o.lo.map (fun x => .num x.toNat)
  | .lsr => o.lsr.map (fun x => .num x.toNat)
  | .mcr => o.mcr.map (fun x => .num x.toNat)
  | .ready => o.ready.map .bool
  | .mask => o.mask.map (fun x => .num x.toNat)
  | .msr => o.msr.map (fun x => .num x.toNat)
  | .buf => o.buf.map .bytes
  | .count => o.count.map .num

/-- R92: whether an operand register holds a value. -/
def Operands.has (o : Operands) (r : OperandName) : Bool := (o.value r).isSome

/-- R94: the value a program writes, with these names bound. -/
def AtomMeans (names : List (Ident × Value)) (a : Atom) (v : Value) : Prop :=
  match a with
  | .lit w => v = w
  | .bound x => names.lookup x = some v

/-- R94: the value a line writes for an operand, with these names bound: a literal is itself, a name what it is bound
to, a list the bytes its values are, a record the ATTR whose fields its values are. -/
def SourceMeans (names : List (Ident × Value)) (src : Source) (v : Value) : Prop :=
  match src with
  | .lit w => v = w
  | .bound x => names.lookup x = some v
  | .bytes l => ∃ bs : List Byte, v = .bytes bs ∧ List.Forall₂ (fun a b => AtomMeans names a (.num b.toNat)) l bs
  | .attr baud dataBits parity stopBits rxFifoDepth timeout =>
    ∃ a : Attr, v = .attr a ∧ AtomMeans names baud (.num a.baud.toNat) ∧ AtomMeans names dataBits (.num a.dataBits.toNat)
      ∧ AtomMeans names parity (.parity a.parity) ∧ AtomMeans names stopBits (.stopBits a.stopBits)
      ∧ AtomMeans names rxFifoDepth (.num a.rxFifoDepth.toNat) ∧ AtomMeans names timeout (.num a.timeout.toNat)

/-- R94: the value written for operand register `r` can stand in it. -/
def FitsRegister (names : List (Ident × Value)) (r : OperandName) (src : Source) : Prop :=
  ∃ (v : Value) (o : Operands), SourceMeans names src v ∧ o.value r = some v

/-- The names one value of a list or a record uses. -/
def atomNames : Atom → List Ident
  | .lit _ => []
  | .bound x => [x]

/-- R94: the names an operand uses. -/
def sourceNames : Source → List Ident
  | .lit _ => []
  | .bound x => [x]
  | .bytes l => l.flatMap atomNames
  | .attr baud dataBits parity stopBits rxFifoDepth timeout =>
    [baud, dataBits, parity, stopBits, rxFifoDepth, timeout].flatMap atomNames

/-- R25, R93: the state `u` a step leaves when the operation leaves `t`. Inside the operation it is the same state. When
the operation has ended, each name the line gives a result is bound to it, in R92's order, and to nothing where the
result holds no value; of two results given one name it is the later (log 26); every other name is as before. -/
def Delivered (i : Instr) (t u : State) : Prop :=
  (t.pos ≠ .idle → u = t)
  ∧ (t.pos = .idle → u = { t with names := u.names, outs := [] }
    ∧ (∀ (k : Nat) (r : ResultName) (x : Ident), (i.results.zip t.outs)[k]? = some (r, some x) →
        (∀ (j : Nat) (q : ResultName), k < j → (i.results.zip t.outs)[j]? ≠ some (q, some x)) →
        u.names.lookup x = t.res.value r)
    ∧ (∀ x : Ident, (∀ r : ResultName, (r, some x) ∉ i.results.zip t.outs) → u.names.lookup x = t.names.lookup x))

/-- A step answers with what the operation answers: its state with the results delivered, or its stop. -/
def RunsAs (i : Instr) (ofExec ofStep : Out) : Prop :=
  match ofExec with
  | .next t => ∃ u, ofStep = .next u ∧ Delivered i t u
  | .fault f => ofStep = .fault f
  | .refused r => ofStep = .refused r

/-- R10 (a) to (d) and R65: a configuration that breaks one of them. -/
def BreaksSpecChecks (c : Cfg) : Prop :=
  c.defaultBaud.toNat = 0 ∨ 16 * c.defaultBaud.toNat > 2 ^ 32 - 1
  ∨ c.stride = 0
  ∨ (∃ off < 8, c.uartBase + off * c.stride ≥ 2 ^ c.addrWidth)
  ∨ c.clockRate ≥ 2 ^ 32
  ∨ c.clkDivAddr % 4 ≠ 0

/-- DESIGN CHOICE (log 7, log 15): a configuration that breaks a check of the model's own. -/
def BreaksModelChecks (c : Cfg) : Prop :=
  c.clkDivAddr ≥ 2 ^ c.addrWidth
  ∨ (∃ r : Slot, c.uartBase + c.offsets.at r * c.stride ≥ 2 ^ c.addrWidth)
  ∨ (∃ r q : Slot, r ≠ q ∧ c.offsets.at r = c.offsets.at q)

/-- The values written to one register by a list of events, oldest first. -/
def writtenTo (c : Cfg) (r : Slot) (es : List Event) : List Nat :=
  (es.filter (fun e => decide (e.kind = .write ∧ e.address = c.addr r))).map (·.value)

end Sys2Proof.Machine
end

