-- ==== Sys2Proof/Certificates/Slice0/Obligations.lean ====
section
/-! DEFINITION. The statements about the machine, for the provers. A statement whose conclusion is `… = .next t` gives
the whole next state `t`, so it is also the frame: whatever `t` does not change is unchanged. Where an operation ends its
operand registers end with it, ATTR's by R22, the others by the model's reading of R20 (log 25, DEDUCED). -/

open Sys2Proof Sys2Proof.Machine

/-! ### Codec -/

/-- R140: the data-bits encoder, for every operand value. -/
def Obligations.EncDataCodesFiveToEight : Prop :=
  decodeSelector 0x01#8 = .ok .encData ∧
  ∀ (s : State) (d : Byte), s.Ready → s.opr.dataBits = some d →
    exec .encData s = .next { s with opr := {}, res :=
      if 5 ≤ d.toNat ∧ d.toNat ≤ 8 then { st := some .success, dataCode := some (BitVec.ofNat 2 (d.toNat - 5)) }
      else { st := some .invalidParameter } }

/-- R141, R142: the parity and the stop-bits encoder follow the tables of R96 and R98, and each rejects Default; an
interface's number outside R130's list is no Parity. -/
def Obligations.EncParAndEncStopFollowTables : Prop :=
  decodeSelector 0x02#8 = .ok .encPar ∧ decodeSelector 0x03#8 = .ok .encStop ∧
  (∀ (s : State) (p : Parity), s.Ready → s.opr.parity = some p →
    (∀ c, (p, c) ∈ parityTable →
      exec .encPar s = .next { s with opr := {}, res := { st := some .success, parCode := some c } })
    ∧ (p = .default → exec .encPar s = .next { s with opr := {}, res := { st := some .invalidParameter } }))
  ∧ (∀ (s : State) (b : StopBits), s.Ready → s.opr.stopBits = some b →
    (∀ c, (b, c) ∈ stopTable →
      exec .encStop s = .next { s with opr := {}, res := { st := some .success, stopCode := some c } })
    ∧ (b = .default → exec .encStop s = .next { s with opr := {}, res := { st := some .invalidParameter } }))
  ∧ (∀ n, parityOfNumber n = none ↔ 5 < n)

/-- R143, in R99's layout: two zero bits, the parity code, the stop code, the data code. -/
def Obligations.LcrPackLaysOutCodes : Prop :=
  decodeSelector 0x04#8 = .ok .lcrPack ∧
  ∀ (s : State) (dc : BitVec 2) (sc : BitVec 1) (pc : BitVec 3), s.Ready →
    s.opr.dataCode = some dc → s.opr.stopCode = some sc → s.opr.parCode = some pc →
    exec .lcrPack s = .next { s with opr := {}, res := { lcr := some (0#2 ++ pc ++ sc ++ dc) } }

/-- R144: valid settings are packed; a failure of any encoder is InvalidParameter with no other result. -/
def Obligations.LcrEncValidatesThenPacks : Prop :=
  decodeSelector 0x05#8 = .ok .lcrEnc ∧
  ∀ (s : State) (d : Byte) (p : Parity) (b : StopBits), s.Ready →
    s.opr.dataBits = some d → s.opr.parity = some p → s.opr.stopBits = some b →
    (∀ pc sc, 5 ≤ d.toNat → d.toNat ≤ 8 → (p, pc) ∈ parityTable → (b, sc) ∈ stopTable →
      exec .lcrEnc s = .next { s with opr := {}, res :=
        { st := some .success, lcr := some (0#2 ++ pc ++ sc ++ BitVec.ofNat 2 (d.toNat - 5)) } })
    ∧ (¬ (5 ≤ d.toNat ∧ d.toNat ≤ 8) ∨ p = .default ∨ b = .default →
      exec .lcrEnc s = .next { s with opr := {}, res := { st := some .invalidParameter } })

/-- R146: the parity decoder inverts R96's table, and the codes 2, 4 and 6 are undecodable. -/
def Obligations.DecParInvertsTable : Prop :=
  decodeSelector 0x07#8 = .ok .decPar ∧
  ∀ (s : State) (l : Byte), s.Ready → s.opr.lcr = some l →
    (∀ p, (p, l.extractLsb' 3 3) ∈ parityTable →
      exec .decPar s = .next { s with opr := {}, res := { st := some .success, parity := some p } })
    ∧ (l.toNat / 8 % 8 ∈ [2, 4, 6] → exec .decPar s = .next { s with opr := {}, res := { st := some .invalidParameter } })

/-- R145; R147: the stop bits by the data-bits operand, not by the byte's own count. -/
def Obligations.DecDataAndDecStop : Prop :=
  decodeSelector 0x06#8 = .ok .decData ∧ decodeSelector 0x08#8 = .ok .decStop ∧
  (∀ (s : State) (l : Byte), s.Ready → s.opr.lcr = some l →
    exec .decData s = .next { s with opr := {}, res := { dataBits := some (BitVec.ofNat 8 (l.toNat % 4 + 5)) } })
  ∧ (∀ (s : State) (l d : Byte), s.Ready → s.opr.lcr = some l → s.opr.dataBits = some d →
    exec .decStop s = .next { s with opr := {}, res := { stopBits := some (
      if l.getLsbD 2 = false then .one else if d.toNat = 5 then .oneAndHalf else .two) } })

/-- R150: the depth, and a Write's use of it on the configuration. -/
def Obligations.FifoDepthFromControlByte : Prop :=
  decodeSelector 0x09#8 = .ok .fifoDepth ∧
  (∀ (s : State) (f : Byte) (n : U32), s.Ready → s.opr.fcr = some f → s.opr.extFifoSize = some n →
    exec .fifoDepth s = .next { s with opr := {}, res := { depth := some (
      if f.getLsbD 0 = false then 1#32 else if f.getLsbD 5 = false then 16#32 else n) } })
  ∧ (∀ (s : State) (buf : List Byte), s.pos = .write .w3 → s.opr.buf = some buf →
    exec .seqWrite s = .next { s with pos := .write (.w4
      { n := buf.length
        depth := (if s.cfg.fcr.getLsbD 0 = false then 1#32
          else if s.cfg.fcr.getLsbD 5 = false then 16#32 else s.cfg.extFifoSize).toNat
        k := 0 } buf) })

/-- R151: the two bytes agree on bits 5 to 0. -/
def Obligations.LcrMatchComparesSixBits : Prop :=
  decodeSelector 0x0A#8 = .ok .lcrMatch ∧
  ∀ (s : State) (a b : Byte), s.Ready → s.opr.a = some a → s.opr.b = some b →
    exec .lcrMatch s = .next { s with opr := {}, res := { eq := some (decide (a.toNat % 64 = b.toNat % 64)) } }

/-- R152 to R155: a request whose fields all resolve. `d`, `p` and `b` are the resolved settings: explicit and valid,
or decoded from the default source where the request asks for the default. -/
def Obligations.AttrResolveResolvesRequest : Prop :=
  ∀ (s : State) (req : Attr) (d : Byte) (p : Parity) (b : StopBits) (pc : BitVec 3) (sc : BitVec 1) (baud : U32)
    (src : Option Byte), s.Ready → s.opr.req = some req →
    src = (if s.cfg.defaultSource = .liveLcr then s.opr.liveLcr else some s.cfg.lcr) →
    (if req.dataBits = 0#8 then ∃ l, src = some l ∧ d = BitVec.ofNat 8 (l.toNat % 4 + 5)
      else d = req.dataBits ∧ 5 ≤ d.toNat ∧ d.toNat ≤ 8) →
    (if req.parity = .default then ∃ l, src = some l ∧ (p, l.extractLsb' 3 3) ∈ parityTable else p = req.parity) →
    (if req.stopBits = .default
      then ∃ l, src = some l
        ∧ b = (if l.getLsbD 2 = false then .one else if d.toNat = 5 then .oneAndHalf else .two)
      else b = req.stopBits) →
    (p, pc) ∈ parityTable → (b, sc) ∈ stopTable →
    baud = (if req.baud = 0#32 then s.cfg.defaultBaud else req.baud) → 16 * baud.toNat ≤ 2 ^ 32 - 1 →
    exec .attrResolve s = .next { s with opr := {}, res :=
      { st := some .success
        res := some { req with baud := baud, dataBits := d, parity := p, stopBits := b }
        lcr := some (0#2 ++ pc ++ sc ++ BitVec.ofNat 2 (d.toNat - 5))
        allDefault := some (decide (req.baud = 0#32 ∧ req.dataBits = 0#8 ∧ req.parity = .default
          ∧ req.stopBits = .default)) } }

/-- R156: a request with explicit data bits outside 5 to 8, or a default parity over an undecodable code, fails. The
record is some value of its type, whatever it is; `lcr` holds none. `freeCount` is the model's own (log 2). -/
def Obligations.AttrResolveFailureLeavesFreeRecord : Prop :=
  ∀ (s : State) (req : Attr), s.Ready → s.opr.req = some req →
    ((req.dataBits ≠ 0#8 ∧ ¬ (5 ≤ req.dataBits.toNat ∧ req.dataBits.toNat ≤ 8))
      ∨ ((req.dataBits = 0#8 ∨ (5 ≤ req.dataBits.toNat ∧ req.dataBits.toNat ≤ 8)) ∧ req.parity = .default
        ∧ ∃ l, (if s.cfg.defaultSource = .liveLcr then s.opr.liveLcr else some s.cfg.lcr) = some l
          ∧ l.toNat / 8 % 8 ∈ [2, 4, 6])) →
    ∃ (a : Attr) (n : Nat), exec .attrResolve s = .next { s with
      freeCount := n
      opr := {}
      res := { st := some .invalidParameter, res := some a,
               allDefault := some (decide (req.baud = 0#32 ∧ req.dataBits = 0#8 ∧ req.parity = .default
                 ∧ req.stopBits = .default)) } }

/-- R148 (a) and (b): the round trip of the functions the codec's operations answer with. -/
def Obligations.CodecRoundTrip : Prop :=
  (∀ (d : Byte) (p : Parity) (b : StopBits) (l : Byte), lcrEnc d p b = some l →
    decData l = d ∧ decPar l = some p
    ∧ (b = .one ∨ (b = .oneAndHalf ∧ d.toNat = 5) ∨ (b = .two ∧ d.toNat ≠ 5) → decStop l d = b)
    ∧ (b = .oneAndHalf → d.toNat ≠ 5 → decStop l d = .two) ∧ (b = .two → d.toNat = 5 → decStop l d = .oneAndHalf))
  ∧ (∀ (d : Byte) (p : Parity) (b : StopBits), 5 ≤ d.toNat → d.toNat ≤ 8 → p ≠ .default → b ≠ .default →
    (lcrEnc d p b).isSome)
  ∧ (∀ (l : Byte) (p : Parity), decPar l = some p →
    lcrEnc (decData l) p (decStop l (decData l)) = some (l &&& 0x3F#8))

/-! ### Divisor -/

/-- R200, with the parameters CLK_MULT, FRAC_BITS and CLKDIV_MASK of R9. -/
def Obligations.ClkScaleDividesByFixedPoint : Prop :=
  decodeSelector 0x10#8 = .ok .clkScale ∧
  ∀ (s : State) (b r : U32), s.Ready → s.opr.base = some b → s.opr.divReg = some r →
    exec .clkScale s = .next { s with opr := {}, res := { effClk := some (
      if (r &&& s.cfg.clkDivMask).toNat = 0 then b.toNat
        else b.toNat * s.cfg.clkMult * 2 ^ s.cfg.fracBits / (r &&& s.cfg.clkDivMask).toNat) } }

/-- R201, R203: in the domain the divisor is the quotient rounded to nearest, ties up. -/
def Obligations.DivCalcRoundsToNearest : Prop :=
  ∀ (s : State) (e : Nat) (b : U32), s.Ready → s.opr.effClk = some e → s.opr.baud = some b →
    1 ≤ b.toNat → 16 * b.toNat ≤ 2 ^ 32 - 1 → (e + 8 * b.toNat) / (16 * b.toNat) ≤ 2 ^ 32 - 1 →
    exec .divCalc s = .next { s with opr := {}, res :=
      { divisor := some (BitVec.ofNat 32 ((e + 8 * b.toNat) / (16 * b.toNat))) } }

/-- R204: outside the domain DIV.CALC and DIV.COMPUTE are refused. R152 step 5: so is ATTR.RESOLVE, and SEQ.SETATTR at
A1 with it, where every line setting resolves and sixteen times the resolved baud rate is above 2^32 - 1. SEQ.INIT at I0
(R281) and SEQ.SETATTR at A3 (R320) run DIV.COMPUTE and are refused with it; that R204's refusal is the whole step's
there is the model's reading (log 17, DEDUCED). -/
def Obligations.CalculatorRefusesOutsideDomain : Prop :=
  (∀ (s : State) (e : Nat) (b : U32), s.Ready → s.opr.effClk = some e → s.opr.baud = some b →
    OutsideDomain e b.toNat → exec .divCalc s = .refused .outsideDivisorDomain)
  ∧ (∀ (s : State) (b : U32), s.Ready → s.opr.baud = some b → OutsideDomain s.effectiveClock b.toNat →
    exec .divCompute s = .refused .outsideDivisorDomain)
  ∧ (∀ (s : State) (req : Attr), s.Ready → s.opr.req = some req → LineSettingsResolve s.cfg req s.opr.liveLcr →
    16 * (if req.baud = 0#32 then s.cfg.defaultBaud else req.baud).toNat > 2 ^ 32 - 1 →
    exec .attrResolve s = .refused .outsideDivisorDomain)
  ∧ (∀ (s : State) (req : Attr) (live : Option Byte), s.pos = .setattr (.a1 req live) →
    LineSettingsResolve s.cfg req live →
    16 * (if req.baud = 0#32 then s.cfg.defaultBaud else req.baud).toNat > 2 ^ 32 - 1 →
    exec .seqSetattr s = .refused .outsideDivisorDomain)
  ∧ (∀ (s : State) (res : Attr) (l : Byte), s.pos = .setattr (.a3 res l) →
    OutsideDomain s.effectiveClock res.baud.toNat → exec .seqSetattr s = .refused .outsideDivisorDomain)
  ∧ (∀ s : State, s.pos = .init .i0 → OutsideDomain s.effectiveClock s.cfg.defaultBaud.toNat →
    exec .seqInit s = .refused .outsideDivisorDomain)

/-- R202: one clock-divider read, its value scaled and rounded. -/
def Obligations.DivComputeReadsDividerOnce : Prop :=
  decodeSelector 0x12#8 = .ok .divCompute ∧
  ∀ (s : State) (b : U32) (e : Nat), s.Ready → s.opr.baud = some b →
    e = (if (s.drawnClkDiv &&& s.cfg.clkDivMask).toNat = 0 then s.cfg.clockRate
      else s.cfg.clockRate * s.cfg.clkMult * 2 ^ s.cfg.fracBits / (s.drawnClkDiv &&& s.cfg.clkDivMask).toNat) →
    1 ≤ b.toNat → 16 * b.toNat ≤ 2 ^ 32 - 1 → (e + 8 * b.toNat) / (16 * b.toNat) ≤ 2 ^ 32 - 1 →
    exec .divCompute s = .next { s.drawClkDiv with
      events := s.events ++ [{ kind := .read, address := s.cfg.clkDivAddr, width := 4, value := s.drawnClkDiv.toNat }]
      opr := {}, res := { divisor := some (BitVec.ofNat 32 ((e + 8 * b.toNat) / (16 * b.toNat))) } }

/-- R206, R207: the divisor's bytes, and their join. R205, R101: the bytes joined are the divisor modulo 65536. -/
def Obligations.DivisorSplitsAndJoins : Prop :=
  (∀ (s : State) (d : U32), s.Ready → s.opr.divisor = some d →
    exec .divSplit s = .next { s with opr := {}, res :=
      { hi := some (BitVec.ofNat 8 (d.toNat / 256)), lo := some (BitVec.ofNat 8 d.toNat) } })
  ∧ (∀ (s : State) (h l : Byte), s.Ready → s.opr.hi = some h → s.opr.lo = some l →
    exec .divJoin s = .next { s with opr := {}, res := { divisor16 := some (BitVec.ofNat 16 (h.toNat * 256 + l.toNat)) } })
  ∧ (∀ (d : U32), (divJoin (divHi d) (divLo d)).toNat = d.toNat % 65536)

/-! ### Gate -/

/-- R240, R241: one MSR read if and only if flow control is on, and the writability of R240. -/
def Obligations.GateTxReadsMsrUnderFlowControl : Prop :=
  decodeSelector 0x20#8 = .ok .gateTx ∧
  ∀ (s : State), s.Ready →
    (s.cfg.hwFlow = false → exec .gateTx s = .next { s with opr := {}, res := { writable := some true } })
    ∧ (s.cfg.hwFlow = true → exec .gateTx s = .next { s.draw .msr with
        events := s.events ++ [readEvent s.cfg R_MSR (s.drawn .msr)]
        opr := {}, res := { writable := some (
          if s.cfg.detectCable then (s.drawn .msr).getLsbD 5 && (s.drawn .msr).getLsbD 4
            else !((s.drawn .msr).getLsbD 5 && !(s.drawn .msr).getLsbD 4)) } })

/-- R243, R245. -/
def Obligations.StatusPredicatesReadLsrBits : Prop :=
  decodeSelector 0x21#8 = .ok .gateTxempty ∧ decodeSelector 0x22#8 = .ok .gateRxready ∧
  ∀ (s : State) (l : Byte), s.Ready → s.opr.lsr = some l →
    exec .gateTxempty s = .next { s with opr := {}, res := { empty := some (l.getLsbD 5 && l.getLsbD 6) } }
    ∧ exec .gateRxready s = .next { s with opr := {}, res := { ready := some (l.getLsbD 0) } }

/-- R246, R252: only bit 1 is decided, by the readiness. -/
def Obligations.PollRtsDecidesOnlyRts : Prop :=
  decodeSelector 0x23#8 = .ok .gatePollrts ∧
  ∀ (s : State) (m : Byte) (ready : Bool), s.Ready → s.opr.mcr = some m → s.opr.ready = some ready →
    ∃ o : Byte, exec .gatePollrts s = .next { s with opr := {}, res := { mcrOut := some o } }
      ∧ o.getLsbD 1 = !ready ∧ ∀ i, i ≠ 1 → o.getLsbD i = m.getLsbD i

/-- R248, R249, R105: a mask within SET_MASK sets DTR and RTS and passes bits 7 to 2 through; any other is
Unsupported. SET_MASK is 0x4003 with R104's signal values. -/
def Obligations.CtlSetReplacesDtrAndRts : Prop :=
  decodeSelector 0x24#8 = .ok .ctlSet ∧
  (∀ (s : State) (mask : U32) (m : Byte) (g : Signals), s.Ready → s.opr.mask = some mask → s.opr.mcr = some m →
    g = s.cfg.signals →
    (mask &&& ~~~(g.rts ||| g.dtr ||| g.hwFlow) = 0#32 →
      ∃ o : Byte, exec .ctlSet s = .next { s with opr := {}, res := { st := some .success, mcrOut := some o } }
        ∧ o.getLsbD 0 = decide (mask &&& g.dtr ≠ 0#32) ∧ o.getLsbD 1 = decide (mask &&& g.rts ≠ 0#32)
        ∧ ∀ i, 2 ≤ i → o.getLsbD i = m.getLsbD i)
    ∧ (mask &&& ~~~(g.rts ||| g.dtr ||| g.hwFlow) ≠ 0#32 →
      exec .ctlSet s = .next { s with opr := {}, res := { st := some .unsupported } }))
  ∧ ({} : Signals).setMask = 0x4003#32

/-- R250: the mask is the signals that are present, and, with R104's signal values, bit by bit. -/
def Obligations.CtlGetAssemblesSignals : Prop :=
  decodeSelector 0x25#8 = .ok .ctlGet ∧
  ∀ (s : State) (h c l : Byte) (g : Signals), s.Ready → s.opr.msr = some h → s.opr.mcr = some c →
    s.opr.lsr = some l → g = s.cfg.signals →
    ∃ m : U32, exec .ctlGet s = .next { s with opr := {}, res := { st := some .success, mask := some m } }
      ∧ (∀ i, m.getLsbD i =
        ((h.getLsbD 4 && g.cts.getLsbD i) || (h.getLsbD 5 && g.dsr.getLsbD i) || (h.getLsbD 6 && g.ri.getLsbD i)
          || (h.getLsbD 7 && g.cd.getLsbD i) || (c.getLsbD 0 && g.dtr.getLsbD i) || (c.getLsbD 1 && g.rts.getLsbD i)
          || (s.cfg.hwFlow && g.hwFlow.getLsbD i) || (l.getLsbD 5 && l.getLsbD 6 && g.obe.getLsbD i)
          || (!l.getLsbD 0 && g.ibe.getLsbD i)))
      ∧ (g = {} → ∀ i, i < 32 → m.getLsbD i =
        (if i = 0 then c.getLsbD 0 else if i = 1 then c.getLsbD 1
          else if i = 4 then h.getLsbD 4 else if i = 5 then h.getLsbD 5
          else if i = 6 then h.getLsbD 6 else if i = 7 then h.getLsbD 7
          else if i = 8 then !l.getLsbD 0 else if i = 9 then l.getLsbD 5 && l.getLsbD 6
          else if i = 14 then s.cfg.hwFlow else false))

/-- R251, with R104's signal values: what GetControl produces lies in 0x43F3, and SetControl rejects it when a
get-only signal is in it. -/
def Obligations.GetMaskWithStatusBitsIsRejected : Prop :=
  ∀ (hwFlow : Bool) (h c l m : Byte) (s : State) (mask : U32), s.Ready → s.cfg.signals = {} →
    mask = ctlGet s.cfg.signals hwFlow h c l → s.opr.mask = some mask → s.opr.mcr = some m →
    mask &&& ~~~0x43F3#32 = 0#32
    ∧ (mask &&& 0x3F0#32 ≠ 0#32 → exec .ctlSet s = .next { s with opr := {}, res := { st := some .unsupported } })

/-! ### SetControl, GetControl, Poll -/

/-- R310: a whole SetControl. A valid mask makes one MCR read and one MCR write; any other makes no access. -/
def Obligations.SetctlRun : Prop :=
  decodeSelector 0x34#8 = .ok .seqSetctl ∧
  ∀ (s : State) (mask : U32) (m m2 : Byte) (g : Signals), s.Ready → s.opr.mask = some mask → m = s.stored .mcr →
    g = s.cfg.signals →
    m2 = (m &&& 0xFC#8) ||| (if mask &&& g.dtr = 0#32 then 0x00#8 else 0x01#8)
      ||| (if mask &&& g.rts = 0#32 then 0x00#8 else 0x02#8) →
    exec .seqSetctl s = .next { s with res := {}, pos := .setctl .s0 }
    ∧ (mask &&& ~~~(g.rts ||| g.dtr ||| g.hwFlow) = 0#32 →
      callOp .seqSetctl 4 s = .next { s.settle .mcr with
        uart := (s.settle .mcr).uart.put .mcr m2
        events := s.events ++ [readEvent s.cfg R_MCR m, writeEvent s.cfg R_MCR m2]
        opr := {}, res := { st := some .success } })
    ∧ (mask &&& ~~~(g.rts ||| g.dtr ||| g.hwFlow) ≠ 0#32 →
      callOp .seqSetctl 1 s = .next { s with opr := {}, res := { st := some .unsupported } })

/-- R315: a whole GetControl: MSR, MCR, LSR in that order, and the mask of R250. -/
def Obligations.GetctlRun : Prop :=
  decodeSelector 0x35#8 = .ok .seqGetctl ∧
  ∀ (s : State) (g c l : Byte) (s1 s2 : State), s.Ready → g = s.drawn .msr → s1 = s.draw .msr →
    c = s1.stored .mcr → s2 = s1.settle .mcr → l = s2.drawn .lsr →
    exec .seqGetctl s = .next { s with res := {}, pos := .getctl .g0 }
    ∧ callOp .seqGetctl 4 s = .next { s2.draw .lsr with
        events := s.events ++ [readEvent s.cfg R_MSR g, readEvent s.cfg R_MCR c, readEvent s.cfg R_LSR l]
        opr := {}, res := { st := some .success, mask := some (ctlGet s.cfg.signals s.cfg.hwFlow g c l) } }

/-- R305: a whole Poll: LSR, then with flow control the MCR read and the RTS write. -/
def Obligations.PollRun : Prop :=
  decodeSelector 0x33#8 = .ok .seqPoll ∧
  ∀ (s : State) (l m : Byte) (s1 : State), s.Ready → l = s.drawn .lsr → s1 = s.draw .lsr → m = s1.stored .mcr →
    exec .seqPoll s = .next { s with res := {}, pos := .poll .p0 }
    ∧ (s.cfg.hwFlow = false →
      callOp .seqPoll 3 s = .next { s1 with
        events := s.events ++ [readEvent s.cfg R_LSR l], opr := {}, res := { ready := some (l.getLsbD 0) } })
    ∧ (s.cfg.hwFlow = true → ∀ m2 : Byte,
      m2 = (if l.getLsbD 0 then m &&& 0xFD#8 else m ||| 0x02#8) →
      callOp .seqPoll 4 s = .next { s1.settle .mcr with
        uart := (s1.settle .mcr).uart.put .mcr m2
        events := s.events ++ [readEvent s.cfg R_LSR l, readEvent s.cfg R_MCR m, writeEvent s.cfg R_MCR m2]
        opr := {}, res := { ready := some (l.getLsbD 0) } })

/-! ### Initialize -/

/-- R281: the check path, from the start to label I6: one clock-divider read, one LCR read, the latch toggle around the
two divisor reads. It returns Success when both comparisons match and goes to the drain otherwise. -/
def Obligations.InitCheckPath : Prop :=
  decodeSelector 0x30#8 = .ok .seqInit ∧
  ∀ (s : State) (d : U32) (l0 hi lo : Byte) (s1 s2 s3 s4 : State), s.Ready → s1 = s.drawClkDiv →
    divCalc (clkScale s.cfg s.cfg.clockRate s.drawnClkDiv) s.cfg.defaultBaud = some d →
    l0 = s1.stored .lcr → s2 = s1.settle .lcr → hi = s2.stored .dlm → s3 = s2.settle .dlm →
    lo = s3.stored .dll → s4 = s3.settle .dll →
    exec .seqInit s = .next { s with res := {}, pos := .init .i0 }
    ∧ ∀ ok : Bool,
      ok = decide (l0.toNat % 64 = s.cfg.lcr.toNat % 64 ∧ hi.toNat * 256 + lo.toNat = d.toNat) →
      callOp .seqInit 7 s = .next { s4 with
        uart := s4.uart.put .lcr (l0 &&& 0x7F#8)
        events := s.events ++
          [clkDivEvent s.cfg s.drawnClkDiv, readEvent s.cfg R_LCR l0, writeEvent s.cfg R_LCR (l0 ||| 0x80#8),
           readEvent s.cfg R_DLM hi, readEvent s.cfg R_DLL lo, writeEvent s.cfg R_LCR (l0 &&& 0x7F#8)]
        opr := if ok then {} else s.opr
        res := if ok then { st := some .success } else {}
        pos := if ok then .idle else .init (.i7 { tDiv := d, tLcr := s.cfg.lcr &&& 0x3F#8 }) }

/-- R282: the drain reads LSR and nothing else, and goes on when bits 5 and 6 are both set. -/
def Obligations.InitDrainPollsLsr : Prop :=
  ∀ (s : State) (t : InitTargets), s.pos = .init (.i7 t) →
    exec .seqInit s = .next { s.draw .lsr with
      events := s.events ++ [readEvent s.cfg R_LSR (s.drawn .lsr)]
      pos := if (s.drawn .lsr).getLsbD 5 && (s.drawn .lsr).getLsbD 6 then .init (.i8 t) else .init (.i7 t) }

/-- R283: the reprogram path, from I8 to the return: its eight writes in order and the registers they leave. The
premise on LCR is the invariant `State.LatchKept`. -/
def Obligations.InitReprogramRun : Prop :=
  ∀ (s : State) (t : InitTargets) (hi lo : Byte), s.pos = .init (.i8 t) → s.LatchKept →
    hi = BitVec.ofNat 8 (t.tDiv.toNat / 256) → lo = BitVec.ofNat 8 t.tDiv.toNat →
    continueOp .seqInit 9 s = .next { s with
      uart := { s.uart with lcr := .holds (s.cfg.lcr &&& 0x3F#8), dlm := .holds hi, dll := .holds lo,
                            ier := .holds 0x00#8, mcr := .holds 0x00#8 }
      events := s.events ++
        [writeEvent s.cfg R_LCR 0x80#8, writeEvent s.cfg R_DLM hi, writeEvent s.cfg R_DLL lo,
         writeEvent s.cfg R_LCR (s.cfg.lcr &&& 0x3F#8), writeEvent s.cfg R_FCR 0x00#8,
         writeEvent s.cfg R_FCR (s.cfg.fcr &&& s.cfg.fcrInitMask), writeEvent s.cfg R_IER 0x00#8,
         writeEvent s.cfg R_MCR 0x00#8]
      opr := {}, res := { st := some .success }
      pos := .idle }

/-- R284: whatever the draws, an Initialize that returns answers Success. -/
def Obligations.InitReturnsOnlySuccess : Prop :=
  ∀ (s t : State) (n : Nat), s.Ready → callOp .seqInit n s = .next t → t.pos = .idle →
    t.res = { st := some .success }

/-- R285: after a reprogramming Initialize, a second one with the same clock-divider value passes its check exactly
when the target divisor is below 65536, and makes six accesses up to there. -/
def Obligations.InitTwiceReprogramsOnce : Prop :=
  ∀ (s t : State) (g : InitTargets), s.pos = .init (.i8 g) → s.LatchKept → continueOp .seqInit 9 s = .next t →
    t.Ready →
    divCalc (clkScale t.cfg t.cfg.clockRate t.drawnClkDiv) t.cfg.defaultBaud = some g.tDiv →
    ∃ u, callOp .seqInit 7 t = .next u ∧ u.events.length = t.events.length + 6
      ∧ (u.pos = .idle ↔ g.tDiv.toNat < 65536)
      ∧ (g.tDiv.toNat < 65536 → u.uart = t.uart ∧ u.res = { st := some .success })

/-- R384, R323: after an Initialize or a SetAttributes that returns from I6, I16 or A8 LCR holds DLAB = 0. -/
def Obligations.CompletedProgrammingClearsDlab : Prop :=
  ∀ (s t : State), s.LatchKept → t.pos = .idle →
    ((∃ p, s.pos = .init p) ∧ exec .seqInit s = .next t
      ∨ (∃ res, s.pos = .setattr (.a8 res)) ∧ exec .seqSetattr s = .next t) →
    ∃ v, t.uart.lcr = .holds v ∧ v.getLsbD 7 = false

/-! ### Write -/

/-- R290: where a Write starts, and the labels of the flush. -/
def Obligations.WriteFlushLabels : Prop :=
  decodeSelector 0x31#8 = .ok .seqWrite ∧
  (∀ (s : State) (buf : List Byte), s.Ready → s.opr.buf = some buf →
    exec .seqWrite s = .next { s with res := {}, pos := .write (if buf = [] then .w0 else .w3) })
  ∧ (∀ (s : State), s.pos = .write .w0 →
    exec .seqWrite s = .next { s.draw .lsr with
      events := s.events ++ [readEvent s.cfg R_LSR (s.drawn .lsr)]
      pos := .write (if (s.drawn .lsr).getLsbD 5 && (s.drawn .lsr).getLsbD 6 then .w1 else .w0) })
  ∧ (∀ (s : State), s.pos = .write .w1 → s.cfg.hwFlow = false →
    exec .seqWrite s = .next { s with pos := .write .w2 })
  ∧ (∀ (s : State), s.pos = .write .w1 → s.cfg.hwFlow = true →
    exec .seqWrite s = .next { s.draw .msr with
      events := s.events ++ [readEvent s.cfg R_MSR (s.drawn .msr)]
      pos := .write (if txWritable s.cfg.detectCable (s.drawn .msr) then .w2 else .w1) })
  ∧ (∀ (s : State), s.pos = .write .w2 →
    exec .seqWrite s = .next { s with opr := {}, res := { count := some 0 }, pos := .idle })

/-- R291: the labels of a Write of one or more bytes. At W8 the byte reaches THR while LCR holds DLAB = 0, and DLL while
it holds DLAB = 1 (R29, R390); that an LCR nothing has written takes its draw at that bank decision is the model's
reading (log 4, DEDUCED). -/
def Obligations.WriteSendLabels : Prop :=
  decodeSelector 0x31#8 = .ok .seqWrite ∧
  (∀ (s : State) (buf : List Byte), s.pos = .write .w3 → s.opr.buf = some buf →
    exec .seqWrite s = .next { s with pos := .write (.w4
      { n := buf.length
        depth := if s.cfg.fcr.getLsbD 0 = false then 1
          else if s.cfg.fcr.getLsbD 5 = false then 16 else s.cfg.extFifoSize.toNat
        k := 0 } buf) })
  ∧ (∀ (s : State) (v : WriteVars) (rest : List Byte), s.pos = .write (.w4 v rest) →
    exec .seqWrite s = .next { s with pos := .write (if rest = [] then .w9 v.n else .w5 v rest) })
  ∧ (∀ (s : State) (v : WriteVars) (rest : List Byte), s.pos = .write (.w5 v rest) →
    exec .seqWrite s = .next { s.draw .lsr with
      events := s.events ++ [readEvent s.cfg R_LSR (s.drawn .lsr)]
      pos := .write (if (s.drawn .lsr).getLsbD 5 && (s.drawn .lsr).getLsbD 6 then .w6 { v with k := 0 } rest
        else .w5 v rest) })
  ∧ (∀ (s : State) (v : WriteVars), s.pos = .write (.w6 v []) →
    exec .seqWrite s = .next { s with pos := .write (.w4 v []) })
  ∧ (∀ (s : State) (v : WriteVars) (b : Byte) (rest : List Byte), s.pos = .write (.w6 v (b :: rest)) →
    exec .seqWrite s = .next { s with pos := .write (if v.k < v.depth then .w7 v b rest else .w4 v (b :: rest)) })
  ∧ (∀ (s : State) (v : WriteVars) (b : Byte) (rest : List Byte), s.pos = .write (.w7 v b rest) →
    s.cfg.hwFlow = false → exec .seqWrite s = .next { s with pos := .write (.w8 v b rest) })
  ∧ (∀ (s : State) (v : WriteVars) (b : Byte) (rest : List Byte), s.pos = .write (.w7 v b rest) →
    s.cfg.hwFlow = true → exec .seqWrite s = .next { s.draw .msr with
      events := s.events ++ [readEvent s.cfg R_MSR (s.drawn .msr)]
      pos := .write (if txWritable s.cfg.detectCable (s.drawn .msr) then .w8 v b rest else .w7 v b rest) })
  ∧ (∀ (s : State) (v : WriteVars) (b : Byte) (rest : List Byte), s.pos = .write (.w8 v b rest) →
    exec .seqWrite s = .next { s.settle .lcr with
      uart := if (s.stored .lcr).getLsbD 7 then (s.settle .lcr).uart.put .dll b else (s.settle .lcr).uart
      events := s.events ++ [writeEvent s.cfg R_THR b]
      pos := .write (.w6 { v with k := v.k + 1 } rest) })
  ∧ (∀ (s : State) (n : Nat), s.pos = .write (.w9 n) →
    exec .seqWrite s = .next { s with opr := {}, res := { count := some n }, pos := .idle })

/-- R292: a Write that returns answers the requested length. R291: it has written the buffer's bytes at THR's address,
in order, each once; with DLAB set that address is DLL's (R390). -/
def Obligations.WriteSendsBufferInOrder : Prop :=
  ∀ (s t : State) (buf : List Byte) (n : Nat), s.Ready → s.opr.buf = some buf → callOp .seqWrite n s = .next t →
    t.pos = .idle →
    t.res = { count := some buf.length }
    ∧ ∃ es, t.events = s.events ++ es ∧ writtenTo s.cfg R_THR es = buf.map BitVec.toNat

/-- R293: without flow control every access of a Write, finished or not, is an LSR read or a THR write. -/
def Obligations.WriteWithoutFlowControl : Prop :=
  ∀ (s t : State) (n : Nat), s.Ready → s.cfg.hwFlow = false → callOp .seqWrite n s = .next t →
    ∃ es, t.events = s.events ++ es ∧ ∀ e ∈ es,
      (e.kind = .read ∧ e.address = s.cfg.addr R_LSR) ∨ (e.kind = .write ∧ e.address = s.cfg.addr R_THR)

/-- R395: with an extended FIFO size of 0 a Write of one or more bytes never ends and never writes; the flush, here
with the transmitter empty and no flow control, ends. -/
def Obligations.ZeroDepthWriteNeverEnds : Prop :=
  ∀ (s : State) (buf : List Byte), s.Ready → s.opr.buf = some buf →
    s.cfg.fcr.getLsbD 0 = true → s.cfg.fcr.getLsbD 5 = true → s.cfg.extFifoSize = 0#32 →
    (buf ≠ [] → ∀ n, ∃ t, callOp .seqWrite n s = .next t ∧ t.pos ≠ .idle
      ∧ ∃ es, t.events = s.events ++ es ∧ ∀ e ∈ es, e.kind = .read ∧ e.address = s.cfg.addr R_LSR)
    ∧ (buf = [] → s.cfg.hwFlow = false → (s.drawn .lsr).getLsbD 5 = true → (s.drawn .lsr).getLsbD 6 = true →
      callOp .seqWrite 3 s = .next { s.draw .lsr with
        events := s.events ++ [readEvent s.cfg R_LSR (s.drawn .lsr)], opr := {}, res := { count := some 0 } })

/-- R397's premise made enough: when the environment has laid out one more transmitter-empty LSR value than there are
bytes, a Write without flow control and with a depth of at least one returns. -/
def Obligations.WriteEndsWhenTransmitterEmpties : Prop :=
  ∀ (s : State) (buf : List Byte), s.Ready → s.opr.buf = some buf → s.cfg.hwFlow = false →
    fifoDepth s.cfg.fcr s.cfg.extFifoSize ≠ 0#32 → buf.length + 1 ≤ s.env.lsr.length →
    (∀ v ∈ s.env.lsr, v.getLsbD 5 = true ∧ v.getLsbD 6 = true) →
    ∃ n t, callOp .seqWrite n s = .next t ∧ t.pos = .idle

/-! ### Read -/

/-- R300: where a Read starts, and its labels. RD5 reads RBR while LCR holds DLAB = 0, and DLL while it holds DLAB = 1
(R29, R390); that an LCR nothing has written takes its draw at that bank decision is the model's reading (log 4,
DEDUCED). -/
def Obligations.ReadLabels : Prop :=
  decodeSelector 0x32#8 = .ok .seqRead ∧
  (∀ (s : State), s.Ready → exec .seqRead s = .next { s with res := {}, pos := .read .rd0 })
  ∧ (∀ (s : State) (n : Nat), s.pos = .read .rd0 → s.opr.count = some n →
    exec .seqRead s = .next { s.settle .mcr with
      events := s.events ++ [readEvent s.cfg R_MCR (s.stored .mcr)]
      pos := .read (.rd1 { count := n, base := s.stored .mcr &&& 0xFD#8, buf := [] }) })
  ∧ (∀ (s : State) (v : ReadVars), s.pos = .read (.rd1 v) →
    exec .seqRead s = .next { s with pos := .read (if v.buf.length < v.count then .rd2 v else .rd6 v) })
  ∧ (∀ (s : State) (v : ReadVars), s.pos = .read (.rd2 v) →
    exec .seqRead s = .next { s.draw .lsr with
      events := s.events ++ [readEvent s.cfg R_LSR (s.drawn .lsr)]
      pos := .read (if (s.drawn .lsr).getLsbD 0 then .rd4 v else .rd3 v) })
  ∧ (∀ (s : State) (v : ReadVars), s.pos = .read (.rd3 v) →
    exec .seqRead s = .next (if s.cfg.hwFlow then
      { s with uart := s.uart.put .mcr (v.base ||| 0x02#8)
               events := s.events ++ [writeEvent s.cfg R_MCR (v.base ||| 0x02#8)], pos := .read (.rd2 v) }
      else { s with pos := .read (.rd2 v) }))
  ∧ (∀ (s : State) (v : ReadVars), s.pos = .read (.rd4 v) →
    exec .seqRead s = .next (if s.cfg.hwFlow then
      { s with uart := s.uart.put .mcr (v.base &&& 0xFD#8)
               events := s.events ++ [writeEvent s.cfg R_MCR (v.base &&& 0xFD#8)], pos := .read (.rd5 v) }
      else { s with pos := .read (.rd5 v) }))
  ∧ (∀ (s : State) (v : ReadVars), s.pos = .read (.rd5 v) → (s.stored .lcr).getLsbD 7 = false →
    exec .seqRead s = .next { (s.settle .lcr).draw .rbr with
      events := s.events ++ [readEvent s.cfg R_RBR ((s.settle .lcr).drawn .rbr)]
      pos := .read (.rd1 { v with buf := v.buf ++ [(s.settle .lcr).drawn .rbr] }) })
  ∧ (∀ (s : State) (v : ReadVars), s.pos = .read (.rd5 v) → (s.stored .lcr).getLsbD 7 = true →
    exec .seqRead s = .next { (s.settle .lcr).settle .dll with
      events := s.events ++ [readEvent s.cfg R_RBR ((s.settle .lcr).stored .dll)]
      pos := .read (.rd1 { v with buf := v.buf ++ [(s.settle .lcr).stored .dll] }) })
  ∧ (∀ (s : State) (v : ReadVars), s.pos = .read (.rd6 v) →
    exec .seqRead s = .next { s with opr := {}, res := { buf := some v.buf, countRead := some v.count }, pos := .idle })

/-- R300: a Read that returns answers exactly the requested number of bytes. -/
def Obligations.ReadReturnsRequestedCount : Prop :=
  ∀ (s t : State) (c n : Nat), s.Ready → s.opr.count = some c → callOp .seqRead n s = .next t → t.pos = .idle →
    ∃ bs : List Byte, t.res = { buf := some bs, countRead := some c } ∧ bs.length = c

/-- R301: a Read of no bytes makes one MCR read and nothing else. -/
def Obligations.ReadOfZeroBytes : Prop :=
  ∀ (s : State), s.Ready → s.opr.count = some 0 →
    callOp .seqRead 3 s = .next { s.settle .mcr with
      events := s.events ++ [readEvent s.cfg R_MCR (s.stored .mcr)]
      opr := {}, res := { buf := some [], countRead := some 0 } }

/-- R247, R300: every step keeps the RTS bracket of a Read, and keeps its count in bounds. -/
def Obligations.ReadBracketAndCountKept : Prop :=
  ∀ (s t : State), step s = .next t → (s.RtsBracketed → t.RtsBracketed) ∧ (s.ReadCounted → t.ReadCounted)

/-! ### SetAttributes -/

/-- R320: a whole SetAttributes that resolves and is not all default: the optional LCR read, the clock-divider read,
and the four writes. -/
def Obligations.SetattrRun : Prop :=
  ∀ (s s0 : State) (req res : Attr) (l hi lo : Byte) (d : U32) (need : Bool) (live : Option Byte) (ev : List Event),
    s.Ready → s.opr.req = some req →
    need = decide (s.cfg.defaultSource = .liveLcr
      ∧ (req.dataBits = 0#8 ∨ req.parity = .default ∨ req.stopBits = .default)) →
    (if need
      then live = some (s.stored .lcr) ∧ s0 = s.settle .lcr ∧ ev = [readEvent s.cfg R_LCR (s.stored .lcr)]
      else live = none ∧ s0 = s ∧ ev = []) →
    attrResolve s.cfg req live = .resolved res l →
    ¬ (req.baud = 0#32 ∧ req.dataBits = 0#8 ∧ req.parity = .default ∧ req.stopBits = .default) →
    divCalc (clkScale s.cfg s.cfg.clockRate s0.drawnClkDiv) res.baud = some d →
    hi = BitVec.ofNat 8 (d.toNat / 256) → lo = BitVec.ofNat 8 d.toNat →
    exec .seqSetattr s = .next { s with res := {}, pos := .setattr .a0 }
    ∧ callOp .seqSetattr 9 s = .next { s0.drawClkDiv with
        uart := { s0.uart with lcr := .holds l, dlm := .holds hi, dll := .holds lo }
        events := s.events ++ ev ++
          [clkDivEvent s.cfg s0.drawnClkDiv, writeEvent s.cfg R_LCR 0x80#8, writeEvent s.cfg R_DLM hi,
           writeEvent s.cfg R_DLL lo, writeEvent s.cfg R_LCR l]
        opr := {}, res := { st := some .success, res := some res } }

/-- R321: an all-default SetAttributes reads LCR, where defaults come from it, and writes nothing. -/
def Obligations.SetattrAllDefaultWritesNothing : Prop :=
  ∀ (s : State) (req : Attr) (p : Parity) (src : Byte), s.Ready → s.opr.req = some req →
    req.baud = 0#32 → req.dataBits = 0#8 → req.parity = .default → req.stopBits = .default →
    src = (if s.cfg.defaultSource = .liveLcr then s.stored .lcr else s.cfg.lcr) →
    (p, src.extractLsb' 3 3) ∈ parityTable →
    ∃ b : StopBits,
      b = (if src.getLsbD 2 = false then .one else if src.toNat % 4 = 0 then .oneAndHalf else .two)
      ∧ callOp .seqSetattr 3 s = .next { (if s.cfg.defaultSource = .liveLcr then s.settle .lcr else s) with
          events := s.events ++
            (if s.cfg.defaultSource = .liveLcr then [readEvent s.cfg R_LCR (s.stored .lcr)] else [])
          opr := {}
          res := { st := some .success
                   res := some { req with baud := s.cfg.defaultBaud, dataBits := BitVec.ofNat 8 (src.toNat % 4 + 5),
                                          parity := p, stopBits := b } } }

/-- R322: a SetAttributes that fails has made at most the LCR read, which it makes exactly when a default line setting
is asked for, and leaves some record. -/
def Obligations.SetattrFailureWritesNothing : Prop :=
  ∀ (s s0 : State) (req : Attr) (need : Bool) (live : Option Byte) (ev : List Event), s.Ready → s.opr.req = some req →
    need = decide (s.cfg.defaultSource = .liveLcr
      ∧ (req.dataBits = 0#8 ∨ req.parity = .default ∨ req.stopBits = .default)) →
    (if need
      then live = some (s.stored .lcr) ∧ s0 = s.settle .lcr ∧ ev = [readEvent s.cfg R_LCR (s.stored .lcr)]
      else live = none ∧ s0 = s ∧ ev = []) →
    attrResolve s.cfg req live = .invalid →
    ∃ (a : Attr) (n : Nat), callOp .seqSetattr 2 s = .next { s0 with
      freeCount := n, events := s.events ++ ev, opr := {}, res := { st := some .invalidParameter, res := some a } }

/-- R354: a SetAttributes or a SetControl that returns a failure has made no write. -/
def Obligations.FailureMakesNoWrite : Prop :=
  ∀ (s t : State) (i : Instr) (n : Nat), s.Ready → (i = .seqSetattr ∨ i = .seqSetctl) →
    callOp i n s = .next t → t.pos = .idle → t.res.st ≠ some .success →
    (∀ r v, s.uart.get r = .holds v → t.uart.get r = .holds v)
    ∧ ∃ es, t.events = s.events ++ es ∧ ∀ e ∈ es, e.kind = .read

/-! ### The machine -/

/-- A step runs the operation its state names. Inside an operation it is that operation (R25). At Idle with a
well-formed line next it is the line's operation, its operand registers holding what the line writes, literals and bound
names alike (R94), and no other register holding a value (R21). The results go to the line's names when the operation
has ended (R93); a name given two results has the later one (the model's choice, log 26). A line that uses a name
holding no value faults, where nothing else is wrong with its operands: one whose result held none by R21 (log 3,
DEDUCED), and one that no earlier line binds by the model's choice (log 27). The model's choices besides: a value that
cannot stand in its register is refused (log 18), such a fault and such a refusal come before the start's own checks
(log 24), a line that is not well formed is refused (log 18). With nothing to start the block waits (R382); a selector
in no row is refused (R106). -/
def Obligations.StepRunsDecodedOperation : Prop :=
  (∀ (s : State) (i : Instr), s.pos.inProgress = some i → RunsAs i (exec i s) (step s))
  ∧ (∀ (s : State) (i : Instr) (lbl : Option Ident) (op : Byte) (args : List (OperandName × Source))
      (outs : List (Option Ident)) (rest : List Line), s.pos = .idle →
      s.program = .op lbl op args outs :: rest → decode [op] = .ok (i, []) →
      i.argsGiven args = true → i.outsFit outs = true →
      (∀ o : Operands, (∀ q ∈ args, ∃ v, SourceMeans s.names q.2 v ∧ o.value q.1 = some v) →
        (∀ r, r ∉ args.map Prod.fst → o.value r = none) →
        RunsAs i (exec i { s with program := rest, opr := o, outs := outs }) (step s))
      ∧ ((∀ q ∈ args, ∃ more, FitsRegister (s.names ++ more) q.1 q.2) →
        (∃ q ∈ args, ∃ x ∈ sourceNames q.2, s.names.lookup x = none) →
        ∃ q ∈ args, ∃ x ∈ sourceNames q.2, s.names.lookup x = none ∧ step s = .fault (.nameHoldsNoValue x))
      ∧ ((∀ q ∈ args, ∀ x ∈ sourceNames q.2, s.names.lookup x ≠ none) →
        (∃ q ∈ args, ¬ FitsRegister s.names q.1 q.2) →
        ∃ q ∈ args, ¬ FitsRegister s.names q.1 q.2 ∧ step s = .refused (.operandIllTyped q.1)))
  ∧ (∀ (s : State) (lbl : Option Ident) (op : Byte) (args : List (OperandName × Source))
      (outs : List (Option Ident)) (rest : List Line) (e : DecodeError), s.pos = .idle →
      s.program = .op lbl op args outs :: rest → decode [op] = .error e → step s = .refused (.selectorUnlisted op))
  ∧ (∀ (s : State) (i : Instr) (lbl : Option Ident) (op : Byte) (args : List (OperandName × Source))
      (outs : List (Option Ident)) (rest : List Line), s.pos = .idle →
      s.program = .op lbl op args outs :: rest → decode [op] = .ok (i, []) →
      (i.argsGiven args = false ∨ i.outsFit outs = false) → step s = .refused .lineIllFormed)
  ∧ (∀ (s : State), s.pos = .idle → s.program = [] → step s = .next s)

/-- R95: each pseudo-operation as its line stands next: one round of a wait, done when its predicate holds, or the one
LCR write of a latch line. -/
def Obligations.PseudoOperationsRun : Prop :=
  ∀ (s : State) (lbl : Option Ident) (rest : List Line), s.Ready →
    (s.program = .pseudo lbl .waitTxempty :: rest → ∀ (l : Byte) (e : Bool), l = s.drawn .lsr →
      e = (l.getLsbD 5 && l.getLsbD 6) →
      step s = .next { s.draw .lsr with
        events := s.events ++ [readEvent s.cfg R_LSR l], opr := {}, res := { empty := some e }
        program := if e then rest else s.program })
    ∧ (s.program = .pseudo lbl .waitWritable :: rest → ∀ (m : Byte) (w : Bool), m = s.drawn .msr →
      w = (if s.cfg.detectCable then m.getLsbD 5 && m.getLsbD 4 else !(m.getLsbD 5 && !m.getLsbD 4)) →
      (s.cfg.hwFlow = true → step s = .next { s.draw .msr with
        events := s.events ++ [readEvent s.cfg R_MSR m], opr := {}, res := { writable := some w }
        program := if w then rest else s.program })
      ∧ (s.cfg.hwFlow = false → step s = .next { s with opr := {}, res := { writable := some true }, program := rest }))
    ∧ (s.program = .pseudo lbl .waitRxready :: rest → ∀ (l : Byte), l = s.drawn .lsr →
      step s = .next { s.draw .lsr with
        events := s.events ++ [readEvent s.cfg R_LSR l]
        opr := {}, res := { ready := some (l.getLsbD 0) }, program := if l.getLsbD 0 then rest else s.program })
    ∧ (s.program = .pseudo lbl .latchOn :: rest →
      step s = .next { s with uart := s.uart.put .lcr 0x80#8, events := s.events ++ [writeEvent s.cfg R_LCR 0x80#8]
                              res := {}, program := rest })
    ∧ (∀ (src : Source) (v : Byte), s.program = .pseudo lbl (.latchOff src) :: rest →
      (src = .lit (.num v.toNat) ∨ ∃ x, src = .bound x ∧ s.names.lookup x = some (.num v.toNat)) →
      step s = .next { s with uart := s.uart.put .lcr (v &&& 0x3F#8)
                              events := s.events ++ [writeEvent s.cfg R_LCR (v &&& 0x3F#8)]
                              res := {}, program := rest })

/-- R90, R91, R106: decoding an operation's selector gives it back, no other selector spells it, and a selector of no
operation is refused by name. -/
def Obligations.SelectorsDecodeUniquely : Prop :=
  (∀ (i : Instr) (rest : List Byte), decode (encode i ++ rest) = .ok (i, rest))
  ∧ (∀ (op : Byte) (i : Instr), decodeSelector op = .ok i → op = encodeSelector i)
  ∧ (∀ (op : Byte), (∀ i, op ≠ encodeSelector i) → decodeSelector op = .error (.unlisted op))

/-- R91: the table, written out; every byte that stands in no row of it is refused by name (R106). -/
def Obligations.SelectorTableAsWritten : Prop :=
  ∀ op : Byte, decode [op] =
    match op.toNat with
    | 0x01 => .ok (.encData, []) | 0x02 => .ok (.encPar, []) | 0x03 => .ok (.encStop, [])
    | 0x04 => .ok (.lcrPack, []) | 0x05 => .ok (.lcrEnc, []) | 0x06 => .ok (.decData, [])
    | 0x07 => .ok (.decPar, []) | 0x08 => .ok (.decStop, []) | 0x09 => .ok (.fifoDepth, [])
    | 0x0A => .ok (.lcrMatch, []) | 0x0B => .ok (.attrResolve, [])
    | 0x10 => .ok (.clkScale, []) | 0x11 => .ok (.divCalc, []) | 0x12 => .ok (.divCompute, [])
    | 0x13 => .ok (.divSplit, []) | 0x14 => .ok (.divJoin, [])
    | 0x20 => .ok (.gateTx, []) | 0x21 => .ok (.gateTxempty, []) | 0x22 => .ok (.gateRxready, [])
    | 0x23 => .ok (.gatePollrts, []) | 0x24 => .ok (.ctlSet, []) | 0x25 => .ok (.ctlGet, [])
    | 0x30 => .ok (.seqInit, []) | 0x31 => .ok (.seqWrite, []) | 0x32 => .ok (.seqRead, [])
    | 0x33 => .ok (.seqPoll, []) | 0x34 => .ok (.seqSetctl, []) | 0x35 => .ok (.seqGetctl, [])
    | 0x36 => .ok (.seqSetattr, [])
    | _ => .error (.unlisted op)

/-- R6, R8, R10, R65: no operation starts while another is in progress, under a configuration that breaks R10 or R65,
or in the wrong variant. The checks of `BreaksModelChecks` are the model's own (log 7, log 15), and so is the order of
the refusals (log 24). A state that fails no check may start one. -/
def Obligations.OperationsRefuseToStart : Prop :=
  (∀ (i : Instr) (s : State),
    (s.pos ≠ .idle → s.pos.inProgress ≠ some i → exec i s = .refused .operationInProgress)
    ∧ (s.pos = .idle → BreaksSpecChecks s.cfg → exec i s = .refused .configurationRejected)
    ∧ (s.pos = .idle → BreaksModelChecks s.cfg → exec i s = .refused .configurationRejected)
    ∧ (s.pos = .idle → ¬ BreaksSpecChecks s.cfg → ¬ BreaksModelChecks s.cfg → s.variant ≠ .miniUart16550 →
      exec i s = .refused .variantNotMiniUart))
  ∧ (∀ s : State, s.Ready ↔ s.pos = .idle ∧ s.variant = .miniUart16550
      ∧ ¬ BreaksSpecChecks s.cfg ∧ ¬ BreaksModelChecks s.cfg)

/-- R350: an operation that may start and has its operands answers a next state, except where R204's domain refuses it. -/
def Obligations.OperationsAnswerWhenGivenOperands : Prop :=
  ∀ (i : Instr) (s : State), s.Ready → (∀ r ∈ i.operands ++ i.optionalOperands, s.opr.has r = true) →
    (∃ t, exec i s = .next t)
    ∨ (exec i s = .refused .outsideDivisorDomain ∧ (i = .divCalc ∨ i = .divCompute ∨ i = .attrResolve))

/-- R21: an operation that reads an operand register holding no value faults on a register that holds none. That it
faults before the calculator's domain is checked is the model's choice (log 24, DESIGN CHOICE): DIV.CALC with `effClk`
holding none and a baud rate of 0 faults, where R204 alone would refuse it. A codec,
calculator or gate operation reads each operand it has, ATTR.RESOLVE the live LCR too where a default line setting is
resolved from it (R155); SEQ.WRITE reads `buf` at its start and at W3, SEQ.READ `count` at RD0, SEQ.SETCTL `mask` at S0,
SEQ.SETATTR `req` at A0. -/
def Obligations.MissingOperandFaults : Prop :=
  (∀ (i : Instr) (s : State), s.Ready → i.family ≠ .sequencer → (∃ r ∈ i.operands, s.opr.has r = false) →
    ∃ r ∈ i.operands, s.opr.has r = false ∧ exec i s = .fault (.operandHoldsNoValue r))
  ∧ (∀ (s : State) (req : Attr), s.Ready → s.opr.req = some req → s.opr.liveLcr = none →
    s.cfg.defaultSource = .liveLcr →
    (req.dataBits = 0#8 ∨ (5 ≤ req.dataBits.toNat ∧ req.dataBits.toNat ≤ 8
      ∧ (req.parity = .default ∨ req.stopBits = .default))) →
    exec .attrResolve s = .fault (.operandHoldsNoValue .liveLcr))
  ∧ (∀ s : State, s.Ready ∨ s.pos = .write .w3 → s.opr.buf = none →
    exec .seqWrite s = .fault (.operandHoldsNoValue .buf))
  ∧ (∀ s : State, s.pos = .read .rd0 → s.opr.count = none → exec .seqRead s = .fault (.operandHoldsNoValue .count))
  ∧ (∀ s : State, s.pos = .setctl .s0 → s.opr.mask = none → exec .seqSetctl s = .fault (.operandHoldsNoValue .mask))
  ∧ (∀ s : State, s.pos = .setattr .a0 → s.opr.req = none → exec .seqSetattr s = .fault (.operandHoldsNoValue .req))

/-- R9, R21, R24: no step changes the configuration or the variant, and none changes the operand registers of an
operation that goes on. R20, R22: a step that ends an operation leaves no operand register with a value, ATTR's `req`
among them; that the others end with it too is the model's reading (log 25, DEDUCED). -/
def Obligations.StepKeepsConfigurationAndOperands : Prop :=
  ∀ (s t : State), step s = .next t →
    t.cfg = s.cfg ∧ t.variant = s.variant ∧ (s.pos ≠ .idle → t.opr = if t.pos = .idle then {} else s.opr)

/-- R7, R69: a step adds at most one device access to the history, a legal one, and removes none. R60, R31: the address
of each register's access. -/
def Obligations.StepMakesAtMostOneAccess : Prop :=
  (∀ (s t : State), step s = .next t →
    t.events = s.events ∨ ∃ e, e.Legal s.cfg ∧ t.events = s.events ++ [e])
  ∧ (∀ c : Cfg,
    (∀ r ∈ [R_RBR, R_THR, R_DLL], c.addr r = c.uartBase + c.offsets.rbrThrDll * c.stride)
    ∧ (∀ r ∈ [R_IER, R_DLM], c.addr r = c.uartBase + c.offsets.ierDlm * c.stride)
    ∧ (∀ r ∈ [R_IIR, R_FCR], c.addr r = c.uartBase + c.offsets.iirFcr * c.stride)
    ∧ c.addr R_LCR = c.uartBase + c.offsets.lcr * c.stride
    ∧ c.addr R_MCR = c.uartBase + c.offsets.mcr * c.stride
    ∧ c.addr R_LSR = c.uartBase + c.offsets.lsr * c.stride
    ∧ c.addr R_MSR = c.uartBase + c.offsets.msr * c.stride
    ∧ c.addr R_SCR = c.uartBase + c.offsets.scr * c.stride)

/-- R60 to R63, R21, R20, R22, R351, R42: legal events, unwritten results while in progress, unwritten operands at Idle
(log 25), no DeviceError, an untouched SCR: every step keeps each. -/
def Obligations.MachineInvariantKept : Prop :=
  ∀ (s t : State), s.EventsLegal → s.ResultsUnwritten → s.OperandsUnwritten → s.NoDeviceError →
    s.uart.scr = .unwritten → step s = .next t →
    t.EventsLegal ∧ t.ResultsUnwritten ∧ t.OperandsUnwritten ∧ t.NoDeviceError ∧ t.uart.scr = .unwritten

/-- R206, R391: every step keeps the latch protocol. -/
def Obligations.LatchProtocolKept : Prop :=
  ∀ (s t : State), s.LatchKept → step s = .next t → t.LatchKept

/-- The machine's invariants hold at reset. -/
def Obligations.InvariantsHoldAtReset : Prop :=
  State.reset.EventsLegal ∧ State.reset.ResultsUnwritten ∧ State.reset.OperandsUnwritten ∧ State.reset.NoDeviceError
  ∧ State.reset.uart.scr = .unwritten ∧ State.reset.LatchKept ∧ State.reset.RtsBracketed ∧ State.reset.ReadCounted

/-- The state at reset: R380 gives the variant, the position and the operand and result registers, R47 the UART's
registers. That the event history is empty is the model's own (log 2): R15 starts it with the first access. -/
def Obligations.ResetStateAsSpecified : Prop :=
  State.reset.variant = .unprobed ∧ State.reset.pos = .idle ∧ State.reset.opr = {} ∧ State.reset.res = {}
  ∧ (∀ r, State.reset.uart.get r = .unwritten) ∧ State.reset.events = []

/-! ### Register file -/

/-- R29: the bank of offsets 0 and 1, at a read and at a write, by the LCR value stored at that moment. That an LCR
nothing has written takes its draw there, and keeps it, is the model's reading (log 4, DEDUCED), and the clauses through
`u` rest on it. R34: a write of THR or of FCR is an event and changes no stored register. -/
def Obligations.DlabBanksAndWriteOnlyRegisters : Prop :=
  ∀ (s u : State) (v : Byte) (kr : Byte → State → Out) (kw : State → Out), u = s.settle .lcr →
    ((s.stored .lcr).getLsbD 7 = true →
      devRead R_DLL s kr = readStored R_DLL .dll u kr ∧ devRead R_DLM s kr = readStored R_DLM .dlm u kr
      ∧ devWrite R_DLL v s kw = writeStored R_DLL .dll v u kw ∧ devWrite R_DLM v s kw = writeStored R_DLM .dlm v u kw)
    ∧ ((s.stored .lcr).getLsbD 7 = false →
      devRead R_RBR s kr = readEnv R_RBR .rbr u kr ∧ devRead R_IER s kr = readStored R_IER .ier u kr
      ∧ devWrite R_THR v s kw = kw { u with events := s.events ++ [writeEvent s.cfg R_THR v] }
      ∧ devWrite R_IER v s kw = writeStored R_IER .ier v u kw)
    ∧ devWrite R_FCR v s kw = kw { s with events := s.events ++ [writeEvent s.cfg R_FCR v] }
    ∧ u.uart.lcr = .holds (s.stored .lcr) ∧ u.stored .lcr = s.stored .lcr

/-- R32: a stored register reads back the last byte written, and an unwritten one the same draw every time. LCR and MCR
are reached whatever LCR holds, the others in the bank LCR holds (R29). -/
def Obligations.StoredRegistersReadBack : Prop :=
  (∀ s : State, s.ReadsBack R_LCR .lcr ∧ s.ReadsBack R_MCR .mcr)
  ∧ (∀ (s : State) (l : Byte), s.uart.lcr = .holds l → l.getLsbD 7 = true →
    s.ReadsBack R_DLL .dll ∧ s.ReadsBack R_DLM .dlm)
  ∧ (∀ (s : State) (l : Byte), s.uart.lcr = .holds l → l.getLsbD 7 = false → s.ReadsBack R_IER .ier)
end

