-- ==== Sys2Proof/Laws/State.lean ====
section
/-! SUPPORT. The small lemmas of State's updates and of the register file: one for each field each update leaves alone
or writes. -/

namespace Sys2Proof.Machine

@[simp] theorem State.record_variant (s : State) (e : Event) : (s.record e).variant = s.variant := rfl
@[simp] theorem State.record_cfg (s : State) (e : Event) : (s.record e).cfg = s.cfg := rfl
@[simp] theorem State.record_pos (s : State) (e : Event) : (s.record e).pos = s.pos := rfl
@[simp] theorem State.record_opr (s : State) (e : Event) : (s.record e).opr = s.opr := rfl
@[simp] theorem State.record_res (s : State) (e : Event) : (s.record e).res = s.res := rfl
@[simp] theorem State.record_uart (s : State) (e : Event) : (s.record e).uart = s.uart := rfl
@[simp] theorem State.record_env (s : State) (e : Event) : (s.record e).env = s.env := rfl
@[simp] theorem State.record_freeCount (s : State) (e : Event) : (s.record e).freeCount = s.freeCount := rfl
@[simp] theorem State.record_program (s : State) (e : Event) : (s.record e).program = s.program := rfl
@[simp] theorem State.record_outs (s : State) (e : Event) : (s.record e).outs = s.outs := rfl
@[simp] theorem State.record_names (s : State) (e : Event) : (s.record e).names = s.names := rfl
@[simp] theorem State.record_events (s : State) (e : Event) : (s.record e).events = s.events ++ [e] := rfl

@[simp] theorem State.settle_variant (s : State) (r : StoredName) : (s.settle r).variant = s.variant := by
  unfold State.settle; split <;> rfl
@[simp] theorem State.settle_cfg (s : State) (r : StoredName) : (s.settle r).cfg = s.cfg := by
  unfold State.settle; split <;> rfl
@[simp] theorem State.settle_pos (s : State) (r : StoredName) : (s.settle r).pos = s.pos := by
  unfold State.settle; split <;> rfl
@[simp] theorem State.settle_opr (s : State) (r : StoredName) : (s.settle r).opr = s.opr := by
  unfold State.settle; split <;> rfl
@[simp] theorem State.settle_res (s : State) (r : StoredName) : (s.settle r).res = s.res := by
  unfold State.settle; split <;> rfl
@[simp] theorem State.settle_env (s : State) (r : StoredName) : (s.settle r).env = s.env := by
  unfold State.settle; split <;> rfl
@[simp] theorem State.settle_events (s : State) (r : StoredName) : (s.settle r).events = s.events := by
  unfold State.settle; split <;> rfl
@[simp] theorem State.settle_program (s : State) (r : StoredName) : (s.settle r).program = s.program := by
  unfold State.settle; split <;> rfl
@[simp] theorem State.settle_outs (s : State) (r : StoredName) : (s.settle r).outs = s.outs := by
  unfold State.settle; split <;> rfl
@[simp] theorem State.settle_names (s : State) (r : StoredName) : (s.settle r).names = s.names := by
  unfold State.settle; split <;> rfl

@[simp] theorem State.draw_variant (s : State) (r : EnvName) : (s.draw r).variant = s.variant := by
  unfold State.draw; split <;> rfl
@[simp] theorem State.draw_cfg (s : State) (r : EnvName) : (s.draw r).cfg = s.cfg := by
  unfold State.draw; split <;> rfl
@[simp] theorem State.draw_pos (s : State) (r : EnvName) : (s.draw r).pos = s.pos := by
  unfold State.draw; split <;> rfl
@[simp] theorem State.draw_opr (s : State) (r : EnvName) : (s.draw r).opr = s.opr := by
  unfold State.draw; split <;> rfl
@[simp] theorem State.draw_res (s : State) (r : EnvName) : (s.draw r).res = s.res := by
  unfold State.draw; split <;> rfl
@[simp] theorem State.draw_uart (s : State) (r : EnvName) : (s.draw r).uart = s.uart := by
  unfold State.draw; split <;> rfl
@[simp] theorem State.draw_events (s : State) (r : EnvName) : (s.draw r).events = s.events := by
  unfold State.draw; split <;> rfl
@[simp] theorem State.draw_program (s : State) (r : EnvName) : (s.draw r).program = s.program := by
  unfold State.draw; split <;> rfl
@[simp] theorem State.draw_outs (s : State) (r : EnvName) : (s.draw r).outs = s.outs := by
  unfold State.draw; split <;> rfl
@[simp] theorem State.draw_names (s : State) (r : EnvName) : (s.draw r).names = s.names := by
  unfold State.draw; split <;> rfl

@[simp] theorem State.drawClkDiv_variant (s : State) : s.drawClkDiv.variant = s.variant := by
  unfold State.drawClkDiv; split <;> rfl
@[simp] theorem State.drawClkDiv_cfg (s : State) : s.drawClkDiv.cfg = s.cfg := by
  unfold State.drawClkDiv; split <;> rfl
@[simp] theorem State.drawClkDiv_pos (s : State) : s.drawClkDiv.pos = s.pos := by
  unfold State.drawClkDiv; split <;> rfl
@[simp] theorem State.drawClkDiv_opr (s : State) : s.drawClkDiv.opr = s.opr := by
  unfold State.drawClkDiv; split <;> rfl
@[simp] theorem State.drawClkDiv_res (s : State) : s.drawClkDiv.res = s.res := by
  unfold State.drawClkDiv; split <;> rfl
@[simp] theorem State.drawClkDiv_uart (s : State) : s.drawClkDiv.uart = s.uart := by
  unfold State.drawClkDiv; split <;> rfl
@[simp] theorem State.drawClkDiv_events (s : State) : s.drawClkDiv.events = s.events := by
  unfold State.drawClkDiv; split <;> rfl
@[simp] theorem State.drawClkDiv_program (s : State) : s.drawClkDiv.program = s.program := by
  unfold State.drawClkDiv; split <;> rfl
@[simp] theorem State.drawClkDiv_outs (s : State) : s.drawClkDiv.outs = s.outs := by
  unfold State.drawClkDiv; split <;> rfl
@[simp] theorem State.drawClkDiv_names (s : State) : s.drawClkDiv.names = s.names := by
  unfold State.drawClkDiv; split <;> rfl

@[simp] theorem State.drawAttr_variant (s : State) : s.drawAttr.variant = s.variant := rfl
@[simp] theorem State.drawAttr_cfg (s : State) : s.drawAttr.cfg = s.cfg := rfl
@[simp] theorem State.drawAttr_pos (s : State) : s.drawAttr.pos = s.pos := rfl
@[simp] theorem State.drawAttr_opr (s : State) : s.drawAttr.opr = s.opr := rfl
@[simp] theorem State.drawAttr_res (s : State) : s.drawAttr.res = s.res := rfl
@[simp] theorem State.drawAttr_uart (s : State) : s.drawAttr.uart = s.uart := rfl
@[simp] theorem State.drawAttr_env (s : State) : s.drawAttr.env = s.env := rfl
@[simp] theorem State.drawAttr_events (s : State) : s.drawAttr.events = s.events := rfl
@[simp] theorem State.drawAttr_program (s : State) : s.drawAttr.program = s.program := rfl
@[simp] theorem State.drawAttr_outs (s : State) : s.drawAttr.outs = s.outs := rfl
@[simp] theorem State.drawAttr_names (s : State) : s.drawAttr.names = s.names := rfl

@[simp] theorem UartRegs.get_put_self (u : UartRegs) (r : StoredName) (v : Byte) : (u.put r v).get r = .holds v := by
  cases r <;> rfl

theorem UartRegs.get_put_other (u : UartRegs) {r q : StoredName} (v : Byte) (h : q ≠ r) :
    (u.put r v).get q = u.get q := by
  cases r <;> cases q <;> first | rfl | exact absurd rfl h

@[simp] theorem UartRegs.put_put_self (u : UartRegs) (r : StoredName) (v w : Byte) :
    (u.put r v).put r w = u.put r w := by
  cases r <;> rfl

theorem State.stored_of_holds {s : State} {r : StoredName} {v : Byte} (h : s.uart.get r = .holds v) :
    s.stored r = v := by
  simp [State.stored, h]

theorem State.settle_of_holds {s : State} {r : StoredName} {v : Byte} (h : s.uart.get r = .holds v) :
    s.settle r = s := by
  simp [State.settle, h]

/-- R32: after its draw a register holds what was drawn. -/
theorem State.settle_holds (s : State) (r : StoredName) : (s.settle r).uart.get r = .holds (s.stored r) := by
  unfold State.settle State.stored
  split <;> simp_all

/-- R32: later reads return the same value. -/
@[simp] theorem State.stored_settle (s : State) (r : StoredName) : (s.settle r).stored r = s.stored r :=
  State.stored_of_holds (s.settle_holds r)

/-- A settled register leaves the others as they were. -/
theorem State.settle_get_other (s : State) {r q : StoredName} (h : q ≠ r) :
    (s.settle r).uart.get q = s.uart.get q := by
  unfold State.settle
  split
  · rfl
  · exact UartRegs.get_put_other _ _ h

@[simp] theorem State.settle_scr (s : State) : (s.settle .lcr).uart.scr = s.uart.scr := by
  have h := s.settle_get_other (r := .lcr) (q := .scr) (by decide)
  simpa [UartRegs.get] using h

@[simp] theorem State.dlab_record (s : State) (e : Event) : (s.record e).dlab = s.dlab := rfl

@[simp] theorem State.stored_record (s : State) (e : Event) (r : StoredName) : (s.record e).stored r = s.stored r := rfl

@[simp] theorem State.dlab_settle (s : State) : (s.settle .lcr).dlab = s.dlab := by simp [State.dlab]

end Sys2Proof.Machine
end

