-- ==== Sys2Proof/Laws/Ops.lean ====
section
/-! SUPPORT. One lemma for each shared operation: everything it can do when it answers a next state. -/

namespace Sys2Proof.Machine

/-! ### Starting and ending -/

theorem start_ready {s : State} (h : s.Ready) (k : State → Out) : start s k = k { s with res := {} } := by
  obtain ⟨hp, hc, hv⟩ := h
  simp [start, hp, hc, hv]

/-- An operation that starts was allowed to. -/
theorem start_next {s t : State} {k : State → Out} (h : start s k = .next t) :
    s.Ready ∧ k { s with res := {} } = .next t := by
  unfold start at h
  split at h
  · cases h
  · split at h
    · cases h
    · split at h
      · cases h
      · refine ⟨⟨?_, ?_, ?_⟩, h⟩ <;> simp_all

/-- R10, R65: a configuration is accepted when it breaks neither the spec's checks nor the model's own. -/
theorem wf_iff (c : Cfg) : c.wf = true ↔ ¬ BreaksSpecChecks c ∧ ¬ BreaksModelChecks c := by
  have mem : ∀ r : Slot, r ∈ Slot.all := by intro r; cases r <;> decide
  have addrs : (∀ r ∈ Slot.all, c.uartBase + c.offsets.at r * c.stride < 2 ^ c.addrWidth)
      ↔ ∀ r, c.uartBase + c.offsets.at r * c.stride < 2 ^ c.addrWidth := ⟨fun h r => h r (mem r), fun h r _ => h r⟩
  have distinct : (Slot.all.map c.offsets.at).Nodup ↔ ∀ r q : Slot, r ≠ q → c.offsets.at r ≠ c.offsets.at q := by
    rw [List.nodup_map_iff_inj_on (by decide)]
    exact ⟨fun h r q hne e => hne (h r (mem r) q (mem q) e), fun h r _ q _ e => by_contra fun hne => h r q hne e⟩
  unfold Cfg.wf BreaksSpecChecks BreaksModelChecks
  simp only [Bool.and_eq_true, Cfg.baudInDomain, Cfg.strideOk, Cfg.addressesFit, Cfg.clockRateFits, Cfg.clkDivAligned,
    Cfg.clkDivFits, Cfg.offsetsDistinct, decide_eq_true_eq, List.all_eq_true, addrs, distinct, List.mem_range, maxU32]
  push Not
  constructor
  · rintro ⟨⟨⟨⟨⟨⟨a, b⟩, c1, c2⟩, d⟩, e⟩, f⟩, g⟩
    refine ⟨⟨?_, ?_, ?_, c1, d, e⟩, f, c2, g⟩ <;> omega
  · rintro ⟨⟨a1, a2, b, c1, d, e⟩, f, c2, g⟩
    exact ⟨⟨⟨⟨⟨⟨⟨by omega, a2⟩, by omega⟩, c1, c2⟩, d⟩, e⟩, f⟩, g⟩

theorem start_busy {s : State} (h : s.pos ≠ .idle) (k : State → Out) : start s k = .refused .operationInProgress := by
  simp [start, h]

@[simp] theorem need_some {α : Type} (r : OperandName) (a : α) (k : α → Out) : need r (some a) k = k a := rfl

@[simp] theorem need_none {α : Type} (r : OperandName) (k : α → Out) :
    need r none k = .fault (.operandHoldsNoValue r) := rfl

/-- An operand that was read held a value. -/
theorem need_next {α : Type} {r : OperandName} {v : Option α} {k : α → Out} {t : State}
    (h : need r v k = .next t) : ∃ a, v = some a ∧ k a = .next t := by
  cases v with
  | none => cases h
  | some a => exact ⟨a, rfl, h⟩

theorem finish_next {r : Results} {s t : State} (h : finish r s = .next t) :
    t = { s with opr := {}, res := r, pos := .idle } := by
  cases h; rfl

theorem goto_next {p : Position} {s t : State} (h : goto p s = .next t) : t = { s with pos := p } := by
  cases h; rfl

/-! ### Device accesses -/

/-- What one device access changes: stored registers but SCR, draws, and the history by one legal event. -/
structure Accessed (s t : State) : Prop where
  variant : t.variant = s.variant
  cfg : t.cfg = s.cfg
  pos : t.pos = s.pos
  opr : t.opr = s.opr
  res : t.res = s.res
  program : t.program = s.program
  outs : t.outs = s.outs
  names : t.names = s.names
  scr : t.uart.scr = s.uart.scr
  events : ∃ e, e.Legal s.cfg ∧ t.events = s.events ++ [e]

theorem readEvent_legal (c : Cfg) (v : Byte) {r : Slot}
    (h : r ∈ [Slot.rbrThrDll, .ierDlm, .lcr, .mcr, .lsr, .msr]) : (readEvent c r v).Legal c :=
  .inr (.inl ⟨rfl, rfl, v.isLt, r, h, rfl⟩)

theorem writeEvent_legal (c : Cfg) (v : Byte) {r : Slot}
    (h : r ∈ [Slot.rbrThrDll, .ierDlm, .iirFcr, .lcr, .mcr]) : (writeEvent c r v).Legal c :=
  .inr (.inr ⟨rfl, rfl, v.isLt, r, h, rfl⟩)

theorem clkDivEvent_legal (c : Cfg) (v : U32) : (clkDivEvent c v).Legal c :=
  .inl ⟨rfl, rfl, rfl, v.isLt⟩

theorem settle_scr_of_ne (s : State) {n : StoredName} (h : n ≠ .scr) : (s.settle n).uart.scr = s.uart.scr := by
  simpa [UartRegs.get] using s.settle_get_other (r := n) (q := .scr) (Ne.symm h)

theorem put_scr_of_ne (u : UartRegs) {n : StoredName} (v : Byte) (h : n ≠ .scr) : (u.put n v).scr = u.scr := by
  simpa [UartRegs.get] using u.get_put_other (r := n) (q := .scr) v (Ne.symm h)

/-- An access made after the bank's draw of LCR is an access of the state before it. -/
theorem Accessed.of_settle_lcr {s t : State} (h : Accessed (s.settle .lcr) t) : Accessed s t := by
  obtain ⟨h1, h2, h3, h4, h5, h6, h7, h8, h9, h10⟩ := h
  exact ⟨by simpa using h1, by simpa using h2, by simpa using h3, by simpa using h4, by simpa using h5,
    by simpa using h6, by simpa using h7, by simpa using h8, by simpa using h9, by simpa using h10⟩

theorem readStored_next {r : Slot} {n : StoredName} {s t : State} {k : Byte → State → Out}
    (hr : r ∈ [Slot.rbrThrDll, .ierDlm, .lcr, .mcr, .lsr, .msr]) (hn : n ≠ .scr)
    (h : readStored r n s k = .next t) : ∃ v s', Accessed s s' ∧ k v s' = .next t :=
  ⟨_, (s.settle n).record (readEvent s.cfg r (s.stored n)),
    ⟨by simp, by simp, by simp, by simp, by simp, by simp, by simp, by simp, by simpa using settle_scr_of_ne s hn,
      _, readEvent_legal _ (s.stored n) hr, by simp⟩, h⟩

theorem readEnv_next {r : Slot} {n : EnvName} {s t : State} {k : Byte → State → Out}
    (hr : r ∈ [Slot.rbrThrDll, .ierDlm, .lcr, .mcr, .lsr, .msr])
    (h : readEnv r n s k = .next t) : ∃ v s', Accessed s s' ∧ k v s' = .next t :=
  ⟨_, (s.draw n).record (readEvent s.cfg r (s.drawn n)),
    ⟨by simp, by simp, by simp, by simp, by simp, by simp, by simp, by simp, by simp,
      _, readEvent_legal _ (s.drawn n) hr, by simp⟩, h⟩

theorem writeStored_next {r : Slot} {n : StoredName} {v : Byte} {s t : State} {k : State → Out}
    (hr : r ∈ [Slot.rbrThrDll, .ierDlm, .iirFcr, .lcr, .mcr]) (hn : n ≠ .scr)
    (h : writeStored r n v s k = .next t) : ∃ s', Accessed s s' ∧ k s' = .next t :=
  ⟨State.record { s with uart := s.uart.put n v } (writeEvent s.cfg r v),
    ⟨rfl, rfl, rfl, rfl, rfl, rfl, rfl, rfl, put_scr_of_ne s.uart v hn, _, writeEvent_legal _ v hr, rfl⟩, h⟩

theorem writeOnly_next {r : Slot} {v : Byte} {s t : State} {k : State → Out}
    (hr : r ∈ [Slot.rbrThrDll, .ierDlm, .iirFcr, .lcr, .mcr])
    (h : writeOnly r v s k = .next t) : ∃ s', Accessed s s' ∧ k s' = .next t :=
  ⟨s.record (writeEvent s.cfg r v),
    ⟨rfl, rfl, rfl, rfl, rfl, rfl, rfl, rfl, rfl, _, writeEvent_legal _ v hr, rfl⟩, h⟩

/-- R69: a read that goes on made exactly one access. -/
theorem devRead_next {r : Slot} {s t : State} {k : Byte → State → Out} (h : devRead r s k = .next t) :
    ∃ v s', Accessed s s' ∧ k v s' = .next t := by
  unfold devRead at h
  split at h
  · split at h
    · obtain ⟨v, s', ha, hk⟩ := readStored_next (by decide) (by decide) h
      exact ⟨v, s', ha.of_settle_lcr, hk⟩
    · obtain ⟨v, s', ha, hk⟩ := readEnv_next (by decide) h
      exact ⟨v, s', ha.of_settle_lcr, hk⟩
  · split at h
    · obtain ⟨v, s', ha, hk⟩ := readStored_next (by decide) (by decide) h
      exact ⟨v, s', ha.of_settle_lcr, hk⟩
    · obtain ⟨v, s', ha, hk⟩ := readStored_next (by decide) (by decide) h
      exact ⟨v, s', ha.of_settle_lcr, hk⟩
  · cases h
  · exact readStored_next (by decide) (by decide) h
  · exact readStored_next (by decide) (by decide) h
  · exact readEnv_next (by decide) h
  · exact readEnv_next (by decide) h
  · cases h

/-- R69: a write that goes on made exactly one access. -/
theorem devWrite_next {r : Slot} {v : Byte} {s t : State} {k : State → Out} (h : devWrite r v s k = .next t) :
    ∃ s', Accessed s s' ∧ k s' = .next t := by
  unfold devWrite at h
  split at h
  · split at h
    · obtain ⟨s', ha, hk⟩ := writeStored_next (by decide) (by decide) h
      exact ⟨s', ha.of_settle_lcr, hk⟩
    · obtain ⟨s', ha, hk⟩ := writeOnly_next (by decide) h
      exact ⟨s', ha.of_settle_lcr, hk⟩
  · split at h
    · obtain ⟨s', ha, hk⟩ := writeStored_next (by decide) (by decide) h
      exact ⟨s', ha.of_settle_lcr, hk⟩
    · obtain ⟨s', ha, hk⟩ := writeStored_next (by decide) (by decide) h
      exact ⟨s', ha.of_settle_lcr, hk⟩
  · exact writeOnly_next (by decide) h
  · exact writeStored_next (by decide) (by decide) h
  · exact writeStored_next (by decide) (by decide) h
  · cases h
  · cases h
  · cases h

theorem clkDivRead_next {s t : State} {k : U32 → State → Out} (h : clkDivRead s k = .next t) :
    ∃ v s', Accessed s s' ∧ k v s' = .next t :=
  ⟨_, s.drawClkDiv.record (clkDivEvent s.cfg s.drawnClkDiv),
    ⟨by simp, by simp, by simp, by simp, by simp, by simp, by simp, by simp, by simp,
      _, clkDivEvent_legal _ s.drawnClkDiv, by simp⟩, h⟩

theorem latchOn_next {s t : State} {k : State → Out} (h : latchOn s k = .next t) :
    ∃ s', Accessed s s' ∧ k s' = .next t :=
  devWrite_next h

theorem latchOff_next {v : Byte} {s t : State} {k : State → Out} (h : latchOff v s k = .next t) :
    ∃ s', Accessed s s' ∧ k s' = .next t :=
  devWrite_next h

/-- R241: an evaluation of the gate makes one access under flow control and none without it. -/
theorem gateTx_next {s t : State} {k : Bool → State → Out} (h : gateTx s k = .next t) :
    (s.cfg.hwFlow = false ∧ k true s = .next t)
      ∨ (s.cfg.hwFlow = true ∧ ∃ w s', Accessed s s' ∧ k w s' = .next t) := by
  unfold gateTx at h
  split at h
  · rename_i hf
    obtain ⟨v, s', ha, hk⟩ := devRead_next h
    exact .inr ⟨hf, _, s', ha, hk⟩
  · rename_i hf
    exact .inl ⟨by simpa using hf, h⟩

/-- R202: a divisor that was computed came of one clock-divider read. -/
theorem computeDivisor_next {baud : U32} {s t : State} {k : U32 → State → Out}
    (h : computeDivisor baud s k = .next t) : ∃ d s', Accessed s s' ∧ k d s' = .next t := by
  obtain ⟨v, s', ha, hk⟩ := clkDivRead_next h
  split at hk
  · exact ⟨_, s', ha, hk⟩
  · cases hk

end Sys2Proof.Machine
end

