-- ==== Sys2Proof/Laws/Caller.lean ====
section
/-! SUPPORT. The caller's lines: what reading an operand, loading a line's operands and binding its results can do. -/

namespace Sys2Proof.Machine

/-! ### Values of a line -/

theorem fits_toNat {w : Nat} (x : BitVec w) : fits w x.toNat = some x := by simp [fits, x.isLt]

theorem fits_some {w n : Nat} {x : BitVec w} (h : fits w n = some x) : x.toNat = n := by
  unfold fits at h
  split at h
  · cases h
    simp [*, Nat.mod_eq_of_lt]
  · cases h

theorem asNumber_iff {w : Nat} {v : Value} {x : BitVec w} : asNumber w v = some x ↔ v = .num x.toNat := by
  constructor
  · intro h
    cases v <;> simp only [asNumber, reduceCtorEq] at h
    rw [fits_some h]
  · rintro rfl
    exact fits_toNat x

theorem asParity_iff {v : Value} {p : Parity} : asParity v = some p ↔ v = .parity p := by
  cases v <;> simp [asParity]

theorem asStopBits_iff {v : Value} {b : StopBits} : asStopBits v = some b ↔ v = .stopBits b := by
  cases v <;> simp [asStopBits]

/-- A value loaded into an operand register is what it then holds. -/
theorem load_value {o o' : Operands} {r : OperandName} {v : Value} (h : o.load r v = some o') :
    o'.value r = some v := by
  cases r <;> cases v <;> simp only [Operands.load, Option.map_eq_some_iff, Option.some.injEq, reduceCtorEq] at h <;>
    first
      | (obtain ⟨x, hx, rfl⟩ := h; simp [Operands.value, fits_some hx])
      | (subst h; rfl)

/-- Loading one operand register leaves the others. -/
theorem load_other {o o' : Operands} {r q : OperandName} {v : Value} (h : o.load r v = some o') (hq : q ≠ r) :
    o'.value q = o.value q := by
  cases r <;> cases v <;> simp only [Operands.load, Option.map_eq_some_iff, Option.some.injEq, reduceCtorEq] at h <;>
    first
      | (obtain ⟨x, -, rfl⟩ := h; cases q <;> first | rfl | exact absurd rfl hq)

/-- A value an operand register can hold is one it can be loaded with. -/
theorem load_of_value {o : Operands} {r : OperandName} {v : Value} (h : o.value r = some v) (o' : Operands) :
    ∃ o'', o'.load r v = some o'' := by
  cases r <;> simp only [Operands.value, Option.map_eq_some_iff] at h <;> obtain ⟨x, -, rfl⟩ := h <;>
    simp [Operands.load, fits_toNat]

/-- The operand registers are what they hold, register by register. -/
theorem operands_ext {o o' : Operands} (h : ∀ r, o.value r = o'.value r) : o = o' := by
  have num {w : Nat} {a b : Option (BitVec w)} (h : a.map (fun x => Value.num x.toNat) = b.map (fun x => .num x.toNat)) :
      a = b := Option.map_injective (fun _ _ h => BitVec.eq_of_toNat_eq (Value.num.inj h)) h
  have inj {α : Type} {f : α → Value} (hf : ∀ x y, f x = f y → x = y) {a b : Option α} (h : a.map f = b.map f) : a = b :=
    Option.map_injective (fun x y => hf x y) h
  obtain ⟨⟩ := o
  obtain ⟨⟩ := o'
  simp only [Operands.mk.injEq]
  exact ⟨num (h .dataBits), inj (fun _ _ => Value.parity.inj) (h .parity), inj (fun _ _ => Value.stopBits.inj) (h .stopBits),
    num (h .dataCode), num (h .stopCode), num (h .parCode), num (h .lcr), num (h .fcr), num (h .extFifoSize),
    num (h .a), num (h .b), inj (fun _ _ => Value.attr.inj) (h .req), num (h .liveLcr), num (h .base), num (h .divReg),
    inj (fun _ _ => Value.num.inj) (h .effClk), num (h .baud), num (h .divisor), num (h .hi), num (h .lo), num (h .lsr),
    num (h .mcr), inj (fun _ _ => Value.bool.inj) (h .ready), num (h .mask), num (h .msr),
    inj (fun _ _ => Value.bytes.inj) (h .buf), inj (fun _ _ => Value.num.inj) (h .count)⟩

/-- Everything reading a value of a line can do: go on with the one value that is meant, whatever other names are
bound; fault on a name it uses that holds none; or be refused, because no value of the wanted type is meant. -/
inductive Reads {α : Type} (names : List (Ident × Value)) (used : List Ident) (r : OperandName)
    (means : List (Ident × Value) → α → Prop) (run : (α → Out) → Out) : Prop
  | goesOn (y : α) (h : means names y) (one : ∀ more z, means (names ++ more) z → z = y) (hk : ∀ k, run k = k y)
  | faults (x : Ident) (hx : x ∈ used) (h : names.lookup x = none) (hk : ∀ k, run k = .fault (.nameHoldsNoValue x))
  | refuses (h : ∀ more y, ¬ means (names ++ more) y) (hk : ∀ k, run k = .refused (.operandIllTyped r))

/-- The same values are meant. -/
theorem Reads.of_iff {α : Type} {names : List (Ident × Value)} {used : List Ident} {r : OperandName}
    {m n : List (Ident × Value) → α → Prop} {f : (α → Out) → Out} (h : Reads names used r m f)
    (hm : ∀ ns y, m ns y ↔ n ns y) : Reads names used r n f := by
  obtain rfl : m = n := funext fun ns => funext fun y => propext (hm ns y)
  exact h

/-- One reading after another. -/
theorem Reads.bind {α β : Type} {names : List (Ident × Value)} {u v : List Ident} {r : OperandName}
    {m : List (Ident × Value) → α → Prop} {n : α → List (Ident × Value) → β → Prop}
    {f : (α → Out) → Out} {g : α → (β → Out) → Out} (hf : Reads names u r m f) (hg : ∀ y, Reads names v r (n y) (g y)) :
    Reads names (u ++ v) r (fun ns z => ∃ y, m ns y ∧ n y ns z) (fun k => f fun y => g y k) := by
  cases hf with
  | faults x hx h hk => exact .faults x (List.mem_append_left _ hx) h fun k => hk _
  | refuses h hk => exact .refuses (fun more z ⟨y, hy, _⟩ => h more y hy) fun k => hk _
  | goesOn y h one hk =>
    cases hg y with
    | faults x hx h' hk' => exact .faults x (List.mem_append_right _ hx) h' fun k => (hk _).trans (hk' k)
    | refuses h' hk' =>
      exact .refuses (fun more z ⟨y', hy, hz⟩ => h' more z (one more y' hy ▸ hz)) fun k => (hk _).trans (hk' k)
    | goesOn z h' one' hk' =>
      exact .goesOn z ⟨y, h, h'⟩ (fun more z' ⟨y', hy, hz⟩ => one' more z' (one more y' hy ▸ hz))
        fun k => (hk _).trans (hk' k)

/-- A reading followed by a function of its value. -/
theorem Reads.map {α β : Type} {names : List (Ident × Value)} {u : List Ident} {r : OperandName}
    {m : List (Ident × Value) → α → Prop} {f : (α → Out) → Out} (hf : Reads names u r m f) (g : α → β) :
    Reads names u r (fun ns z => ∃ y, m ns y ∧ z = g y) (fun k => f fun y => k (g y)) := by
  cases hf with
  | faults x hx h hk => exact .faults x hx h fun k => hk _
  | refuses h hk => exact .refuses (fun more z ⟨y, hy, _⟩ => h more y hy) fun k => hk _
  | goesOn y h one hk =>
    exact .goesOn (g y) ⟨y, h, rfl⟩ (fun more z ⟨y', hy, hz⟩ => one more y' hy ▸ hz) fun k => hk _

/-- A reading whose value must be of a type. -/
theorem Reads.typed {α : Type} {names : List (Ident × Value)} {u : List Ident} {r : OperandName}
    {m : List (Ident × Value) → Value → Prop} {f : (Value → Out) → Out} (hf : Reads names u r m f)
    (read : Value → Option α) :
    Reads names u r (fun ns y => ∃ v, m ns v ∧ read v = some y) (fun k => f (typed r read k)) := by
  cases hf with
  | faults x hx h hk => exact .faults x hx h fun k => hk _
  | refuses h hk => exact .refuses (fun more z ⟨y, hy, _⟩ => h more y hy) fun k => hk _
  | goesOn v h one hk =>
    cases hr : read v with
    | none =>
      refine .refuses (fun more y ⟨w, hw, hy⟩ => ?_) fun k => by simp [hk, Machine.typed, hr]
      rw [one more w hw, hr] at hy
      cases hy
    | some y =>
      refine .goesOn y ⟨v, h, hr⟩ (fun more z ⟨w, hw, hz⟩ => ?_) fun k => by simp [hk, Machine.typed, hr]
      rw [one more w hw, hr] at hz
      exact (Option.some.inj hz).symm

theorem lookupName_reads (names : List (Ident × Value)) (r : OperandName) (x : Ident) :
    Reads names [x] r (fun ns v => ns.lookup x = some v) (lookupName names x) := by
  cases hx : names.lookup x with
  | some v =>
    exact .goesOn v hx (fun more w hw => by simpa [List.lookup_append, hx, eq_comm] using hw)
      fun k => by simp [lookupName, hx]
  | none => exact .faults x (by simp) hx fun k => by simp [lookupName, hx]

theorem atomValue_reads (names : List (Ident × Value)) (r : OperandName) (a : Atom) :
    Reads names (atomNames a) r (fun ns v => AtomMeans ns a v) (atomValue names a) := by
  cases a with
  | lit v => exact .goesOn v rfl (fun _ _ h => h) fun _ => rfl
  | bound x => exact lookupName_reads names r x

theorem bytesValue_reads (names : List (Ident × Value)) (r : OperandName) (l : List Atom) :
    Reads names (l.flatMap atomNames) r
      (fun ns bs => List.Forall₂ (fun a b => AtomMeans ns a (.num (BitVec.toNat b))) l bs) (bytesValue names r l) := by
  induction l with
  | nil => exact .goesOn [] .nil (fun _ z h => by simpa using h) fun _ => rfl
  | cons a l ih =>
    refine Reads.of_iff (((atomValue_reads names r a).typed (asNumber 8)).bind fun b => ih.map (b :: ·)) ?_
    intro ns bs
    simp only [asNumber_iff]
    constructor
    · rintro ⟨b, ⟨v, hv, rfl⟩, bs', h, rfl⟩
      exact .cons hv h
    · rintro (_ | ⟨hv, h⟩)
      exact ⟨_, ⟨_, hv, rfl⟩, _, h, rfl⟩

/-- R94: everything reading the value a line writes for an operand can do. -/
theorem sourceValue_reads (names : List (Ident × Value)) (r : OperandName) (src : Source) :
    Reads names (sourceNames src) r (fun ns v => SourceMeans ns src v) (sourceValue names r src) := by
  cases src with
  | lit v => exact .goesOn v rfl (fun _ _ h => h) fun _ => rfl
  | bound x => exact lookupName_reads names r x
  | bytes l =>
    refine ((bytesValue_reads names r l).map Value.bytes).of_iff fun ns v => ?_
    exact ⟨fun ⟨bs, h, e⟩ => ⟨bs, e, h⟩, fun ⟨bs, e, h⟩ => ⟨bs, h, e⟩⟩
  | attr b d p s f t =>
    have h := ((atomValue_reads names r b).typed (asNumber 32)).bind fun b' =>
      ((atomValue_reads names r d).typed (asNumber 8)).bind fun d' =>
      ((atomValue_reads names r p).typed asParity).bind fun p' =>
      ((atomValue_reads names r s).typed asStopBits).bind fun s' =>
      ((atomValue_reads names r f).typed (asNumber 32)).bind fun f' =>
      ((atomValue_reads names r t).typed (asNumber 32)).map fun t' => Value.attr
        { baud := b', dataBits := d', parity := p', stopBits := s', rxFifoDepth := f', timeout := t' }
    have used : sourceNames (.attr b d p s f t)
        = atomNames b ++ (atomNames d ++ (atomNames p ++ (atomNames s ++ (atomNames f ++ atomNames t)))) := by
      simp [sourceNames]
    rw [used]
    refine h.of_iff fun ns v => ?_
    simp only [asNumber_iff, asParity_iff, asStopBits_iff, SourceMeans]
    constructor
    · rintro ⟨_, ⟨_, hb, rfl⟩, _, ⟨_, hd, rfl⟩, _, ⟨_, hp, rfl⟩, _, ⟨_, hs, rfl⟩, _, ⟨_, hf, rfl⟩, _, ⟨_, ht, rfl⟩, rfl⟩
      exact ⟨_, rfl, hb, hd, hp, hs, hf, ht⟩
    · rintro ⟨a, rfl, hb, hd, hp, hs, hf, ht⟩
      exact ⟨_, ⟨_, hb, rfl⟩, _, ⟨_, hd, rfl⟩, _, ⟨_, hp, rfl⟩, _, ⟨_, hs, rfl⟩, _, ⟨_, hf, rfl⟩, _, ⟨_, ht, rfl⟩, rfl⟩

/-- A source that means a value uses only names that hold one. -/
theorem lookup_of_sourceMeans {names : List (Ident × Value)} {src : Source} {v : Value} (h : SourceMeans names src v)
    {x : Ident} (hx : x ∈ sourceNames src) : names.lookup x ≠ none := by
  have atom {a : Atom} {w : Value} (ha : AtomMeans names a w) (hx : x ∈ atomNames a) : names.lookup x ≠ none := by
    cases a with
    | lit u => cases hx
    | bound y =>
      obtain rfl : x = y := by simpa [atomNames] using hx
      simp [show names.lookup x = some w from ha]
  cases src with
  | lit w => cases hx
  | bound y =>
    obtain rfl : x = y := by simpa [sourceNames] using hx
    simp [show names.lookup x = some v from h]
  | bytes l =>
    obtain ⟨bs, -, hf⟩ := h
    obtain ⟨a, ha, hxa⟩ := List.mem_flatMap.1 hx
    clear hx
    induction hf with
    | nil => cases ha
    | cons hb _ ih =>
      obtain rfl | ha := List.mem_cons.1 ha
      · exact atom hb hxa
      · exact ih ha
  | attr b d p s f t =>
    obtain ⟨a, -, hb, hd, hp, hs, hf, ht⟩ := h
    simp only [sourceNames, List.mem_flatMap, List.mem_cons, List.not_mem_nil, or_false] at hx
    obtain ⟨c, rfl | rfl | rfl | rfl | rfl | rfl, hxc⟩ := hx
    exacts [atom hb hxc, atom hd hxc, atom hp hxc, atom hs hxc, atom hf hxc, atom ht hxc]

/-- A source means one value. -/
theorem sourceMeans_unique {names : List (Ident × Value)} {src : Source} {v w : Value} (hv : SourceMeans names src v)
    (hw : SourceMeans names src w) : v = w := by
  cases sourceValue_reads names .req src with
  | goesOn y h one hk => rw [one [] v (by simpa using hv), one [] w (by simpa using hw)]
  | faults x hx h hk => exact absurd h (lookup_of_sourceMeans hv hx)
  | refuses h hk => exact absurd hv (by simpa using h [] v)

/-- R21, R93, R94: everything loading a line's operands can do: all registers given hold what is written for them, the
others what they held; or a name used holds no value; or a value cannot stand in its register. -/
theorem loadArgs_cases (names : List (Ident × Value)) (args : List (OperandName × Source))
    (hn : (args.map Prod.fst).Nodup) (o : Operands) :
    (∃ o', (∀ k, loadArgs names args o k = k o')
        ∧ (∀ q ∈ args, ∃ v, SourceMeans names q.2 v ∧ o'.value q.1 = some v)
        ∧ ∀ r ∉ args.map Prod.fst, o'.value r = o.value r)
    ∨ (∃ q ∈ args, ∃ x ∈ sourceNames q.2, names.lookup x = none
        ∧ ∀ k, loadArgs names args o k = .fault (.nameHoldsNoValue x))
    ∨ (∃ q ∈ args, (∀ more, ¬ FitsRegister (names ++ more) q.1 q.2)
        ∧ ∀ k, loadArgs names args o k = .refused (.operandIllTyped q.1)) := by
  induction args generalizing o with
  | nil => exact .inl ⟨o, fun _ => rfl, by simp, fun _ _ => rfl⟩
  | cons a args ih =>
    obtain ⟨r, src⟩ := a
    simp only [List.map_cons, List.nodup_cons] at hn
    cases sourceValue_reads names r src with
    | faults x hx h hk => exact .inr (.inl ⟨_, List.mem_cons_self .., x, hx, h, fun k => hk _⟩)
    | refuses h hk =>
      exact .inr (.inr ⟨_, List.mem_cons_self .., fun more ⟨v, _, hv, _⟩ => h more v hv, fun k => hk _⟩)
    | goesOn v h one hk =>
      cases hl : o.load r v with
      | none =>
        refine .inr (.inr ⟨_, List.mem_cons_self .., fun more ⟨w, o', hw, ho⟩ => ?_, fun k => ?_⟩)
        · obtain ⟨o'', ho'⟩ := load_of_value (one more w hw ▸ ho) o
          simp [hl] at ho'
        · simp [loadArgs, hk, typed, hl]
      | some o1 =>
        have hgo : ∀ k, loadArgs names ((r, src) :: args) o k = loadArgs names args o1 k := fun k => by
          simp [loadArgs, hk, typed, hl]
        simp only [hgo]
        obtain ⟨o', h1, h2, h3⟩ | ⟨q, hq, rest⟩ | ⟨q, hq, rest⟩ := ih hn.2 o1
        · refine .inl ⟨o', h1, ?_, fun p hp => ?_⟩
          · intro q hq
            obtain rfl | hq := List.mem_cons.1 hq
            · exact ⟨v, h, (h3 r hn.1).trans (load_value hl)⟩
            · exact h2 q hq
          · simp only [List.map_cons, List.mem_cons, not_or] at hp
            exact (h3 p hp.2).trans (load_other hl hp.1)
        · exact .inr (.inl ⟨q, List.mem_cons_of_mem _ hq, rest⟩)
        · exact .inr (.inr ⟨q, List.mem_cons_of_mem _ hq, rest⟩)

/-- Operand registers that were loaded reach the operation. -/
theorem loadArgs_next {names : List (Ident × Value)} {args : List (OperandName × Source)} {o : Operands}
    {k : Operands → Out} {t : State} (h : loadArgs names args o k = .next t) : ∃ o', k o' = .next t := by
  induction args generalizing o with
  | nil => exact ⟨o, h⟩
  | cons a args ih =>
    obtain ⟨r, src⟩ := a
    simp only [loadArgs] at h
    cases sourceValue_reads names r src with
    | goesOn v _ _ hk =>
      simp only [hk, typed] at h
      split at h
      · exact ih h
      · cases h
    | faults x _ _ hk => simp [hk] at h
    | refuses _ hk => simp [hk] at h

/-! ### Names of a line -/

theorem lookup_filter_self (names : List (Ident × Value)) (x : Ident) :
    (names.filter (fun b => b.1 != x)).lookup x = none := by
  simpa [List.lookup_eq_none_iff] using fun a _ _ (h : ¬ a = x) => Ne.symm h

theorem lookup_filter_other (names : List (Ident × Value)) {x y : Ident} (h : y ≠ x) :
    (names.filter (fun b => b.1 != x)).lookup y = names.lookup y := by
  induction names with
  | nil => rfl
  | cons a names ih =>
    obtain ⟨z, v⟩ := a
    by_cases hz : z = x
    · subst hz
      simp [List.lookup_cons, beq_false_of_ne h, ih]
    · by_cases hy : y = z <;> simp_all [List.lookup_cons]

/-- R93: a name that no result goes to is as before. -/
theorem bindResults_lookup_other (res : Results) (x : Ident) (rs : List ResultName) (outs : List (Option Ident))
    (names : List (Ident × Value)) (h : ∀ r, (r, some x) ∉ rs.zip outs) :
    (bindResults res rs outs names).lookup x = names.lookup x := by
  induction rs generalizing outs names with
  | nil => cases outs <;> rfl
  | cons r rs ih =>
    match outs with
    | [] => rfl
    | none :: outs => exact ih outs names fun q hq => h q (by simp [hq])
    | some y :: outs =>
      have hxy : x ≠ y := fun e => h r (by simp [e])
      have hr := fun q (hq : (q, some x) ∈ rs.zip outs) => h q (by simp [hq])
      simp only [bindResults]
      split <;> rw [ih outs _ hr] <;> simp [List.lookup_cons, beq_false_of_ne hxy, lookup_filter_other _ hxy]

/-- R93: a name a result goes to, and no later one, holds that result, or nothing where the result holds no value. -/
theorem bindResults_lookup_last (res : Results) (x : Ident) (rs : List ResultName) (outs : List (Option Ident))
    (names : List (Ident × Value)) (k : Nat) (r : ResultName) (h : (rs.zip outs)[k]? = some (r, some x))
    (hl : ∀ j q, k < j → (rs.zip outs)[j]? ≠ some (q, some x)) :
    (bindResults res rs outs names).lookup x = res.value r := by
  induction rs generalizing outs names k with
  | nil => simp at h
  | cons q rs ih =>
    match outs with
    | [] => simp at h
    | o :: outs =>
      cases k with
      | zero =>
        simp only [List.zip_cons_cons, List.getElem?_cons_zero, Option.some.injEq, Prod.mk.injEq] at h
        obtain ⟨rfl, rfl⟩ := h
        have hr : ∀ p, (p, some x) ∉ rs.zip outs := fun p hp => by
          obtain ⟨j, hj⟩ := List.mem_iff_getElem?.1 hp
          exact hl (j + 1) p (by omega) (by simpa using hj)
        simp only [bindResults]
        split <;> rw [bindResults_lookup_other res x rs outs _ hr] <;> simp [*, lookup_filter_self]
      | succ k =>
        have h' : (rs.zip outs)[k]? = some (r, some x) := by simpa using h
        have hl' : ∀ j q, k < j → (rs.zip outs)[j]? ≠ some (q, some x) := fun j p hj => by
          simpa using hl (j + 1) p (by omega)
        cases o with
        | none => exact ih outs names k h' hl'
        | some y =>
          simp only [bindResults]
          split <;> exact ih outs _ k h' hl'

/-- R25, R93: delivering an operation's answer delivers its results. -/
theorem deliver_runsAs (i : Instr) (o : Out) : RunsAs i o (deliver i o) := by
  cases o with
  | fault f => rfl
  | refused r => rfl
  | next t =>
    by_cases hp : t.pos = .idle
    · refine ⟨{ t with names := bindResults t.res i.results t.outs t.names, outs := [] }, by simp [deliver, hp],
        fun h => absurd hp h, fun _ => ⟨rfl, ?_, ?_⟩⟩
      · exact fun k r x h hl => bindResults_lookup_last t.res x _ _ _ k r h hl
      · exact fun x h => bindResults_lookup_other t.res x _ _ _ h
    · exact ⟨t, by simp [deliver, hp], fun _ => rfl, fun h => absurd h hp⟩

/-- Binding results to names changes only the names. -/
theorem deliver_next {i : Instr} {o : Out} {t : State} (h : deliver i o = .next t) :
    ∃ u, o = .next u ∧ t = { u with names := t.names, outs := t.outs } := by
  cases o with
  | next u =>
    refine ⟨u, rfl, ?_⟩
    simp only [deliver] at h
    split at h <;> cases h <;> rfl
  | fault f => cases h
  | refused r => cases h

end Sys2Proof.Machine
end

