-- ==== Sys2Proof/Laws/Codec.lean ====
section
/-! SUPPORT. What the codec's, the calculator's and the gate's functions answer, said once for each. -/

namespace Sys2Proof.Machine

theorem encData_isSome (d : Byte) : (encData d).isSome = decide (5 ≤ d.toNat ∧ d.toNat ≤ 8) := by
  unfold encData; split <;> simp_all

theorem encPar_isSome (p : Parity) : (encPar p).isSome = decide (p ≠ .default) := by cases p <;> rfl

theorem encStop_isSome (s : StopBits) : (encStop s).isSome = decide (s ≠ .default) := by cases s <;> rfl

/-- R143: the packed byte has bits 7:6 clear. -/
theorem lcrPack_high (dc : BitVec 2) (sc : BitVec 1) (pc : BitVec 3) : lcrPack dc sc pc &&& 0xC0#8 = 0#8 := by
  have h : 0x3F#8 &&& 0xC0#8 = 0#8 := by decide
  rw [lcrPack, BitVec.and_assoc, h, BitVec.and_zero]

/-- R99: an encoded byte has bits 7:6 clear. -/
theorem lcrEnc_high {d : Byte} {p : Parity} {s : StopBits} {l : Byte} (h : lcrEnc d p s = some l) :
    l &&& 0xC0#8 = 0#8 := by
  unfold lcrEnc at h
  split at h
  · cases h; exact lcrPack_high _ _ _
  · cases h

/-- R152: what a resolution that succeeds packs. -/
theorem attrResolve_resolved {c : Cfg} {req res : Attr} {live : Option Byte} {l : Byte}
    (h : attrResolve c req live = .resolved res l) :
    lcrEnc res.dataBits res.parity res.stopBits = some l ∧ res.baud = resolveBaud c req.baud
      ∧ res.rxFifoDepth = req.rxFifoDepth ∧ res.timeout = req.timeout := by
  unfold attrResolve at h
  simp only at h
  repeat' split at h
  all_goals cases h
  exact ⟨‹_›, rfl, rfl, rfl⟩

/-- R201, R204: a divisor is computed only inside the domain. -/
theorem divCalc_some {e : Nat} {b d : U32} (h : divCalc e b = some d) :
    1 ≤ b.toNat ∧ 16 * b.toNat ≤ maxU32 := by
  unfold divCalc at h
  split at h
  · assumption
  · cases h

theorem lcrMatch_eq_mod (a b : Byte) : lcrMatch a b = decide (a.toNat % 64 = b.toNat % 64) := by
  have h : ∀ v : Byte, (v &&& 0x3F#8).toNat = v.toNat % 64 := by decide
  unfold lcrMatch
  congr 1
  rw [← h a, ← h b]
  exact propext BitVec.toNat_inj.symm

theorem divHi_eq (d : U32) : divHi d = BitVec.ofNat 8 (d.toNat / 256) := by
  apply BitVec.eq_of_toNat_eq
  simp [divHi, Nat.shiftRight_eq_div_pow]

theorem divLo_eq (d : U32) : divLo d = BitVec.ofNat 8 d.toNat := by
  apply BitVec.eq_of_toNat_eq
  simp [divLo]

theorem divJoin_toNat (hi lo : Byte) : (divJoin hi lo).toNat = hi.toNat * 256 + lo.toNat := by
  simp [divJoin]
  omega

theorem txEmpty_bits : ∀ l : Byte, txEmpty l = (l.getLsbD 5 && l.getLsbD 6) := by decide

theorem pollRts_eq : ∀ (m : Byte) (r : Bool), pollRts m r = if r then m &&& 0xFD#8 else m ||| 0x02#8 := by decide

theorem ctlMcr_eq (g : Signals) (mask : U32) (m : Byte) :
    ctlMcr g mask m = (m &&& 0xFC#8) ||| (if mask &&& g.dtr = 0#32 then 0x00#8 else 0x01#8)
      ||| (if mask &&& g.rts = 0#32 then 0x00#8 else 0x02#8) := by
  unfold ctlMcr
  dsimp only
  split_ifs <;> (revert m; decide)

end Sys2Proof.Machine
end

