-- ==== Sys2Proof/Laws/PerInstr.lean ====
section
/-! SUPPORT. Laws about every operation as syntax, one lemma for each constructor. -/

namespace Sys2Proof.Laws.Selector

open Sys2Proof

/-- R90, R91: the selector's high nibble names the operation's family, and every operation is in the table. -/
def Statement (i : Instr) : Prop :=
  (encodeSelector i).extractLsb' 4 4 = familyNibble i.family ∧ i.wf = true

theorem encData : Statement .encData := by unfold Statement; decide
theorem encPar : Statement .encPar := by unfold Statement; decide
theorem encStop : Statement .encStop := by unfold Statement; decide
theorem lcrPack : Statement .lcrPack := by unfold Statement; decide
theorem lcrEnc : Statement .lcrEnc := by unfold Statement; decide
theorem decData : Statement .decData := by unfold Statement; decide
theorem decPar : Statement .decPar := by unfold Statement; decide
theorem decStop : Statement .decStop := by unfold Statement; decide
theorem fifoDepth : Statement .fifoDepth := by unfold Statement; decide
theorem lcrMatch : Statement .lcrMatch := by unfold Statement; decide
theorem attrResolve : Statement .attrResolve := by unfold Statement; decide
theorem clkScale : Statement .clkScale := by unfold Statement; decide
theorem divCalc : Statement .divCalc := by unfold Statement; decide
theorem divCompute : Statement .divCompute := by unfold Statement; decide
theorem divSplit : Statement .divSplit := by unfold Statement; decide
theorem divJoin : Statement .divJoin := by unfold Statement; decide
theorem gateTx : Statement .gateTx := by unfold Statement; decide
theorem gateTxempty : Statement .gateTxempty := by unfold Statement; decide
theorem gateRxready : Statement .gateRxready := by unfold Statement; decide
theorem gatePollrts : Statement .gatePollrts := by unfold Statement; decide
theorem ctlSet : Statement .ctlSet := by unfold Statement; decide
theorem ctlGet : Statement .ctlGet := by unfold Statement; decide
theorem seqInit : Statement .seqInit := by unfold Statement; decide
theorem seqWrite : Statement .seqWrite := by unfold Statement; decide
theorem seqRead : Statement .seqRead := by unfold Statement; decide
theorem seqPoll : Statement .seqPoll := by unfold Statement; decide
theorem seqSetctl : Statement .seqSetctl := by unfold Statement; decide
theorem seqGetctl : Statement .seqGetctl := by unfold Statement; decide
theorem seqSetattr : Statement .seqSetattr := by unfold Statement; decide

end Sys2Proof.Laws.Selector
end

