-- ==== Sys2Proof/Tests/Slice0.lean ====
section
/-! SUPPORT. Tests: expected results are the spec's own vectors (95_test_vectors.md) and tables. Witnesses: for each
statement with hypotheses, states and operands that meet them. -/

open Sys2Proof Sys2Proof.Machine

namespace Sys2Proof.Tests

/-! ### Helpers -/

/-- A state that may start an operation, with these operands. -/
def ready (o : Operands) : State := { State.reset with variant := .miniUart16550, opr := o }

theorem ready_Ready (o : Operands) : (ready o).Ready :=
  ⟨rfl, (by decide : Config.examplePlatform.wf = true), rfl⟩

/-- The configuration with hardware flow control. -/
def flow (detectCable : Bool) : Cfg := { Config.examplePlatform with hwFlow := true, detectCable := detectCable }

/-- A state inside an operation, with LCR, DLM, DLL and MCR holding values and one draw of each kind laid out. -/
def inside (p : Position) (o : Operands) : State :=
  { ready o with
    pos := p
    uart := { lcr := .holds 0x03#8, dlm := .holds 0x00#8, dll := .holds 0x1A#8, mcr := .holds 0x03#8 }
    env := { lsr := [0x60#8], msr := [0x20#8], rbr := [0x5A#8], clkDiv := [0#32] } }

def results : Out → Option Results
  | .next t => some t.res
  | .fault _ => none
  | .refused _ => none

def position : Out → Option Position
  | .next t => some t.pos
  | .fault _ => none
  | .refused _ => none

def history : Out → Option (List Event)
  | .next t => some t.events
  | .fault _ => none
  | .refused _ => none

def answers : Out → Bool
  | .next _ => true
  | .fault _ => false
  | .refused _ => false

/-- A request of the spec's vectors. -/
def request (baud : U32) (d : Byte) (p : Parity) (b : StopBits) : Attr :=
  { baud := baud, dataBits := d, parity := p, stopBits := b, rxFifoDepth := 7#32, timeout := 50#32 }

/-! ### Decoding (R91, R106) -/

theorem test_decode_codec :
    [0x01#8, 0x02#8, 0x03#8, 0x04#8, 0x05#8, 0x06#8, 0x07#8, 0x08#8, 0x09#8, 0x0A#8, 0x0B#8].map decodeSelector
      = [.ok .encData, .ok .encPar, .ok .encStop, .ok .lcrPack, .ok .lcrEnc, .ok .decData, .ok .decPar, .ok .decStop,
         .ok .fifoDepth, .ok .lcrMatch, .ok .attrResolve] := rfl

theorem test_decode_divisor :
    [0x10#8, 0x11#8, 0x12#8, 0x13#8, 0x14#8].map decodeSelector
      = [.ok .clkScale, .ok .divCalc, .ok .divCompute, .ok .divSplit, .ok .divJoin] := rfl

theorem test_decode_gate :
    [0x20#8, 0x21#8, 0x22#8, 0x23#8, 0x24#8, 0x25#8].map decodeSelector
      = [.ok .gateTx, .ok .gateTxempty, .ok .gateRxready, .ok .gatePollrts, .ok .ctlSet, .ok .ctlGet] := rfl

theorem test_decode_sequencer :
    [0x30#8, 0x31#8, 0x32#8, 0x33#8, 0x34#8, 0x35#8, 0x36#8].map decodeSelector
      = [.ok .seqInit, .ok .seqWrite, .ok .seqRead, .ok .seqPoll, .ok .seqSetctl, .ok .seqGetctl, .ok .seqSetattr] := rfl

/-- The ends of each range of R106's list. -/
theorem test_decode_refuses_reserved :
    ∀ op ∈ [0x00#8, 0x0C#8, 0x0F#8, 0x15#8, 0x1F#8, 0x26#8, 0x2F#8, 0x37#8, 0xFF#8],
      decodeSelector op = .error (.unlisted op) := by decide

/-- The spellings are those of R91, in its order. -/
theorem test_encode_in_table_order :
    Instr.all.map (fun i => (encodeSelector i).toNat)
      = [1, 2, 3, 4, 5, 6, 7, 8, 9, 10, 11, 16, 17, 18, 19, 20, 32, 33, 34, 35, 36, 37, 48, 49, 50, 51, 52, 53, 54] := by
  decide

theorem test_decodeTableWord : decodeTableWord 8 0x36 = some .seqSetattr ∧ decodeTableWord 8 0x37 = none := by decide

/-! ### WellFormed (R10, R65, R93) -/

theorem test_wf_accepts_example : Config.examplePlatform.wf = true := by decide

/-- R10 (a): a default baud rate of 0, and one of 2^28, whose sixteenfold passes 2^32 - 1. -/
theorem test_wf_refuses_baud :
    Cfg.baudInDomain { Config.examplePlatform with defaultBaud := 0#32 } = false
    ∧ Cfg.baudInDomain { Config.examplePlatform with defaultBaud := 268435456#32 } = false
    ∧ Cfg.baudInDomain { Config.examplePlatform with defaultBaud := 268435455#32 } = true := by decide

/-- R10 (b). -/
theorem test_wf_refuses_stride : Cfg.wf { Config.examplePlatform with stride := 0 } = false := by decide

/-- R10 (c): the last register one byte past the address space, and just inside it. -/
theorem test_wf_refuses_addresses :
    Cfg.addressesFit { Config.examplePlatform with uartBase := 2 ^ 64 - 28 } = false
    ∧ Cfg.addressesFit { Config.examplePlatform with uartBase := 2 ^ 64 - 29 } = true := by decide

/-- R10 (d). -/
theorem test_wf_refuses_clockRate : Cfg.wf { Config.examplePlatform with clockRate := 2 ^ 32 } = false := by decide

/-- R65. -/
theorem test_wf_refuses_clkDivAddr : Cfg.wf { Config.examplePlatform with clkDivAddr := 0x20000002 } = false := by decide

/-- R9. -/
theorem test_wf_refuses_wide_clkDivAddr : Cfg.wf { Config.examplePlatform with clkDivAddr := 2 ^ 64 } = false := by
  decide

/-- Log 7. -/
theorem test_wf_refuses_equal_offsets :
    Cfg.wf { Config.examplePlatform with offsets := { mcr := 3 } } = false := by decide

/-- R93: an operand missing, one given twice, and one that is not the operation's; `liveLcr` may be left out. -/
theorem test_wf_refuses_args :
    Instr.argsGiven .lcrMatch [(.a, .lit (.num 0))] = false
    ∧ Instr.argsGiven .lcrMatch [(.a, .lit (.num 0)), (.b, .lit (.num 0)), (.a, .lit (.num 0))] = false
    ∧ Instr.argsGiven .lcrMatch [(.a, .lit (.num 0)), (.b, .lit (.num 0)), (.mcr, .lit (.num 0))] = false
    ∧ Instr.argsGiven .attrResolve [(.req, .bound 0)] = true := by decide

/-- R93: a program binds as many results as the operation has. -/
theorem test_wf_refuses_outs :
    Instr.outsFit .divSplit [some 0] = false ∧ Instr.outsFit .divSplit [some 0, none] = true := by decide

/-! ### Codec (95_test_vectors.md 2.1) -/

theorem test_encData :
    results (exec .encData (ready { dataBits := some 7#8 })) = some { st := some .success, dataCode := some 2#2 } := by
  decide

theorem test_encData_rejects_nine :
    results (exec .encData (ready { dataBits := some 9#8 })) = some { st := some .invalidParameter } := by decide

theorem test_encPar :
    results (exec .encPar (ready { parity := some .even })) = some { st := some .success, parCode := some 3#3 } := by
  decide

theorem test_encStop :
    results (exec .encStop (ready { stopBits := some .two })) = some { st := some .success, stopCode := some 1#1 } := by
  decide

theorem test_lcrPack :
    results (exec .lcrPack (ready { dataCode := some 3#2, stopCode := some 0#1, parCode := some 3#3 }))
      = some { lcr := some 0x1B#8 } := by decide

theorem test_lcrEnc :
    results (exec .lcrEnc (ready { dataBits := some 5#8, parity := some .mark, stopBits := some .oneAndHalf }))
      = some { st := some .success, lcr := some 0x2C#8 } := by decide

theorem test_lcrEnc_rejects_default :
    results (exec .lcrEnc (ready { dataBits := some 8#8, parity := some .default, stopBits := some .one }))
      = some { st := some .invalidParameter } := by decide

theorem test_decData :
    results (exec .decData (ready { lcr := some 0x83#8 })) = some { dataBits := some 8#8 } := by decide

theorem test_decPar :
    results (exec .decPar (ready { lcr := some 0x2C#8 })) = some { st := some .success, parity := some .mark } := by
  decide

theorem test_decPar_code_two :
    results (exec .decPar (ready { lcr := some 0xD3#8 })) = some { st := some .invalidParameter } := by decide

/-- The count is the operand's, not the byte's. -/
theorem test_decStop :
    results (exec .decStop (ready { lcr := some 0x2C#8, dataBits := some 8#8 })) = some { stopBits := some .two }
    ∧ results (exec .decStop (ready { lcr := some 0x2C#8, dataBits := some 5#8 }))
      = some { stopBits := some .oneAndHalf } := by decide

theorem test_fifoDepth :
    results (exec .fifoDepth (ready { fcr := some 0xE1#8, extFifoSize := some 128#32 })) = some { depth := some 128#32 }
    ∧ results (exec .fifoDepth (ready { fcr := some 0x20#8, extFifoSize := some 64#32 }))
      = some { depth := some 1#32 } := by decide

theorem test_lcrMatch :
    results (exec .lcrMatch (ready { a := some 0x5B#8, b := some 0x1B#8 })) = some { eq := some true } := by decide

/-- The sixth row of the spec's table: the stop bits are decoded with the resolved data bits. -/
theorem test_attrResolve :
    results (exec .attrResolve (ready { req := some (request 9600#32 0#8 .none .default), liveLcr := some 0x04#8 }))
      = some { st := some .success, res := some (request 9600#32 5#8 .none .oneAndHalf), lcr := some 0x04#8,
               allDefault := some false } := by decide

/-- The third row: no default line setting, so `liveLcr` is not read. -/
theorem test_attrResolve_without_live :
    results (exec .attrResolve (ready { req := some (request 0#32 7#8 .odd .one) }))
      = some { st := some .success, res := some (request 115200#32 7#8 .odd .one), lcr := some 0x0A#8,
               allDefault := some false } := by decide

/-! ### Divisor (2.2) -/

theorem test_clkScale :
    results (exec .clkScale (ready { base := some 48000000#32, divReg := some 0xFF001000#32 }))
      = some { effClk := some 192000000 } := by decide

theorem test_clkScale_unscaled :
    results (exec .clkScale (ready { base := some 48000000#32, divReg := some 0x01000000#32 }))
      = some { effClk := some 48000000 } := by decide

/-- A tie rounds up. -/
theorem test_divCalc :
    results (exec .divCalc (ready { effClk := some 48000000, baud := some 9600#32 }))
      = some { divisor := some 313#32 } := by decide

theorem test_divCalc_refuses_quotient :
    exec .divCalc (ready { effClk := some 68719476736, baud := some 1#32 }) = .refused .outsideDivisorDomain :=
  rfl

theorem test_divCompute :
    results (exec .divCompute { ready { baud := some 115200#32 } with env := { clkDiv := [0x00001000#32] } })
      = some { divisor := some 104#32 }
    ∧ history (exec .divCompute { ready { baud := some 115200#32 } with env := { clkDiv := [0x00001000#32] } })
      = some [{ kind := .read, address := 0x20000000, width := 4, value := 0x1000 }] := by decide

theorem test_divSplit :
    results (exec .divSplit (ready { divisor := some 3000000#32 })) = some { hi := some 0xC6#8, lo := some 0xC0#8 } := by
  decide

theorem test_divJoin :
    results (exec .divJoin (ready { hi := some 0x04#8, lo := some 0xE2#8 })) = some { divisor16 := some 1250#16 } := by
  decide

/-! ### Gate (2.3) -/

theorem test_gateTx :
    results (exec .gateTx { ready {} with cfg := flow false, env := { msr := [0xEF#8] } })
      = some { writable := some false }
    ∧ history (exec .gateTx { ready {} with cfg := flow false, env := { msr := [0xEF#8] } })
      = some [{ kind := .read, address := 0x10000018, width := 1, value := 0xEF }] := by decide

theorem test_gateTx_cable :
    results (exec .gateTx { ready {} with cfg := flow true, env := { msr := [0x10#8] } })
      = some { writable := some false } := by decide

theorem test_gateTxempty :
    results (exec .gateTxempty (ready { lsr := some 0x20#8 })) = some { empty := some false }
    ∧ results (exec .gateTxempty (ready { lsr := some 0x61#8 })) = some { empty := some true } := by decide

theorem test_gateRxready :
    results (exec .gateRxready (ready { lsr := some 0x9E#8 })) = some { ready := some false } := by decide

theorem test_gatePollrts :
    results (exec .gatePollrts (ready { mcr := some 0xFF#8, ready := some true })) = some { mcrOut := some 0xFD#8 } := by
  decide

theorem test_ctlSet :
    results (exec .ctlSet (ready { mask := some 0x00000002#32, mcr := some 0x11#8 }))
      = some { st := some .success, mcrOut := some 0x12#8 } := by decide

theorem test_ctlSet_rejects_cts :
    results (exec .ctlSet (ready { mask := some 0x00000010#32, mcr := some 0#8 })) = some { st := some .unsupported } := by
  decide

theorem test_ctlGet :
    results (exec .ctlGet { ready { msr := some 0xB0#8, mcr := some 0x03#8, lsr := some 0x60#8 } with cfg := flow false })
      = some { st := some .success, mask := some 0x000043B3#32 } := by decide

/-! ### Sequencer (2.4): one label each -/

/-- S1, I2: the latch toggle keeps the line settings. -/
theorem test_init_latch_toggle :
    history (exec .seqInit (inside (.init (.i2 { tDiv := 26#32, tLcr := 3#8 } 0x43#8 true)) {}))
      = some [{ kind := .write, address := 0x1000000C, width := 1, value := 0xC3 }] := by decide

/-- S4, I7: one of the two bits is not enough. -/
theorem test_init_drain_waits :
    position (exec .seqInit { inside (.init (.i7 { tDiv := 26#32, tLcr := 3#8 })) {} with env := { lsr := [0x40#8] } })
      = some (.init (.i7 { tDiv := 26#32, tLcr := 3#8 })) := by decide

/-- S6, W7: a closed gate keeps the byte. -/
theorem test_write_gate_closed :
    position (exec .seqWrite
        { inside (.write (.w7 { n := 1, depth := 16, k := 0 } 0x41#8 [])) {} with cfg := flow false })
      = some (.write (.w7 { n := 1, depth := 16, k := 0 } 0x41#8 [])) := by decide

/-- S6, W8. -/
theorem test_write_sends_byte :
    history (exec .seqWrite (inside (.write (.w8 { n := 1, depth := 16, k := 0 } 0x41#8 [])) {}))
      = some [{ kind := .write, address := 0x10000000, width := 1, value := 0x41 }] := by decide

/-- S11, RD3: the base with RTS set. -/
theorem test_read_asserts_rts :
    history (exec .seqRead { inside (.read (.rd3 { count := 1, base := 0x01#8, buf := [] })) {} with cfg := flow false })
      = some [{ kind := .write, address := 0x10000010, width := 1, value := 0x03 }] := by decide

/-- S11, RD5. -/
theorem test_read_takes_byte :
    position (exec .seqRead (inside (.read (.rd5 { count := 1, base := 0x01#8, buf := [] })) {}))
      = some (.read (.rd1 { count := 1, base := 0x01#8, buf := [0x5A#8] })) := by decide

/-- S13, P2. -/
theorem test_poll_sets_rts :
    history (exec .seqPoll { inside (.poll (.p2 false 0x01#8)) {} with cfg := flow false })
      = some [{ kind := .write, address := 0x10000010, width := 1, value := 0x03 }] := by decide

/-- S19: a rejected mask makes no access. -/
theorem test_setctl_rejects :
    results (exec .seqSetctl (inside (.setctl .s0) { mask := some 0x80000000#32 })) = some { st := some .unsupported }
    ∧ history (exec .seqSetctl (inside (.setctl .s0) { mask := some 0x80000000#32 })) = some [] := by decide

/-- S19, S1: mask 0x4000 on MCR 0x13. -/
theorem test_setctl_clears_dtr_rts :
    position (exec .seqSetctl { inside (.setctl (.s1 0x4000#32)) {} with uart := { mcr := .holds 0x13#8 } })
      = some (.setctl (.s2 0x10#8)) := by decide

/-- S20, G3. -/
theorem test_getctl_mask :
    results (exec .seqGetctl (inside (.getctl (.g3 0x4F#8 0x1C#8 0x21#8)) {}))
      = some { st := some .success, mask := some 0x40#32 } := by decide

/-- S18, A0: no default line setting, so no LCR read. -/
theorem test_setattr_reads_no_lcr :
    history (exec .seqSetattr (inside (.setattr .a0) { req := some (request 0#32 7#8 .odd .one) })) = some [] := by decide

/-- S14, A1: an all-default request resolves from the live LCR. -/
theorem test_setattr_resolves :
    position (exec .seqSetattr
        (inside (.setattr (.a1 (request 0#32 0#8 .default .default) (some 0x2C#8))) {}))
      = some (.setattr (.a2 (request 115200#32 5#8 .mark .oneAndHalf) 0x2C#8 true)) := by decide

/-! ### Starting, faulting, stepping -/

/-- R6, at reset the variant is not resolved. -/
theorem test_reset_refuses : exec .lcrMatch State.reset = .refused .variantNotMiniUart := rfl

/-- R21. -/
theorem test_missing_operand : exec .divJoin (ready { hi := some 0#8 }) = .fault (.operandHoldsNoValue .lo) := rfl

/-- R22: no ATTR is left when the call has ended. -/
theorem test_attr_ends_with_the_call :
    (match exec .attrResolve (ready { req := some (request 0#32 7#8 .odd .one) }) with
      | .next t => decide (t.opr = {}) | _ => false) = true := by decide

/-- R8. -/
theorem test_busy : exec .gateTx (inside (.poll .p0) {}) = .refused .operationInProgress := rfl

/-- R382: with no operation to start the block waits. -/
theorem test_reset_waits : step State.reset = .next State.reset := rfl

/-- R93: the results of a line go to its names, and a later line uses them (the third and fourth lines of P3). -/
theorem test_program_binds_results :
    (match step { ready {} with program :=
        [.op none 0x13#8 [(.divisor, .lit (.num 1250))] [some 0, some 1],
         .op none 0x14#8 [(.hi, .bound 0), (.lo, .bound 1)] [some 2]] } with
      | .next t => (match step t with | .next u => some u.names | _ => none)
      | _ => none) = some [(2, .num 1250), (1, .num 0xE2), (0, .num 0x04)] := by decide

/-- R95: LATCH.OFF clears bits 7 and 6; WAIT.RXREADY stays until its bit is seen. -/
theorem test_pseudo_operations :
    history (step { ready {} with program := [.pseudo none (.latchOff (.lit (.num 0xFF)))] })
      = some [{ kind := .write, address := 0x1000000C, width := 1, value := 0x3F }]
    ∧ (match step { ready {} with env := { lsr := [0x60#8] }, program := [.pseudo none .waitRxready] } with
        | .next t => t.program.length | _ => 0) = 1 := by decide

/-- R94: a bound name in a byte list and in a record. -/
theorem test_bound_names_in_list_and_record :
    (match step { ready {} with
        names := [(7, .num 0x41)], program := [.op none 0x31#8 [(.buf, .bytes [.bound 7, .lit (.num 0x42)])] [none]] } with
      | .next t => t.opr.buf | _ => none) = some [0x41#8, 0x42#8]
    ∧ (match step { ready {} with
        names := [(7, .num 9600)]
        program := [.op none 0x36#8 [(.req, .attr (.bound 7) (.lit (.num 8)) (.lit (.parity .none)) (.lit (.stopBits .one))
          (.lit (.num 7)) (.lit (.num 50)))] [none, none]] } with
      | .next t => t.opr.req | _ => none) = some (request 9600#32 8#8 .none .one) := by decide

/-- R21: a name that holds no value. -/
theorem test_unbound_name_in_list :
    step { ready {} with program := [.op none 0x31#8 [(.buf, .bytes [.lit (.num 0x42), .bound 7])] [none]] }
      = .fault (.nameHoldsNoValue 7) := rfl

/-- R93: an operand left out. -/
theorem test_step_refuses_ill_formed :
    step { ready {} with program := [.op none 0x0A#8 [(.a, .lit (.num 0))] [none]] } = .refused .lineIllFormed := rfl

/-- R106. -/
theorem test_step_refuses_unlisted :
    step { ready {} with program := [.op none 0x37#8 [] []] } = .refused (.selectorUnlisted 0x37#8) := rfl

/-- Every operation but DIV.COMPUTE, whose answer rests on a free draw, runs as the first after reset. -/
theorem test_withFetchWord_runs :
    ∀ i ∈ Instr.all, i ≠ .divCompute →
      answers (step (State.reset.withFetchWord 8 (encodeSelector i).toNat)) = true := by decide

theorem clkScale_le (c : Cfg) (b : Nat) (r : U32) : clkScale c b r ≤ b + b * c.clkMult * 2 ^ c.fracBits := by
  unfold clkScale
  dsimp only
  split
  · omega
  · exact (Nat.div_le_self _ _).trans (Nat.le_add_left _ _)

theorem divCalc_answers {e : Nat} {b : U32} (h1 : 1 ≤ b.toNat) (h2 : 16 * b.toNat ≤ maxU32)
    (h3 : e / (b.toNat * 16) + 1 ≤ maxU32) : ∃ d, divCalc e b = some d := by
  unfold divCalc
  rw [if_pos ⟨h1, h2⟩]
  dsimp only
  split_ifs
  · exact ⟨_, rfl⟩
  · exact ⟨_, rfl⟩
  · omega

/-- DIV.COMPUTE runs as the first operation after reset, whatever the clock-divider register holds. -/
theorem test_withFetchWord_runs_divCompute : ∃ t, step (State.reset.withFetchWord 8 0x12) = .next t := by
  have he : ∀ r : U32, ∃ d, divCalc (clkScale Config.examplePlatform 48000000 r) 115200#32 = some d := by
    intro r
    have h : clkScale Config.examplePlatform 48000000 r ≤ 48000000 + 48000000 * 4 * 2 ^ 12 := clkScale_le _ _ r
    refine divCalc_answers (by decide) (by decide) ?_
    have hd := Nat.div_le_div_right (c := (115200#32).toNat * 16) h
    have hk : (48000000 + 48000000 * 4 * 2 ^ 12) / ((115200#32).toNat * 16) + 1 ≤ maxU32 := by decide
    omega
  obtain ⟨d, hd⟩ := he (Config.freeWord 0)
  let s : State := { State.reset with variant := .miniUart16550, opr := { baud := some 115200#32 }, outs := [none] }
  have hx : exec .divCompute s = .next { s.drawClkDiv.record (clkDivEvent s.cfg s.drawnClkDiv) with
      opr := {}, res := { divisor := some d } } := by
    have hr : s.Ready := by decide
    simp only [exec, execDivCompute, start_ready hr]
    simp only [s, need_some, computeDivisor, clkDivRead, State.drawnClkDiv, State.drawClkDiv, State.reset,
      State.record, finish]
    have hd' : divCalc (clkScale Config.examplePlatform Config.examplePlatform.clockRate (Config.freeWord 0))
      115200#32 = some d := hd
    rw [hd']
  have hs : step (State.reset.withFetchWord 8 0x12) = deliver .divCompute (exec .divCompute s) := rfl
  rw [hs, hx]
  exact ⟨_, rfl⟩

/-! ### Witnesses: states and operands that meet each statement's hypotheses, at the ends of their ranges -/

theorem witness_EncDataCodesFiveToEight :
    ∀ d ∈ [4#8, 5#8, 8#8, 9#8], (ready { dataBits := some d }).Ready ∧ (ready { dataBits := some d }).opr.dataBits = some d := by
  decide

theorem witness_EncParAndEncStopFollowTables :
    (∀ x ∈ parityTable, (ready { parity := some x.1 }).Ready ∧ (ready { parity := some x.1 }).opr.parity = some x.1)
    ∧ (ready { parity := some .default }).Ready
    ∧ (∀ x ∈ stopTable, (ready { stopBits := some x.1 }).Ready
      ∧ (ready { stopBits := some x.1 }).opr.stopBits = some x.1)
    ∧ (ready { stopBits := some .default }).Ready := by decide

theorem witness_LcrPackLaysOutCodes :
    let s := ready { dataCode := some 3#2, stopCode := some 1#1, parCode := some 7#3 }
    s.Ready ∧ s.opr.dataCode = some 3#2 ∧ s.opr.stopCode = some 1#1 ∧ s.opr.parCode = some 7#3 := by decide

theorem witness_LcrEncValidatesThenPacks :
    (∀ d ∈ [4#8, 5#8, 8#8, 9#8], let s := ready { dataBits := some d, parity := some .mark, stopBits := some .two }
      s.Ready ∧ s.opr.dataBits = some d ∧ s.opr.parity = some .mark ∧ s.opr.stopBits = some .two)
    ∧ (.mark, 5#3) ∈ parityTable ∧ (.two, 1#1) ∈ stopTable
    ∧ (ready { dataBits := some 8#8, parity := some .default, stopBits := some .default }).Ready := by decide

theorem witness_DecParInvertsTable :
    (ready { lcr := some 0x38#8 }).Ready ∧ (.space, (0x38#8).extractLsb' 3 3) ∈ parityTable
    ∧ (ready { lcr := some 0x10#8 }).Ready ∧ (0x10#8).toNat / 8 % 8 ∈ [2, 4, 6]
    ∧ (0x30#8).toNat / 8 % 8 ∈ [2, 4, 6] := by decide

theorem witness_DecDataAndDecStop :
    ∀ d ∈ [0#8, 5#8, 6#8], (ready { lcr := some 0x04#8, dataBits := some d }).Ready
      ∧ (ready { lcr := some 0x04#8, dataBits := some d }).opr.lcr = some 0x04#8
      ∧ (ready { lcr := some 0x04#8, dataBits := some d }).opr.dataBits = some d := by decide

theorem witness_FifoDepthFromControlByte :
    ∀ f ∈ [0x00#8, 0x01#8, 0x20#8, 0x21#8], (ready { fcr := some f, extFifoSize := some 0#32 }).Ready
      ∧ (ready { fcr := some f, extFifoSize := some 0#32 }).opr.fcr = some f := by decide

theorem witness_LcrMatchComparesSixBits : (ready { a := some 0xC0#8, b := some 0x00#8 }).Ready := by decide

/-- A request with two defaults over the live LCR, at the top of the calculator's domain. -/
theorem witness_AttrResolveResolvesRequest :
    let req := request 268435455#32 0#8 .default .two
    let s := ready { req := some req, liveLcr := some 0x3B#8 }
    s.Ready ∧ s.opr.req = some req
    ∧ some 0x3B#8 = (if s.cfg.defaultSource = .liveLcr then s.opr.liveLcr else some s.cfg.lcr)
    ∧ 8#8 = BitVec.ofNat 8 ((0x3B#8).toNat % 4 + 5) ∧ (.space, (0x3B#8).extractLsb' 3 3) ∈ parityTable
    ∧ (.space, 7#3) ∈ parityTable ∧ (.two, 1#1) ∈ stopTable ∧ 16 * (268435455#32).toNat ≤ 2 ^ 32 - 1 := by decide

/-- All explicit, with data bits at both ends, and no live LCR. -/
theorem witness_AttrResolveResolvesRequest_explicit :
    ∀ d ∈ [5#8, 8#8], let s := ready { req := some (request 0#32 d .none .one) }
      s.Ready ∧ s.opr.req = some (request 0#32 d .none .one) ∧ d ≠ 0#8 ∧ 5 ≤ d.toNat ∧ d.toNat ≤ 8
      ∧ 16 * s.cfg.defaultBaud.toNat ≤ 2 ^ 32 - 1 := by decide

theorem witness_AttrResolveFailureLeavesFreeRecord :
    (∀ d ∈ [4#8, 9#8], (ready { req := some (request 9600#32 d .none .one) }).Ready ∧ d ≠ 0#8
      ∧ ¬ (5 ≤ d.toNat ∧ d.toNat ≤ 8))
    ∧ (let s := ready { req := some (request 9600#32 8#8 .default .one), liveLcr := some 0x13#8 }
      s.Ready ∧ (if s.cfg.defaultSource = .liveLcr then s.opr.liveLcr else some s.cfg.lcr) = some 0x13#8
      ∧ (0x13#8).toNat / 8 % 8 ∈ [2, 4, 6]) := by decide

theorem witness_CodecRoundTrip :
    lcrEnc 5#8 .odd .two = some 0x0C#8 ∧ lcrEnc 8#8 .space .oneAndHalf = some 0x3F#8 ∧ decPar 0xFF#8 = some .space := by
  decide

theorem witness_ClkScaleDividesByFixedPoint :
    ∀ r : U32, (ready { base := some 48000000#32, divReg := some r }).Ready
      ∧ (ready { base := some 48000000#32, divReg := some r }).opr.base = some 48000000#32
      ∧ (ready { base := some 48000000#32, divReg := some r }).opr.divReg = some r :=
  fun _ => ⟨ready_Ready _, rfl, rfl⟩

/-- Both ends of the baud rates, and the largest quotient. -/
theorem witness_DivCalcRoundsToNearest :
    (ready { effClk := some 68719476727, baud := some 1#32 }).Ready
    ∧ (68719476727 + 8 * (1#32).toNat) / (16 * (1#32).toNat) ≤ 2 ^ 32 - 1
    ∧ (ready { effClk := some 0, baud := some 268435455#32 }).Ready
    ∧ 1 ≤ (268435455#32).toNat ∧ 16 * (268435455#32).toNat ≤ 2 ^ 32 - 1 :=
  ⟨ready_Ready _, by decide, ready_Ready _, by decide, by decide⟩

theorem witness_CalculatorRefusesOutsideDomain :
    (∀ x ∈ [(48000000, 0#32), (0, 268435456#32), (68719476728, 1#32)],
      (ready { effClk := some x.1, baud := some x.2 }).Ready ∧ OutsideDomain x.1 x.2.toNat)
    ∧ (let s : State := { ready { baud := some 1#32 } with
        cfg := { Config.examplePlatform with clockRate := 2 ^ 32 - 1 }, env := { clkDiv := [1#32] } }
      s.Ready ∧ OutsideDomain s.effectiveClock (1#32).toNat) := by
  unfold OutsideDomain
  decide

/-- The least baud rate outside the domain (the vector 268435456, 8, None, One), all explicit and over a live LCR. -/
theorem witness_CalculatorRefusesOutsideDomain_resolve :
    let req := request 268435456#32 8#8 .none .one
    let live := request 268435456#32 0#8 .default .default
    (ready { req := some req }).Ready ∧ LineSettingsResolve Config.examplePlatform req none
    ∧ (ready { req := some live, liveLcr := some 0x3F#8 }).Ready
    ∧ LineSettingsResolve Config.examplePlatform live (some 0x3F#8)
    ∧ 16 * (if req.baud = 0#32 then Config.examplePlatform.defaultBaud else req.baud).toNat > 2 ^ 32 - 1
    ∧ (inside (.setattr (.a1 req none)) {}).pos = .setattr (.a1 req none) := by
  refine ⟨ready_Ready _, ⟨by decide, by decide⟩, ready_Ready _, ⟨by decide, fun _ => ⟨0x3F#8, rfl, by decide⟩⟩,
    by decide, rfl⟩

/-- A quotient above the domain at A3 and at I0, with a baud rate of 1 and a divider of 1. -/
theorem witness_CalculatorRefusesOutsideDomain_sequencer :
    ∀ p ∈ [Position.setattr (.a3 (request 1#32 8#8 .none .one) 0x03#8), .init .i0],
      let s : State := { inside p {} with
        cfg := { Config.examplePlatform with clockRate := 2 ^ 32 - 1, defaultBaud := 1#32 }, env := { clkDiv := [1#32] } }
      s.pos = p ∧ s.cfg.wf = true ∧ OutsideDomain s.effectiveClock 1 := by
  unfold OutsideDomain
  decide

theorem witness_DivComputeReadsDividerOnce :
    let s : State := { ready { baud := some 1#32 } with env := { clkDiv := [0x00FFFFFF#32] } }
    s.Ready ∧ s.opr.baud = some 1#32 ∧ (46875 : Nat) =
      (if (s.drawnClkDiv &&& s.cfg.clkDivMask).toNat = 0 then s.cfg.clockRate
        else s.cfg.clockRate * s.cfg.clkMult * 2 ^ s.cfg.fracBits / (s.drawnClkDiv &&& s.cfg.clkDivMask).toNat)
    ∧ (46875 + 8 * (1#32).toNat) / (16 * (1#32).toNat) ≤ 2 ^ 32 - 1 := by decide

theorem witness_DivisorSplitsAndJoins :
    (ready { divisor := some 0xFFFFFFFF#32 }).Ready ∧ (ready { hi := some 0xFF#8, lo := some 0xFF#8 }).Ready := by decide

theorem witness_GateTxReadsMsrUnderFlowControl :
    (ready {}).Ready ∧ (ready {}).cfg.hwFlow = false
    ∧ (∀ b ∈ [true, false], ({ ready {} with cfg := flow b } : State).Ready ∧ (flow b).hwFlow = true) := by decide

theorem witness_StatusPredicatesReadLsrBits : (ready { lsr := some 0x60#8 }).Ready := by decide

theorem witness_PollRtsDecidesOnlyRts : (ready { mcr := some 0xFF#8, ready := some true }).Ready := by decide

/-- The whole of SET_MASK, and the least bit outside it. -/
theorem witness_CtlSetReplacesDtrAndRts :
    let g : Signals := {}
    (ready { mask := some 0x4003#32, mcr := some 0x13#8 }).Ready
    ∧ (ready {}).cfg.signals = g
    ∧ 0x4003#32 &&& ~~~(g.rts ||| g.dtr ||| g.hwFlow) = 0#32 ∧ 0x4#32 &&& ~~~(g.rts ||| g.dtr ||| g.hwFlow) ≠ 0#32 := by
  decide

theorem witness_CtlGetAssemblesSignals :
    (ready { msr := some 0xF0#8, mcr := some 0x03#8, lsr := some 0x60#8 }).Ready ∧ (ready {}).cfg.signals = {} := by
  decide

theorem witness_GetMaskWithStatusBitsIsRejected :
    ctlGet (ready {}).cfg.signals true 0x10#8 0x00#8 0x01#8 = 0x4010#32
    ∧ (ready { mask := some 0x4010#32, mcr := some 0#8 }).Ready ∧ 0x4010#32 &&& 0x3F0#32 ≠ 0#32 := by decide

theorem witness_SetctlRun :
    (ready { mask := some 0x0001#32 }).Ready ∧ (ready { mask := some 0x80000000#32 }).Ready
    ∧ 0x0001#32 &&& ~~~({} : Signals).setMask = 0#32 ∧ 0x80000000#32 &&& ~~~({} : Signals).setMask ≠ 0#32 := by decide

theorem witness_GetctlRun_PollRun :
    (ready {}).Ready ∧ (ready {}).cfg.hwFlow = false
    ∧ ({ ready {} with cfg := flow false } : State).Ready ∧ (flow false).hwFlow = true := by decide

/-- A state in which the divisor of Initialize is computed: vector S1. -/
theorem witness_InitCheckPath :
    let s := { inside .idle {} with res := {} }
    s.Ready ∧ divCalc (clkScale s.cfg s.cfg.clockRate s.drawnClkDiv) s.cfg.defaultBaud = some 26#32 := by decide

theorem witness_InitDrainPollsLsr : (inside (.init (.i7 { tDiv := 26#32, tLcr := 3#8 })) {}).pos
    = .init (.i7 { tDiv := 26#32, tLcr := 3#8 }) := rfl

theorem witness_InitReprogramRun :
    (inside (.init (.i8 { tDiv := 26#32, tLcr := 3#8 })) {}).LatchKept :=
  ⟨rfl, 0x03#8, rfl, rfl⟩

/-- An Initialize that passes its check returns (S1). -/
theorem witness_InitReturnsOnlySuccess :
    ∃ t, (inside .idle {}).Ready ∧ callOp .seqInit 7 (inside .idle {}) = .next t ∧ t.pos = .idle :=
  ⟨_, by decide, rfl, rfl⟩

/-- A reprogramming Initialize with a divisor below 65536, and one at 65536 (S5's case). -/
theorem witness_InitTwiceReprogramsOnce :
    (∃ t, continueOp .seqInit 9 (inside (.init (.i8 { tDiv := 26#32, tLcr := 3#8 })) {}) = .next t ∧ t.Ready
      ∧ divCalc (clkScale t.cfg t.cfg.clockRate t.drawnClkDiv) t.cfg.defaultBaud = some 26#32)
    ∧ (∃ t, continueOp .seqInit 9 { inside (.init (.i8 { tDiv := 65536#32, tLcr := 3#8 })) {} with
          cfg := { Config.examplePlatform with clockRate := 1048576, defaultBaud := 1#32 } } = .next t ∧ t.Ready
      ∧ divCalc (clkScale t.cfg t.cfg.clockRate t.drawnClkDiv) t.cfg.defaultBaud = some 65536#32) :=
  ⟨⟨_, rfl, by decide, by decide⟩, ⟨_, rfl, by decide, by decide⟩⟩

theorem witness_CompletedProgrammingClearsDlab :
    (∃ t, (inside (.init .i16) {}).LatchKept ∧ exec .seqInit (inside (.init .i16) {}) = .next t ∧ t.pos = .idle)
    ∧ (∃ t, (inside (.setattr (.a8 (request 9600#32 8#8 .none .one))) {}).LatchKept
      ∧ exec .seqSetattr (inside (.setattr (.a8 (request 9600#32 8#8 .none .one))) {}) = .next t ∧ t.pos = .idle) :=
  ⟨⟨_, rfl, rfl, rfl⟩, ⟨_, ⟨0x03#8, rfl, rfl⟩, rfl, rfl⟩⟩

theorem witness_WriteLabels :
    (ready { buf := some [] }).Ready ∧ (ready { buf := some [0x41#8] }).Ready
    ∧ (∀ p ∈ [WritePos.w0, .w1, .w2, .w3, .w4 { n := 1, depth := 1, k := 0 } [], .w5 { n := 1, depth := 1, k := 0 } [0x41#8],
          .w6 { n := 1, depth := 1, k := 1 } [], .w6 { n := 1, depth := 1, k := 0 } [0x41#8],
          .w7 { n := 1, depth := 1, k := 0 } 0x41#8 [], .w8 { n := 1, depth := 1, k := 0 } 0x41#8 [], .w9 1],
        (inside (.write p) { buf := some [0x41#8] }).pos = .write p)
    ∧ ({ inside (.write .w1) {} with cfg := flow false } : State).cfg.hwFlow = true := by decide

/-- A Write of one byte returns: nine labels. -/
theorem witness_WriteSendsBufferInOrder :
    ∃ t, (inside .idle { buf := some [0x41#8] }).Ready ∧ (inside .idle { buf := some [0x41#8] }).cfg.hwFlow = false
      ∧ callOp .seqWrite 9 (inside .idle { buf := some [0x41#8] }) = .next t ∧ t.pos = .idle :=
  ⟨_, by decide, rfl, rfl, rfl⟩

theorem witness_ZeroDepthWriteNeverEnds_flush :
    let s : State := { inside .idle { buf := some [] } with
      cfg := { Config.examplePlatform with fcr := 0x21#8, extFifoSize := 0#32 } }
    s.Ready ∧ s.opr.buf = some [] ∧ s.cfg.hwFlow = false ∧ (s.drawn .lsr).getLsbD 5 = true
      ∧ (s.drawn .lsr).getLsbD 6 = true := by decide

theorem witness_ZeroDepthWriteNeverEnds :
    let s : State := { ready { buf := some [0x41#8] } with
      cfg := { Config.examplePlatform with fcr := 0x21#8, extFifoSize := 0#32 } }
    s.Ready ∧ s.opr.buf = some [0x41#8] ∧ s.cfg.fcr.getLsbD 0 = true ∧ s.cfg.fcr.getLsbD 5 = true
      ∧ s.cfg.extFifoSize = 0#32 := by decide

theorem witness_WriteEndsWhenTransmitterEmpties :
    let s : State := { ready { buf := some [0x41#8] } with env := { lsr := [0x60#8, 0x60#8] } }
    s.Ready ∧ s.opr.buf = some [0x41#8] ∧ s.cfg.hwFlow = false ∧ fifoDepth s.cfg.fcr s.cfg.extFifoSize ≠ 0#32
      ∧ 1 + 1 ≤ s.env.lsr.length ∧ ∀ v ∈ s.env.lsr, v.getLsbD 5 = true ∧ v.getLsbD 6 = true := by decide

theorem witness_ReadLabels :
    (ready { count := some 1 }).Ready
    ∧ (∀ p ∈ [ReadPos.rd0, .rd1 { count := 0, base := 0#8, buf := [] }, .rd2 { count := 1, base := 0#8, buf := [] },
          .rd3 { count := 1, base := 0#8, buf := [] }, .rd4 { count := 1, base := 0#8, buf := [] },
          .rd5 { count := 1, base := 0#8, buf := [] }, .rd6 { count := 1, base := 0#8, buf := [0x5A#8] }],
        (inside (.read p) { count := some 1 }).pos = .read p)
    ∧ ((inside .idle {}).stored .lcr).getLsbD 7 = false
    ∧ (({ inside .idle {} with uart := { lcr := .holds 0x80#8 } } : State).stored .lcr).getLsbD 7 = true := by decide

/-- A Read of one byte that is ready returns: seven labels. -/
theorem witness_ReadReturnsRequestedCount :
    let s : State := { inside .idle { count := some 1 } with env := { lsr := [0x61#8], rbr := [0x5A#8] } }
    ∃ t, s.Ready ∧ s.opr.count = some 1 ∧ callOp .seqRead 7 s = .next t ∧ t.pos = .idle :=
  ⟨_, by decide, rfl, rfl, rfl⟩

theorem witness_ReadOfZeroBytes : (ready { count := some 0 }).Ready ∧ (ready { count := some 0 }).opr.count = some 0 := by
  decide

/-- A step from RD4 to RD5 keeps both. -/
theorem witness_ReadBracketAndCountKept :
    ∃ s t : State, s.RtsBracketed ∧ s.ReadCounted ∧ step s = .next t
      ∧ t.pos = .read (.rd5 { count := 1, base := 0#8, buf := [] }) := by
  refine ⟨{ inside (.read (.rd4 { count := 1, base := 0#8, buf := [] })) {} with cfg := flow false }, _,
    ?_, Nat.one_pos, rfl, rfl⟩
  intro v h
  cases h

/-- P2's SetAttributes: a default data bits and parity over a live LCR of 0x1B. -/
theorem witness_SetattrRun :
    let req := request 9600#32 0#8 .default .two
    let s : State := { ready { req := some req } with uart := { lcr := .holds 0x1B#8 }, env := { clkDiv := [0x1000#32] } }
    s.Ready ∧ s.opr.req = some req ∧ s.cfg.defaultSource = .liveLcr ∧ req.dataBits = 0#8 ∧ s.stored .lcr = 0x1B#8 ∧ s.settle .lcr = s
    ∧ attrResolve s.cfg req (some 0x1B#8) = .resolved (request 9600#32 8#8 .even .two) 0x1F#8
    ∧ req.baud ≠ 0#32
    ∧ divCalc (clkScale s.cfg s.cfg.clockRate s.drawnClkDiv) 9600#32 = some 1250#32 := by decide

/-- S18's: no default line setting. -/
theorem witness_SetattrRun_without_live :
    let req := request 0#32 7#8 .odd .one
    let s : State := { ready { req := some req } with env := { clkDiv := [0#32] } }
    s.Ready ∧ s.opr.req = some req ∧ req.dataBits ≠ 0#8 ∧ req.parity ≠ .default ∧ req.stopBits ≠ .default
    ∧ attrResolve s.cfg req none = .resolved (request 115200#32 7#8 .odd .one) 0x0A#8
    ∧ divCalc (clkScale s.cfg s.cfg.clockRate s.drawnClkDiv) 115200#32 = some 26#32 := by decide

/-- S14's, from the live LCR and from the configuration. -/
theorem witness_SetattrAllDefaultWritesNothing :
    let req := request 0#32 0#8 .default .default
    let s : State := { ready { req := some req } with uart := { lcr := .holds 0x2C#8 } }
    let c : State := { ready { req := some req } with cfg := { Config.examplePlatform with defaultSource := .configLcr } }
    s.Ready ∧ s.cfg.defaultSource = .liveLcr ∧ s.stored .lcr = 0x2C#8
    ∧ (.mark, (0x2C#8).extractLsb' 3 3) ∈ parityTable
    ∧ c.Ready ∧ c.cfg.defaultSource = .configLcr ∧ (.none, c.cfg.lcr.extractLsb' 3 3) ∈ parityTable := by decide

/-- S15's and S16's. -/
theorem witness_SetattrFailureWritesNothing :
    let c := Config.examplePlatform
    (ready { req := some (request 115200#32 9#8 .none .one) }).Ready
    ∧ attrResolve c (request 115200#32 9#8 .none .one) none = .invalid
    ∧ (ready { req := some (request 9600#32 4#8 .default .one) }).Ready
    ∧ c.defaultSource = .liveLcr
    ∧ attrResolve c (request 9600#32 4#8 .default .one) (some 0x03#8) = .invalid := by decide

theorem witness_FailureMakesNoWrite :
    (∃ t, (ready { mask := some 0x80000000#32 }).Ready
      ∧ callOp .seqSetctl 1 (ready { mask := some 0x80000000#32 }) = .next t ∧ t.pos = .idle ∧ t.res.st ≠ some .success)
    ∧ (∃ t, (ready { req := some (request 115200#32 9#8 .none .one) }).Ready
      ∧ callOp .seqSetattr 2 (ready { req := some (request 115200#32 9#8 .none .one) }) = .next t ∧ t.pos = .idle
      ∧ t.res.st ≠ some .success) :=
  ⟨⟨_, by decide, rfl, rfl, by decide⟩, ⟨_, by decide, rfl, rfl, by decide⟩⟩

theorem witness_StepRunsDecodedOperation :
    (inside (.poll .p0) {}).pos.inProgress = some .seqPoll
    ∧ decode [0x12#8] = .ok (.divCompute, [])
    ∧ Instr.argsGiven .divCompute [] = false ∧ Instr.outsFit .divCompute [] = false
    ∧ decode [0x37#8] = .error (.unlisted 0x37#8)
    ∧ State.reset.pos = .idle ∧ State.reset.program = [] :=
  ⟨rfl, rfl, by decide, by decide, rfl, rfl, rfl⟩

/-- A state at whose next line SEQ.WRITE stands, with these names and this buffer. -/
def writeLine (names : List (Ident × Value)) (src : Source) : State :=
  { ready {} with names := names, program := [.op none 0x31#8 [(.buf, src)] [some 3]] }

theorem witness_StepRunsDecodedOperation_line (names : List (Ident × Value)) (src : Source) :
    (writeLine names src).pos = .idle
    ∧ (writeLine names src).program = .op none 0x31#8 [(.buf, src)] [some 3] :: []
    ∧ decode [0x31#8] = .ok (.seqWrite, [])
    ∧ Instr.argsGiven .seqWrite [(.buf, src)] = true ∧ Instr.outsFit .seqWrite [some 3] = true :=
  ⟨rfl, rfl, rfl, by simp [Instr.argsGiven, Instr.operands, Instr.optionalOperands], by decide⟩

/-- A buffer of a bound name at the top of its width and a literal. -/
theorem witness_StepRunsDecodedOperation_loads :
    let src : Source := .bytes [.bound 0, .lit (.num 0x42)]
    let o : Operands := { buf := some [0xFF#8, 0x42#8] }
    (∃ v, SourceMeans [(0, .num 255)] src v ∧ o.value .buf = some v) ∧ ∀ r, r ∉ [OperandName.buf] → o.value r = none := by
  refine ⟨⟨.bytes [0xFF#8, 0x42#8], ⟨_, rfl, .cons rfl (.cons rfl .nil)⟩, rfl⟩, fun r hr => ?_⟩
  cases r <;> first | rfl | exact absurd (List.mem_singleton.2 rfl) hr

/-- A record of literals and a bound baud rate. -/
theorem witness_StepRunsDecodedOperation_record :
    let src : Source := .attr (.bound 0) (.lit (.num 8)) (.lit (.parity .none)) (.lit (.stopBits .one)) (.lit (.num 7))
      (.lit (.num 50))
    SourceMeans [(0, .num 9600)] src (.attr (request 9600#32 8#8 .none .one))
    ∧ (∃ o : Operands, o.value .req = some (.attr (request 9600#32 8#8 .none .one))) :=
  ⟨⟨_, rfl, rfl, rfl, rfl, rfl, rfl, rfl⟩, ⟨{ req := some _ }, rfl⟩⟩

/-- A buffer whose only fault is a name that holds no value. -/
theorem witness_StepRunsDecodedOperation_unbound :
    (∃ more, FitsRegister ([] ++ more) .buf (.bytes [.bound 0]))
    ∧ ∃ x ∈ sourceNames (.bytes [.bound 0]), List.lookup x ([] : List (Ident × Value)) = none :=
  ⟨⟨[(0, .num 0)], .bytes [0#8], { buf := some [0#8] }, ⟨[0#8], rfl, .cons rfl .nil⟩, rfl⟩, 0, by decide, rfl⟩

/-- A byte of 256 in a buffer. -/
theorem witness_StepRunsDecodedOperation_illTyped :
    (∀ x ∈ sourceNames (.bytes [.lit (.num 256)]), List.lookup x ([] : List (Ident × Value)) ≠ none)
    ∧ ¬ FitsRegister [] .buf (.bytes [.lit (.num 256)]) := by
  refine ⟨by decide, ?_⟩
  rintro ⟨v, o, ⟨bs, rfl, h⟩, -⟩
  cases h with
  | @cons _ b _ _ hb _ =>
    have hb : Value.num b.toNat = .num 256 := hb
    injection hb with hb
    have := b.isLt
    omega

/-- Two results to one name: the later stays; a result that holds no value unbinds its name. -/
theorem witness_Delivered :
    (Instr.divSplit.results.zip [some 0, some 0])[1]? = some (.lo, some 0)
    ∧ (Instr.encData.results.zip [none, some 4])[1]? = some (.dataCode, some 4)
    ∧ ∀ r, (r, some 5) ∉ Instr.divSplit.results.zip [some 0, some 0] := by
  refine ⟨rfl, rfl, fun r => ?_⟩
  cases r <;> decide

/-- Each pseudo-operation as the next line, with flow control off and on. -/
theorem witness_PseudoOperationsRun :
    ∀ p ∈ [Pseudo.waitTxempty, .waitWritable, .waitRxready, .latchOn, .latchOff (.lit (.num 255)), .latchOff (.bound 0)],
      ∀ c ∈ [Config.examplePlatform, flow true],
        let s : State := { ready {} with cfg := c, names := [(0, .num 255)], program := [.pseudo none p] }
        s.Ready ∧ s.program = .pseudo none p :: [] ∧ s.names.lookup 0 = some (.num (0xFF#8).toNat) := by decide

theorem witness_SelectorsDecodeUniquely :
    decodeSelector 0x0B#8 = .ok .attrResolve ∧ (∀ i ∈ Instr.all, 0x0C#8 ≠ encodeSelector i)
    ∧ ∀ i : Instr, i ∈ Instr.all :=
  ⟨rfl, by decide, fun i => by cases i <;> decide⟩

theorem witness_OperationsRefuseToStart :
    (inside (.poll .p0) {}).pos ≠ .idle ∧ (inside (.poll .p0) {}).pos.inProgress ≠ some .seqRead
    ∧ State.reset.pos = .idle ∧ State.reset.variant ≠ .miniUart16550 := by decide

theorem sound_checks : ¬ BreaksSpecChecks Config.examplePlatform ∧ ¬ BreaksModelChecks Config.examplePlatform := by
  refine ⟨by unfold BreaksSpecChecks; decide, ?_⟩
  rintro (h | ⟨r, h⟩ | ⟨r, q, h, e⟩)
  · exact absurd h (by decide)
  · cases r <;> exact absurd h (by decide)
  · cases r <;> cases q <;> first | exact h rfl | exact absurd e (by decide)

/-- Each check of R10 and R65, broken by the least there is: a baud rate of 0 and one of 2^28, a stride of 0, the last
register one byte past the address space, a clock rate of 2^32, an address one and two bytes off. -/
theorem witness_OperationsRefuseToStart_spec :
    let c := Config.examplePlatform
    ∀ d ∈ [{ c with defaultBaud := 0#32 }, { c with defaultBaud := 268435456#32 }, { c with stride := 0 },
        { c with uartBase := 2 ^ 64 - 28 }, { c with clockRate := 2 ^ 32 }, { c with clkDivAddr := 0x20000001 },
        { c with clkDivAddr := 0x20000002 }], BreaksSpecChecks d := by
  unfold BreaksSpecChecks
  decide

/-- Each check of the model's own, broken by the least there is. -/
theorem witness_OperationsRefuseToStart_model :
    let c := Config.examplePlatform
    BreaksModelChecks { c with clkDivAddr := 2 ^ 64 }
    ∧ BreaksModelChecks { c with uartBase := 2 ^ 64 - 32, offsets := { scr := 8 } }
    ∧ BreaksModelChecks { c with offsets := { mcr := 3 } } :=
  ⟨.inl (by decide), .inr (.inl ⟨.scr, by decide⟩), .inr (.inr ⟨.lcr, .mcr, by decide, rfl⟩)⟩

theorem witness_OperationsAnswerWhenGivenOperands :
    let s := ready { req := some (request 9600#32 8#8 .none .one), liveLcr := some 0x03#8 }
    s.Ready ∧ ∀ r ∈ Instr.attrResolve.operands ++ Instr.attrResolve.optionalOperands, s.opr.has r = true := by decide

theorem witness_MissingOperandFaults :
    (ready { a := some 0#8 }).Ready ∧ Instr.lcrMatch.family ≠ .sequencer
    ∧ (∃ r ∈ Instr.lcrMatch.operands, (ready { a := some 0#8 }).opr.has r = false)
    ∧ (∀ d ∈ [(0#8, Parity.none, StopBits.one), (5#8, .default, .one), (8#8, .none, .default)],
        let s := ready { req := some (request 9600#32 d.1 d.2.1 d.2.2) }
        s.Ready ∧ s.opr.liveLcr = none ∧ s.cfg.defaultSource = .liveLcr)
    ∧ (∀ p ∈ [Position.write .w3, .read .rd0, .setctl .s0, .setattr .a0], (inside p {}).pos = p ∧ (inside p {}).opr = {})
    ∧ (ready {}).Ready ∧ (ready {}).opr.buf = none := by decide

/-- A step inside an operation meets the invariants: the label I2 of Initialize. -/
theorem witness_step_invariants :
    let s := inside (.init (.i2 { tDiv := 26#32, tLcr := 3#8 } 0x03#8 true)) {}
    ∃ t, s.EventsLegal ∧ s.ResultsUnwritten ∧ s.OperandsUnwritten ∧ s.NoDeviceError ∧ s.uart.scr = .unwritten
      ∧ s.LatchKept ∧ s.pos ≠ .idle
      ∧ step s = .next t ∧ t.uart.lcr = .holds 0x83#8 := by
  refine ⟨_, ?_, fun _ => rfl, fun _ => rfl, ?_, rfl, rfl, by decide, rfl, rfl⟩
  · intro e he
    cases he
  · intro h
    cases h

theorem witness_DlabBanksAndWriteOnlyRegisters :
    (({ ready {} with uart := { lcr := .holds 0x80#8 } } : State).stored .lcr).getLsbD 7 = true
    ∧ (({ ready {} with uart := { lcr := .holds 0x7F#8 } } : State).stored .lcr).getLsbD 7 = false := by decide

theorem witness_StoredRegistersReadBack :
    (inside .idle {}).uart.lcr = .holds 0x03#8 ∧ (0x03#8).getLsbD 7 = false
    ∧ ({ inside .idle {} with uart := { lcr := .holds 0x83#8 } } : State).uart.lcr = .holds 0x83#8
    ∧ (0x83#8).getLsbD 7 = true := by decide

end Sys2Proof.Tests
end

section
/-! PROOFS. What one label of an operation can do, what an operation's start can do, and from these what a step can do:
one inversion lemma for each, which the statements about every step are read off. -/

namespace Sys2Proof.Machine

/-! ### One label -/

/-- R69: a state reached inside a label: no access yet, or one. A free value that is no access may have been taken
(R156). -/
inductive Touched (s u : State) : Prop
  | none (n : Nat) (hu : u = { s with freeCount := n })
  | once (h : Accessed s u)

theorem Touched.refl (s : State) : Touched s s := .none s.freeCount rfl

theorem Touched.drawAttr (s : State) : Touched s s.drawAttr := .none (s.freeCount + 1) rfl

theorem Touched.variant {s u : State} (h : Touched s u) : u.variant = s.variant := by
  obtain ⟨n, rfl⟩ | h := h
  · rfl
  · exact h.variant

theorem Touched.cfg {s u : State} (h : Touched s u) : u.cfg = s.cfg := by
  obtain ⟨n, rfl⟩ | h := h
  · rfl
  · exact h.cfg

theorem Touched.opr {s u : State} (h : Touched s u) : u.opr = s.opr := by
  obtain ⟨n, rfl⟩ | h := h
  · rfl
  · exact h.opr

theorem Touched.events {s u : State} (h : Touched s u) :
    u.events = s.events ∨ ∃ e, e.Legal s.cfg ∧ u.events = s.events ++ [e] := by
  obtain ⟨n, rfl⟩ | h := h
  · exact .inl rfl
  · exact .inr h.events

/-- R25: how a label ends when it answers a next state: the sequencer goes to another label, or the operation ends with
its results, never DeviceError (R351), and its operand registers end with it (R20, R22). -/
inductive LabelEnds (s t : State) : Prop
  | goes (u : State) (p : Position) (hu : Touched s u) (hp : p ≠ .idle) (ht : t = { u with pos := p })
  | ends (u : State) (r : Results) (hu : Touched s u) (hr : r.st ≠ some .deviceError)
      (ht : t = { u with opr := {}, res := r, pos := .idle })

theorem LabelEnds.variant {s t : State} (h : LabelEnds s t) : t.variant = s.variant := by
  obtain ⟨u, p, hu, _, rfl⟩ | ⟨u, r, hu, _, rfl⟩ := h <;> exact hu.variant

theorem LabelEnds.cfg {s t : State} (h : LabelEnds s t) : t.cfg = s.cfg := by
  obtain ⟨u, p, hu, _, rfl⟩ | ⟨u, r, hu, _, rfl⟩ := h <;> exact hu.cfg

theorem LabelEnds.opr {s t : State} (h : LabelEnds s t) : t.opr = if t.pos = .idle then {} else s.opr := by
  obtain ⟨u, p, hu, hp, rfl⟩ | ⟨u, r, hu, _, rfl⟩ := h
  · exact hu.opr.trans (if_neg hp).symm
  · rfl

theorem LabelEnds.events {s t : State} (h : LabelEnds s t) :
    t.events = s.events ∨ ∃ e, e.Legal s.cfg ∧ t.events = s.events ++ [e] := by
  obtain ⟨u, p, hu, _, rfl⟩ | ⟨u, r, hu, _, rfl⟩ := h <;> exact hu.events

/-- What this outcome answers, if it answers a next state, is the end of one label begun in `s`. -/
def OneLabel (s : State) (o : Out) : Prop := ∀ t, o = .next t → LabelEnds s t

/-! The rules by which a label's text is read: one for each shared operation. -/

section Rules
variable {s u : State}

theorem fault_label (f : Fault) : OneLabel s (.fault f) := fun _ h => by cases h

theorem refused_label (r : Refusal) : OneLabel s (.refused r) := fun _ h => by cases h

theorem goto_label {p : Position} (hu : Touched s u) (hp : p ≠ .idle := by nofun) : OneLabel s (goto p u) :=
  fun _ h => goto_next h ▸ .goes u p hu hp rfl

theorem finish_label {r : Results} (hu : Touched s u) (hr : r.st ≠ some .deviceError := by nofun) :
    OneLabel s (finish r u) :=
  fun _ h => finish_next h ▸ .ends u r hu hr rfl

theorem raise_label {st : Status} (hu : Touched s u) (hst : some st ≠ some .deviceError := by nofun) :
    OneLabel s (raise st u) :=
  finish_label hu hst

theorem need_label {α : Type} {r : OperandName} {v : Option α} {k : α → Out} (h : ∀ a, OneLabel s (k a)) :
    OneLabel s (need r v k) := fun t ht =>
  let ⟨a, _, hk⟩ := need_next ht
  h a t hk

theorem devRead_label {r : Slot} {k : Byte → State → Out} (h : ∀ v u, Touched s u → OneLabel s (k v u)) :
    OneLabel s (devRead r s k) := fun t ht =>
  let ⟨v, u, ha, hk⟩ := devRead_next ht
  h v u (.once ha) t hk

theorem devWrite_label {r : Slot} {v : Byte} {k : State → Out} (h : ∀ u, Touched s u → OneLabel s (k u)) :
    OneLabel s (devWrite r v s k) := fun t ht =>
  let ⟨u, ha, hk⟩ := devWrite_next ht
  h u (.once ha) t hk

theorem latchOn_label {k : State → Out} (h : ∀ u, Touched s u → OneLabel s (k u)) : OneLabel s (latchOn s k) :=
  devWrite_label h

theorem gateTx_label {k : Bool → State → Out} (h : ∀ w u, Touched s u → OneLabel s (k w u)) :
    OneLabel s (gateTx s k) := by
  intro t ht
  obtain ⟨_, hk⟩ | ⟨_, w, u, ha, hk⟩ := gateTx_next ht
  · exact h true s (.refl s) t hk
  · exact h w u (.once ha) t hk

theorem computeDivisor_label {baud : U32} {k : U32 → State → Out} (h : ∀ d u, Touched s u → OneLabel s (k d u)) :
    OneLabel s (computeDivisor baud s k) := fun t ht =>
  let ⟨d, u, ha, hk⟩ := computeDivisor_next ht
  h d u (.once ha) t hk

end Rules

/-! ### The labels of the sequencer's operations -/

theorem setctlLabel_oneLabel (p : SetctlPos) (s : State) : OneLabel s (setctlLabel p s) := by
  cases p <;> dsimp only [setctlLabel]
  case s0 =>
    refine need_label fun mask => ?_
    split
    · exact goto_label (.refl s)
    · exact raise_label (.refl s)
  case s1 => exact devRead_label fun _ _ hu => goto_label hu
  case s2 => exact devWrite_label fun _ hu => goto_label hu
  case s3 => exact finish_label (.refl s)

theorem getctlLabel_oneLabel (p : GetctlPos) (s : State) : OneLabel s (getctlLabel p s) := by
  cases p <;> dsimp only [getctlLabel]
  case g0 | g1 | g2 => exact devRead_label fun _ _ hu => goto_label hu
  case g3 => exact finish_label (.refl s)

theorem setattrLabel_oneLabel (p : SetattrPos) (s : State) : OneLabel s (setattrLabel p s) := by
  cases p <;> dsimp only [setattrLabel]
  case a0 =>
    refine need_label fun req => ?_
    split
    · exact devRead_label fun _ _ hu => goto_label hu
    · exact goto_label (.refl s)
  case a1 =>
    split
    · exact goto_label (.refl s)
    · exact finish_label (.drawAttr s)
    · exact fault_label _
    · exact refused_label _
  case a2 =>
    split
    · exact finish_label (.refl s)
    · exact goto_label (.refl s)
  case a3 => exact computeDivisor_label fun _ _ hu => goto_label hu
  case a4 => exact latchOn_label fun _ hu => goto_label hu
  case a5 | a6 | a7 => exact devWrite_label fun _ hu => goto_label hu
  case a8 => exact finish_label (.refl s)

theorem initLabel_oneLabel (p : InitPos) (s : State) : OneLabel s (initLabel p s) := by
  cases p <;> dsimp only [initLabel]
  case i0 => exact computeDivisor_label fun _ _ hu => goto_label hu
  case i1 | i3 | i4 | i7 => exact devRead_label fun _ _ hu => goto_label hu
  case i8 => exact latchOn_label fun _ hu => goto_label hu
  case i2 | i5 | i9 | i10 | i11 | i12 | i13 | i14 | i15 => exact devWrite_label fun _ hu => goto_label hu
  case i6 =>
    split
    · exact finish_label (.refl s)
    · exact goto_label (.refl s)
  case i16 => exact finish_label (.refl s)

theorem writeLabel_oneLabel (p : WritePos) (s : State) : OneLabel s (writeLabel p s) := by
  cases p <;> dsimp only [writeLabel]
  case w0 | w5 => exact devRead_label fun _ _ hu => goto_label hu
  case w1 | w7 => exact gateTx_label fun _ _ hu => goto_label hu
  case w3 => exact need_label fun _ => goto_label (.refl s)
  case w4 => exact goto_label (.refl s)
  case w6 v rest => cases rest <;> exact goto_label (.refl s)
  case w8 => exact devWrite_label fun _ hu => goto_label hu
  case w2 | w9 => exact finish_label (.refl s)

theorem readLabel_oneLabel (p : ReadPos) (s : State) : OneLabel s (readLabel p s) := by
  cases p <;> dsimp only [readLabel]
  case rd0 => exact need_label fun _ => devRead_label fun _ _ hu => goto_label hu
  case rd1 => exact goto_label (.refl s)
  case rd2 | rd5 => exact devRead_label fun _ _ hu => goto_label hu
  case rd3 | rd4 =>
    split
    · exact devWrite_label fun _ hu => goto_label hu
    · exact goto_label (.refl s)
  case rd6 => exact finish_label (.refl s)

theorem pollLabel_oneLabel (p : PollPos) (s : State) : OneLabel s (pollLabel p s) := by
  cases p <;> dsimp only [pollLabel]
  case p0 => exact devRead_label fun _ _ hu => goto_label hu
  case p1 =>
    split
    · exact devRead_label fun _ _ hu => goto_label hu
    · exact goto_label (.refl s)
  case p2 => exact devWrite_label fun _ hu => goto_label hu
  case p3 => exact finish_label (.refl s)

/-! ### Operations -/

theorem inProgress_eq_none {p : Position} : p.inProgress = none ↔ p = .idle := by
  cases p <;> simp [Position.inProgress]

/-- R7: an outcome that passes `start` first and after it is the end of one label. -/
def StartsOne (s : State) (o : Out) : Prop := ∃ k : State → Out, o = start s k ∧ ∀ u, OneLabel u (k u)

theorem start_startsOne {s : State} {k : State → Out} (h : ∀ u, OneLabel u (k u)) : StartsOne s (start s k) :=
  ⟨k, rfl, h⟩

/-- R8: whatever operation is not in progress passes `start` first. -/
theorem exec_startsOne (i : Instr) {s : State} (h : s.pos.inProgress ≠ some i) : StartsOne s (exec i s) := by
  cases i with
  | encData | encPar | encStop | lcrEnc | decPar | ctlSet =>
    dsimp only [exec, execEncData, execEncPar, execEncStop, execLcrEnc, execDecPar, execCtlSet]
    refine start_startsOne fun u => ?_
    repeat refine need_label fun _ => ?_
    split
    · exact finish_label (.refl u)
    · exact raise_label (.refl u)
  | attrResolve =>
    dsimp only [exec, execAttrResolve]
    refine start_startsOne fun u => need_label fun _ => ?_
    split
    · exact finish_label (.refl u)
    · exact finish_label (.drawAttr u)
    · exact fault_label _
    · exact refused_label _
  | divCalc =>
    dsimp only [exec, execDivCalc]
    refine start_startsOne fun u => need_label fun _ => need_label fun _ => ?_
    split
    · exact finish_label (.refl u)
    · exact refused_label _
  | lcrPack | decData | decStop | fifoDepth | lcrMatch | clkScale | divSplit | divJoin | gateTxempty | gateRxready
  | gatePollrts | ctlGet =>
    dsimp only [exec, execLcrPack, execDecData, execDecStop, execFifoDepth, execLcrMatch, execClkScale, execDivSplit,
      execDivJoin, execGateTxempty, execGateRxready, execGatePollrts, execCtlGet]
    refine start_startsOne fun u => ?_
    repeat refine need_label fun _ => ?_
    exact finish_label (.refl u)
  | divCompute =>
    dsimp only [exec, execDivCompute]
    exact start_startsOne fun u => need_label fun _ => computeDivisor_label fun _ _ hu => finish_label hu
  | gateTx =>
    dsimp only [exec, execGateTx]
    exact start_startsOne fun u => gateTx_label fun _ _ hu => finish_label hu
  | seqWrite =>
    dsimp only [exec, execSeqWrite]
    split
    · next p hp => simp [hp, Position.inProgress] at h
    · exact start_startsOne fun u => need_label fun _ => goto_label (.refl u)
  | seqInit | seqRead | seqPoll | seqSetctl | seqGetctl | seqSetattr =>
    dsimp only [exec, execSeqInit, execSeqRead, execSeqPoll, execSeqSetctl, execSeqGetctl, execSeqSetattr]
    split
    · next p hp => simp [hp, Position.inProgress] at h
    · exact start_startsOne fun u => goto_label (.refl u)

/-- R25: the operation in progress performs one label. -/
theorem exec_oneLabel {i : Instr} {s : State} (h : s.pos.inProgress = some i) : OneLabel s (exec i s) := by
  cases hp : s.pos <;> simp only [hp, Position.inProgress, Option.some.injEq, reduceCtorEq] at h <;> subst h
  case init p => simpa only [exec, execSeqInit, hp] using initLabel_oneLabel p s
  case write p => simpa only [exec, execSeqWrite, hp] using writeLabel_oneLabel p s
  case read p => simpa only [exec, execSeqRead, hp] using readLabel_oneLabel p s
  case poll p => simpa only [exec, execSeqPoll, hp] using pollLabel_oneLabel p s
  case setctl p => simpa only [exec, execSeqSetctl, hp] using setctlLabel_oneLabel p s
  case getctl p => simpa only [exec, execSeqGetctl, hp] using getctlLabel_oneLabel p s
  case setattr p => simpa only [exec, execSeqSetattr, hp] using setattrLabel_oneLabel p s

/-- R6, R8, R10, R21: an operation that started was allowed to, and began with no result register holding a value. -/
theorem exec_next_of_idle {i : Instr} {s t : State} (hp : s.pos = .idle) (h : exec i s = .next t) :
    s.Ready ∧ LabelEnds { s with res := {} } t := by
  obtain ⟨k, hk, hl⟩ := exec_startsOne i (s := s) (by simp [hp, Position.inProgress])
  obtain ⟨hr, ht⟩ := start_next (hk ▸ h)
  exact ⟨hr, hl _ t ht⟩

/-! ### Steps -/

/-- R7, R25, R93, R95, R382: everything a step can do when it answers a next state. The lines left, the names and the
names of the pending results are the caller's; the rest comes of one label. -/
inductive Stepped (s t : State) : Prop
  /-- R382: the block waits. -/
  | waits (hp : s.pos = .idle) (ht : t = s)
  /-- R25: the operation in progress performs a label. -/
  | continues (hp : s.pos ≠ .idle) (u : State) (hu : LabelEnds s u)
      (ht : t = { u with outs := t.outs, names := t.names })
  /-- R93, R95: an operation starts, or a pseudo-operation evaluates one, on operand registers loaded for it. -/
  | starts (hr : s.Ready) (opr : Operands) (outs : List (Option Ident)) (program : List Line) (u : State)
      (hu : LabelEnds { s with opr := opr, res := {}, outs := outs, program := program } u)
      (ht : t = { u with outs := t.outs, names := t.names, program := t.program })
  /-- R95: LATCH.ON or LATCH.OFF makes its one access. -/
  | latches (hr : s.Ready) (u : State) (hu : Accessed { s with res := {} } u)
      (ht : t = { u with program := t.program })

theorem untilTrue_next {rest : List Line} {result : Results → Option Bool} {o : Out} {t : State}
    (h : untilTrue rest result o = .next t) : ∃ u, o = .next u ∧ t = { u with program := t.program } := by
  cases o with
  | next u =>
    refine ⟨u, rfl, ?_⟩
    simp only [untilTrue] at h
    split at h <;> cases h <;> rfl
  | fault f => cases h
  | refused r => cases h

/-- R93: a line whose operation answered was decoded, its operands were loaded, and it ran. -/
theorem issue_next {op : Byte} {args : List (OperandName × Source)} {outs : List (Option Ident)} {rest : List Line}
    {s t : State} (h : issue op args outs rest s = .next t) :
    ∃ i o, deliver i (exec i { s with program := rest, opr := o, outs := outs }) = .next t := by
  unfold issue at h
  split at h
  · next i _ _ =>
    split at h
    · obtain ⟨o, ho⟩ := loadArgs_next h
      exact ⟨i, o, ho⟩
    · cases h
  · cases h

/-- R243: GATE.TXEMPTY makes no access. -/
theorem execGateTxempty_next {s t : State} (h : execGateTxempty s = .next t) :
    ∃ r : Results, r.st ≠ some .deviceError ∧ t = { s with opr := {}, res := r, pos := .idle } := by
  obtain ⟨-, h⟩ := start_next h
  obtain ⟨l, -, h⟩ := need_next h
  exact ⟨{ empty := some (txEmpty l) }, nofun, finish_next h⟩

/-- R245: GATE.RXREADY makes no access. -/
theorem execGateRxready_next {s t : State} (h : execGateRxready s = .next t) :
    ∃ r : Results, r.st ≠ some .deviceError ∧ t = { s with opr := {}, res := r, pos := .idle } := by
  obtain ⟨-, h⟩ := start_next h
  obtain ⟨l, -, h⟩ := need_next h
  exact ⟨{ ready := some (rxReady l) }, nofun, finish_next h⟩

/-- R95: one round of a wait that reads LSR and gives the value to a gate operation is one label: the read is its one
access, when the operation makes none. -/
theorem waitOnLsr_next {op : State → Out} {rest : List Line} {result : Results → Option Bool} {s t : State}
    (hop : ∀ v u, op v = .next u →
      ∃ r : Results, r.st ≠ some .deviceError ∧ u = { v with opr := {}, res := r, pos := .idle })
    (h : start s (fun s => devRead R_LSR s fun l s => untilTrue rest result (op { s with opr := { lsr := some l } }))
      = .next t) : Stepped s t := by
  obtain ⟨hr, h⟩ := start_next h
  obtain ⟨l, v, hv, h⟩ := devRead_next h
  obtain ⟨u, h, ht⟩ := untilTrue_next h
  obtain ⟨r, hst, rfl⟩ := hop _ _ h
  have hread : Touched { s with opr := { lsr := some l }, res := {} } { v with opr := { lsr := some l } } :=
    .once { hv with opr := rfl }
  exact .starts hr { lsr := some l } s.outs s.program _ (.ends _ r hread hst rfl) (by rw [ht])

theorem pseudoStep_next {p : Pseudo} {rest : List Line} {s t : State} (hp : s.pos = .idle)
    (h : pseudoStep p rest s = .next t) : Stepped s t := by
  cases p with
  | waitTxempty => exact waitOnLsr_next (fun _ _ => execGateTxempty_next) h
  | waitRxready => exact waitOnLsr_next (fun _ _ => execGateRxready_next) h
  | waitWritable =>
    obtain ⟨u, hu, ht⟩ := untilTrue_next h
    obtain ⟨hr, hl⟩ := exec_next_of_idle (i := .gateTx) hp hu
    exact .starts hr s.opr s.outs s.program u hl (by rw [ht])
  | latchOn =>
    dsimp only [pseudoStep] at h
    obtain ⟨hr, h⟩ := start_next h
    obtain ⟨u, hu, h⟩ := latchOn_next h
    cases h
    exact .latches hr u hu rfl
  | latchOff src =>
    dsimp only [pseudoStep] at h
    obtain ⟨hr, h⟩ := start_next h
    obtain ⟨o, h⟩ := loadArgs_next h
    obtain ⟨v, -, h⟩ := need_next h
    obtain ⟨u, hu, h⟩ := latchOff_next h
    cases h
    exact .latches hr u hu rfl

theorem step_next {s t : State} (h : step s = .next t) : Stepped s t := by
  unfold step at h
  split at h
  · next i hi =>
    obtain ⟨u, hu, ht⟩ := deliver_next h
    exact .continues (fun hp => by simp [hp, Position.inProgress] at hi) u (exec_oneLabel hi u hu) ht
  · next hi =>
    have hp := inProgress_eq_none.1 hi
    split at h
    · cases h
      exact .waits hp rfl
    · next op args outs rest _ =>
      obtain ⟨i, o, h⟩ := issue_next h
      obtain ⟨u, hu, ht⟩ := deliver_next h
      obtain ⟨hr, hl⟩ := exec_next_of_idle (s := { s with program := rest, opr := o, outs := outs }) hp hu
      exact .starts hr o outs rest u hl (by rw [ht])
    · exact pseudoStep_next hp h

theorem Stepped.variant {s t : State} (h : Stepped s t) : t.variant = s.variant := by
  cases h with
  | waits _ ht => rw [ht]
  | continues _ u hu ht => rw [ht]; exact hu.variant
  | starts _ _ _ _ u hu ht => rw [ht]; exact hu.variant
  | latches _ u hu ht => rw [ht]; exact hu.variant

theorem Stepped.cfg {s t : State} (h : Stepped s t) : t.cfg = s.cfg := by
  cases h with
  | waits _ ht => rw [ht]
  | continues _ u hu ht => rw [ht]; exact hu.cfg
  | starts _ _ _ _ u hu ht => rw [ht]; exact hu.cfg
  | latches _ u hu ht => rw [ht]; exact hu.cfg

/-- R20, R22: inside an operation the operand registers stay until a step ends it, and end with it. -/
theorem Stepped.opr {s t : State} (h : Stepped s t) (hp : s.pos ≠ .idle) :
    t.opr = if t.pos = .idle then {} else s.opr := by
  cases h with
  | continues _ u hu ht => rw [ht]; exact hu.opr
  | waits hi _ => exact absurd hi hp
  | starts hr _ _ _ _ _ _ => exact absurd hr.1 hp
  | latches hr _ _ _ => exact absurd hr.1 hp

/-- R69: one step adds at most one event, and a legal one. -/
theorem Stepped.events {s t : State} (h : Stepped s t) :
    t.events = s.events ∨ ∃ e, e.Legal s.cfg ∧ t.events = s.events ++ [e] := by
  cases h with
  | waits _ ht => exact .inl (by rw [ht])
  | continues _ u hu ht => rw [ht]; exact hu.events
  | starts _ _ _ _ u hu ht => rw [ht]; exact hu.events
  | latches _ u hu ht => rw [ht]; exact .inr hu.events

end Sys2Proof.Machine
end

section
/-! PROOFS. The statements of 00_scope.md: what starts, what a step keeps, how many accesses it makes. -/

namespace Sys2Proof.Machine

/-- R10, R65: an operation that would start under a configuration that breaks a check is refused. -/
theorem start_rejected {s : State} (hp : s.pos = .idle) (hc : BreaksSpecChecks s.cfg ∨ BreaksModelChecks s.cfg)
    (k : State → Out) : start s k = .refused .configurationRejected := by
  have hw : s.cfg.wf = false := by
    rw [← Bool.not_eq_true, wf_iff]
    exact fun ⟨hs, hm⟩ => hc.elim hs hm
  simp [start, hp, hw]

/-- R6: an operation that would start in another variant is refused. -/
theorem start_wrongVariant {s : State} (hp : s.pos = .idle) (hc : s.cfg.wf = true) (hv : s.variant ≠ .miniUart16550)
    (k : State → Out) : start s k = .refused .variantNotMiniUart := by
  simp [start, hp, hc, hv]

/-- R6, R8, R10, R65: a state may start an operation when it fails no check. -/
theorem ready_iff (s : State) : s.Ready ↔ s.pos = .idle ∧ s.variant = .miniUart16550
    ∧ ¬ BreaksSpecChecks s.cfg ∧ ¬ BreaksModelChecks s.cfg := by
  rw [← wf_iff]
  exact and_congr_right fun _ => and_comm

/-- R8: at Idle every operation passes `start`. -/
theorem exec_eq_start_of_idle (i : Instr) {s : State} (hp : s.pos = .idle) : ∃ k, exec i s = start s k :=
  have ⟨k, hk, _⟩ := exec_startsOne i (s := s) (by simp [hp, Position.inProgress])
  ⟨k, hk⟩

/-- Settles O53: read off what a step can do (`step_next`). -/
theorem stepKeepsConfigurationAndOperands : Obligations.StepKeepsConfigurationAndOperands := by
  unfold Obligations.StepKeepsConfigurationAndOperands
  intro s t h
  exact ⟨(step_next h).cfg, (step_next h).variant, (step_next h).opr⟩

/-- Settles O54: the accesses are read off what a step can do (`step_next`); the addresses are R60's by definition. -/
theorem stepMakesAtMostOneAccess : Obligations.StepMakesAtMostOneAccess := by
  unfold Obligations.StepMakesAtMostOneAccess
  refine ⟨fun s t h => (step_next h).events, fun c => ?_⟩
  simp [Cfg.addr, Offsets.at]

/-- Settles O50: an operation that is not in progress is one that passes `start`, which makes the checks in order. -/
theorem operationsRefuseToStart : Obligations.OperationsRefuseToStart := by
  unfold Obligations.OperationsRefuseToStart
  refine ⟨fun i s => ⟨fun hb hi => ?_, fun hp hc => ?_, fun hp hc => ?_, fun hp hs hm hv => ?_⟩, ready_iff⟩
  · obtain ⟨k, hk, -⟩ := exec_startsOne i hi
    exact hk.trans (start_busy hb k)
  · obtain ⟨k, hk⟩ := exec_eq_start_of_idle i hp
    exact hk.trans (start_rejected hp (.inl hc) k)
  · obtain ⟨k, hk⟩ := exec_eq_start_of_idle i hp
    exact hk.trans (start_rejected hp (.inr hc) k)
  · obtain ⟨k, hk⟩ := exec_eq_start_of_idle i hp
    exact hk.trans (start_wrongVariant hp ((wf_iff s.cfg).2 ⟨hs, hm⟩) hv k)

end Sys2Proof.Machine
end

section
/-! PROOFS. The statements of 10_state.md: the machine's invariants, operand registers that hold no value, the register
file, and the line a step runs. -/

namespace Sys2Proof.Machine

/-! ### Invariants of every step -/

theorem Touched.res {s u : State} (h : Touched s u) : u.res = s.res := by
  obtain ⟨n, rfl⟩ | h := h
  · rfl
  · exact h.res

theorem Touched.scr {s u : State} (h : Touched s u) : u.uart.scr = s.uart.scr := by
  obtain ⟨n, rfl⟩ | h := h
  · rfl
  · exact h.scr

/-- R21: a label that goes on writes no result register. -/
theorem LabelEnds.res_of_goes {s t : State} (h : LabelEnds s t) (ht : t.pos ≠ .idle) : t.res = s.res := by
  obtain ⟨u, p, hu, _, rfl⟩ | ⟨u, r, hu, _, rfl⟩ := h
  · exact hu.res
  · exact absurd rfl ht

/-- R351: a label writes no DeviceError. -/
theorem LabelEnds.noDeviceError {s t : State} (h : LabelEnds s t) (hs : s.NoDeviceError) : t.NoDeviceError := by
  obtain ⟨u, p, hu, _, rfl⟩ | ⟨u, r, _, hr, rfl⟩ := h
  · exact fun e => hs (hu.res ▸ e)
  · exact hr

/-- R42: a label leaves SCR alone. -/
theorem LabelEnds.scr {s t : State} (h : LabelEnds s t) : t.uart.scr = s.uart.scr := by
  obtain ⟨u, p, hu, _, rfl⟩ | ⟨u, r, hu, _, rfl⟩ := h <;> exact hu.scr

/-- R61: the one event a step may add is legal. -/
theorem Stepped.eventsLegal {s t : State} (h : Stepped s t) (hs : s.EventsLegal) : t.EventsLegal := by
  intro e he
  rw [h.cfg]
  obtain ht | ⟨e', hl, ht⟩ := h.events <;> rw [ht] at he
  · exact hs e he
  · obtain he | he := List.mem_append.1 he
    · exact hs e he
    · exact List.mem_singleton.1 he ▸ hl

/-- R21: an operation starts with no result register holding a value, and each label that goes on leaves them so. -/
theorem Stepped.resultsUnwritten {s t : State} (h : Stepped s t) (hs : s.ResultsUnwritten) : t.ResultsUnwritten := by
  intro ht
  cases h with
  | waits _ e => exact e ▸ hs (e ▸ ht)
  | continues hp u hu e =>
    rw [e] at ht ⊢
    exact (hu.res_of_goes ht).trans (hs hp)
  | starts _ _ _ _ u hu e =>
    rw [e] at ht ⊢
    exact hu.res_of_goes ht
  | latches hr u hu e =>
    rw [e] at ht
    exact absurd (hu.pos.trans hr.1) ht

/-- R20, R22: an operation ends with its operand registers, and a latch line has none. -/
theorem Stepped.operandsUnwritten {s t : State} (h : Stepped s t) (hs : s.OperandsUnwritten) : t.OperandsUnwritten := by
  intro ht
  cases h with
  | waits _ e => exact e ▸ hs (e ▸ ht)
  | continues _ u hu e =>
    rw [e] at ht ⊢
    exact hu.opr.trans (if_pos ht)
  | starts _ _ _ _ u hu e =>
    rw [e] at ht ⊢
    exact hu.opr.trans (if_pos ht)
  | latches hr u hu e =>
    rw [e]
    exact hu.opr.trans (hs hr.1)

theorem Stepped.noDeviceError {s t : State} (h : Stepped s t) (hs : s.NoDeviceError) : t.NoDeviceError := by
  cases h with
  | waits _ e => exact e ▸ hs
  | continues _ u hu e => rw [e]; exact hu.noDeviceError hs
  | starts _ _ _ _ u hu e => rw [e]; exact hu.noDeviceError nofun
  | latches _ u hu e =>
    have hnone : u.NoDeviceError := by simp [State.NoDeviceError, hu.res]
    rw [e]
    exact hnone

theorem Stepped.scr {s t : State} (h : Stepped s t) : t.uart.scr = s.uart.scr := by
  cases h with
  | waits _ e => rw [e]
  | continues _ u hu e => rw [e]; exact hu.scr
  | starts _ _ _ _ u hu e => rw [e]; exact hu.scr
  | latches _ u hu e => rw [e]; exact hu.scr

/-- Settles O55: each of the five is read off what a step can do (`step_next`). -/
theorem machineInvariantKept : Obligations.MachineInvariantKept := by
  unfold Obligations.MachineInvariantKept
  intro s t hev hres hopr hdev hscr h
  have hst := step_next h
  exact ⟨hst.eventsLegal hev, hst.resultsUnwritten hres, hst.operandsUnwritten hopr, hst.noDeviceError hdev,
    hst.scr.trans hscr⟩

/-- Settles O57: at reset the position is Idle and nothing is written, so each invariant holds of nothing. -/
theorem invariantsHoldAtReset : Obligations.InvariantsHoldAtReset := by
  unfold Obligations.InvariantsHoldAtReset
  exact ⟨nofun, fun _ => rfl, fun _ => rfl, nofun, rfl, trivial, nofun, trivial⟩

/-! ### Operand registers that hold no value -/

/-- R21: an outcome that faults on one of these operand registers when one of them holds no value. -/
def FaultsOnMissing (o : Operands) (rs : List OperandName) (out : Out) : Prop :=
  (∃ r ∈ rs, o.has r = false) → ∃ r ∈ rs, o.has r = false ∧ out = .fault (.operandHoldsNoValue r)

theorem faultsOnMissing_nil (o : Operands) (out : Out) : FaultsOnMissing o [] out := nofun

/-- R21: registers are read one after another, and the first that holds no value faults. -/
theorem need_faultsOnMissing {α : Type} {o : Operands} {r : OperandName} {rs : List OperandName} {v : Option α}
    {k : α → Out} (hv : o.has r = v.isSome) (hk : ∀ a, FaultsOnMissing o rs (k a)) :
    FaultsOnMissing o (r :: rs) (need r v k) := by
  intro hm
  cases v with
  | none => exact ⟨r, List.mem_cons_self, hv, rfl⟩
  | some a =>
    obtain ⟨q, hq, hn⟩ := hm
    obtain rfl | hq := List.mem_cons.1 hq
    · simp [hv] at hn
    · obtain ⟨p, hp, hpn, hf⟩ := hk a ⟨q, hq, hn⟩
      exact ⟨p, List.mem_cons_of_mem _ hp, hpn, hf⟩

/-- R21: a codec, calculator or gate operation reads its operand registers in R92's order before it does anything
else. -/
theorem exec_faultsOnMissing (i : Instr) {s : State} (hr : s.Ready) (hf : i.family ≠ .sequencer) :
    FaultsOnMissing s.opr i.operands (exec i s) := by
  cases i with
  | encData | encPar | encStop | lcrPack | lcrEnc | decData | decPar | decStop | fifoDepth | lcrMatch | attrResolve
  | clkScale | divCalc | divCompute | divSplit | divJoin
  | gateTxempty | gateRxready | gatePollrts | ctlSet | ctlGet =>
    dsimp only [exec, execEncData, execEncPar, execEncStop, execLcrPack, execLcrEnc, execDecData, execDecPar,
      execDecStop, execFifoDepth, execLcrMatch, execAttrResolve, execClkScale, execDivCalc, execDivCompute,
      execDivSplit, execDivJoin, execGateTxempty, execGateRxready, execGatePollrts, execCtlSet, execCtlGet]
    rw [start_ready hr]
    repeat refine need_faultsOnMissing (by simp [Operands.has, Operands.value]) fun _ => ?_
    exact faultsOnMissing_nil _ _
  | gateTx => exact faultsOnMissing_nil _ _
  | seqInit | seqWrite | seqRead | seqPoll | seqSetctl | seqGetctl | seqSetattr => exact absurd rfl hf

/-- R152 step 2: data bits in the encoder's range are resolved as they stand. -/
theorem resolveDataBits_valid (src : Option Byte) {d : Byte} (h5 : 5 ≤ d.toNat) (h8 : d.toNat ≤ 8) :
    resolveDataBits src d = .value d := by
  have h0 : d ≠ 0#8 := by rintro rfl; exact absurd h5 (by decide)
  simp [resolveDataBits, h0, encData_isSome, h5, h8]

/-- R152 step 3: a parity other than Default is resolved as it stands. -/
theorem resolveParity_explicit (src : Option Byte) {p : Parity} (h : p ≠ .default) :
    resolveParity src p = .value p := by
  simp [resolveParity, h, encPar_isSome]

/-- R152, R155: a default line setting that is reached needs the live LCR. -/
theorem attrResolve_noSource {c : Cfg} {req : Attr} (hc : c.defaultSource = .liveLcr)
    (h : req.dataBits = 0#8 ∨ (5 ≤ req.dataBits.toNat ∧ req.dataBits.toNat ≤ 8
      ∧ (req.parity = .default ∨ req.stopBits = .default))) :
    attrResolve c req none = .noSource := by
  have hsrc : attrSource c none = none := by simp [attrSource, hc]
  obtain hd | ⟨h5, h8, hp⟩ := h
  · simp [attrResolve, hsrc, resolveDataBits, hd]
  · by_cases hpar : req.parity = .default
    · simp [attrResolve, hsrc, resolveDataBits_valid none h5 h8, resolveParity, hpar]
    · have hstop := hp.resolve_left hpar
      simp [attrResolve, hsrc, resolveDataBits_valid none h5 h8, resolveParity_explicit none hpar, resolveStopBits,
        hstop]

/-- Settles O52: the operands are what an operation reads first (`exec_faultsOnMissing`), a default line setting needs
the live LCR (`attrResolve_noSource`), and the sequencer's operations read each operand at its label. -/
theorem missingOperandFaults : Obligations.MissingOperandFaults := by
  unfold Obligations.MissingOperandFaults
  refine ⟨fun i s hr hf => exec_faultsOnMissing i hr hf, fun s req hr hreq hlive hsrc hdef => ?_, fun s hs hbuf => ?_,
    fun s hp hcount => ?_, fun s hp hmask => ?_, fun s hp hreq => ?_⟩
  · simp [exec, execAttrResolve, start_ready hr, hreq, hlive, attrResolve_noSource hsrc hdef]
  · obtain hr | hp := hs
    · simp [exec, execSeqWrite, hr.1, start_ready hr, hbuf]
    · simp [exec, execSeqWrite, hp, writeLabel, hbuf]
  · simp [exec, execSeqRead, hp, readLabel, hcount]
  · simp [exec, execSeqSetctl, hp, setctlLabel, hmask]
  · simp [exec, execSeqSetattr, hp, setattrLabel, hreq]

/-! ### Register file -/

/-- Settles O59: DLAB is bit 7 of the value LCR has now, and settling LCR keeps that value. -/
theorem dlabBanksAndWriteOnlyRegisters : Obligations.DlabBanksAndWriteOnlyRegisters := by
  unfold Obligations.DlabBanksAndWriteOnlyRegisters
  rintro s _ v kr kw rfl
  refine ⟨fun h => ?_, fun h => ?_, rfl, s.settle_holds .lcr, s.stored_settle .lcr⟩
  · have hd : s.dlab = true := h
    simp [devRead, devWrite, hd]
  · have hd : s.dlab = false := h
    simp [devRead, devWrite, hd, writeOnly, State.record]

/-- R29, R32: in this state an access to the place is one to the stored register. -/
structure State.Reaches (s : State) (r : Slot) (n : StoredName) : Prop where
  read : ∀ k, devRead r s k = readStored r n s k
  write : ∀ v k, devWrite r v s k = writeStored r n v s k

/-- R32: a stored register that is reached now, after a write and after a read of it reads back. -/
theorem readsBack_of_reaches {s : State} {r : Slot} {n : StoredName} (hs : s.Reaches r n)
    (hw : ∀ v e, (State.record { s with uart := s.uart.put n v } e).Reaches r n)
    (hr : ∀ e, ((s.settle n).record e).Reaches r n) : s.ReadsBack r n := by
  constructor
  · intro v k
    have hv : ∀ e, (State.record { s with uart := s.uart.put n v } e).uart.get n = .holds v := fun e => by simp
    rw [hs.write, writeStored, (hw v _).read, readStored, State.stored_of_holds (hv _), State.settle_of_holds (hv _)]
    simp [State.record]
  · intro k
    have hv : ∀ e, ((s.settle n).record e).uart.get n = .holds (s.stored n) := fun _ => s.settle_holds n
    rw [hs.read, readStored, (hr _).read, readStored, State.stored_of_holds (hv _), State.settle_of_holds (hv _)]
    simp [State.record]

/-- R29: a register other than LCR that LCR's value reaches reads back: no access to it changes LCR. -/
theorem readsBack_in_bank {s : State} {r : Slot} {n : StoredName} {l : Byte} (hl : s.uart.lcr = .holds l)
    (hn : StoredName.lcr ≠ n) (h : ∀ t : State, t.uart.lcr = .holds l → t.Reaches r n) : s.ReadsBack r n :=
  readsBack_of_reaches (h s hl) (fun v _ => h _ ((s.uart.get_put_other v hn).trans hl))
    fun _ => h _ ((s.settle_get_other hn).trans hl)

/-- R29: with LCR holding a value, the bank is that value's bit 7. -/
theorem dlab_of_holds {s : State} {l : Byte} (hl : s.uart.lcr = .holds l) : s.dlab = l.getLsbD 7 :=
  congrArg (bit · 7) (State.stored_of_holds (r := .lcr) hl)

/-- Settles O60: LCR and MCR are reached in every state, DLL, DLM and IER in every state whose LCR holds their bank. -/
theorem storedRegistersReadBack : Obligations.StoredRegistersReadBack := by
  unfold Obligations.StoredRegistersReadBack
  have lcr (s : State) : s.Reaches R_LCR .lcr := ⟨fun _ => rfl, fun _ _ => rfl⟩
  have mcr (s : State) : s.Reaches R_MCR .mcr := ⟨fun _ => rfl, fun _ _ => rfl⟩
  have settled {t : State} {l : Byte} (ht : t.uart.lcr = .holds l) : t.settle .lcr = t := State.settle_of_holds ht
  refine ⟨fun s => ⟨?_, ?_⟩, fun s l hl hd => ⟨?_, ?_⟩, fun s l hl hd => ?_⟩
  · exact readsBack_of_reaches (lcr _) (fun _ _ => lcr _) fun _ => lcr _
  · exact readsBack_of_reaches (mcr _) (fun _ _ => mcr _) fun _ => mcr _
  all_goals
    refine readsBack_in_bank hl nofun fun t ht => ?_
    have hb := (dlab_of_holds ht).trans hd
    constructor <;> simp [devRead, devWrite, hb, settled ht]

/-! ### The line a step runs -/

/-- R93: a well-formed line gives no operand register twice. -/
theorem argsGiven_nodup {i : Instr} {args : List (OperandName × Source)} (h : i.argsGiven args = true) :
    (args.map Prod.fst).Nodup := by
  simp only [Instr.argsGiven, Bool.and_eq_true, decide_eq_true_eq] at h
  exact h.1.2

section Line
variable {s : State} {lbl : Option Ident} {op : Byte} {args : List (OperandName × Source)}
  {outs : List (Option Ident)} {rest : List Line}

theorem step_of_inProgress {i : Instr} (h : s.pos.inProgress = some i) : step s = deliver i (exec i s) := by
  simp [step, h]

/-- R382: with no line to start the block waits. -/
theorem step_of_noLine (hp : s.pos = .idle) (hs : s.program = []) : step s = .next s := by
  simp [step, hp, Position.inProgress, hs]

/-- R93: at Idle an operation line is issued. -/
theorem step_of_line (hp : s.pos = .idle) (hs : s.program = .op lbl op args outs :: rest) :
    step s = issue op args outs rest s := by
  simp [step, hp, Position.inProgress, hs]

/-- R106. -/
theorem issue_of_unlisted {e : DecodeError} (hd : decode [op] = .error e) :
    issue op args outs rest s = .refused (.selectorUnlisted op) := by
  simp [issue, hd]

theorem issue_of_illFormed {i : Instr} (hd : decode [op] = .ok (i, []))
    (h : i.argsGiven args = false ∨ i.outsFit outs = false) :
    issue op args outs rest s = .refused .lineIllFormed := by
  have hg : (i.argsGiven args && i.outsFit outs) = false := by simpa only [Bool.and_eq_false_iff] using h
  simp [issue, hd, hg]

/-- R93: a well-formed line loads its operands and runs its operation. -/
theorem issue_of_wellFormed {i : Instr} (hd : decode [op] = .ok (i, [])) (ha : i.argsGiven args = true)
    (ho : i.outsFit outs = true) : issue op args outs rest s
      = loadArgs s.names args {} fun o => deliver i (exec i { s with program := rest, opr := o, outs := outs }) := by
  simp [issue, hd, ha, ho]

end Line

section Loading
variable {names : List (Ident × Value)} {args : List (OperandName × Source)}

theorem operands_empty_value (r : OperandName) : Operands.value {} r = none := by cases r <;> rfl

/-- R94: a value that can stand in its register can still when no further name is bound. -/
theorem FitsRegister.append_nil {r : OperandName} {src : Source} (h : FitsRegister names r src) :
    FitsRegister (names ++ []) r src := by
  rwa [List.append_nil]

/-- R94: operand registers that hold what a line writes, and no other value, are what the line loads. -/
theorem loadArgs_of_means (hn : (args.map Prod.fst).Nodup) {o : Operands}
    (hin : ∀ q ∈ args, ∃ v, SourceMeans names q.2 v ∧ o.value q.1 = some v)
    (hout : ∀ r, r ∉ args.map Prod.fst → o.value r = none) (k : Operands → Out) :
    loadArgs names args {} k = k o := by
  obtain ⟨o', hk, hin', hout'⟩ | ⟨q, hq, x, hx, hnone, -⟩ | ⟨q, hq, hfit, -⟩ := loadArgs_cases names args hn {}
  · have same : o' = o := operands_ext fun r => by
      by_cases hr : r ∈ args.map Prod.fst
      · obtain ⟨q, hq, rfl⟩ := List.mem_map.1 hr
        obtain ⟨v, hv, hov⟩ := hin q hq
        obtain ⟨w, hw, how⟩ := hin' q hq
        rw [how, hov, sourceMeans_unique hw hv]
      · rw [hout' r hr, hout r hr, operands_empty_value]
    rw [hk, same]
  · obtain ⟨v, hv, -⟩ := hin q hq
    exact absurd hnone (lookup_of_sourceMeans hv hx)
  · obtain ⟨v, hv, hov⟩ := hin q hq
    exact absurd (FitsRegister.append_nil ⟨v, o, hv, hov⟩) (hfit [])

/-- R21, R94: a line whose only fault is names that hold no value faults on one of them. -/
theorem loadArgs_of_unbound (hn : (args.map Prod.fst).Nodup)
    (hfit : ∀ q ∈ args, ∃ more, FitsRegister (names ++ more) q.1 q.2)
    (hx : ∃ q ∈ args, ∃ x ∈ sourceNames q.2, names.lookup x = none) (k : Operands → Out) :
    ∃ q ∈ args, ∃ x ∈ sourceNames q.2, names.lookup x = none
      ∧ loadArgs names args {} k = .fault (.nameHoldsNoValue x) := by
  obtain ⟨o, -, hin, -⟩ | ⟨q, hq, x, hxq, hnone, hk⟩ | ⟨q, hq, hno, -⟩ := loadArgs_cases names args hn {}
  · obtain ⟨q, hq, x, hxq, hnone⟩ := hx
    obtain ⟨v, hv, -⟩ := hin q hq
    exact absurd hnone (lookup_of_sourceMeans hv hxq)
  · exact ⟨q, hq, x, hxq, hnone, hk k⟩
  · obtain ⟨more, h⟩ := hfit q hq
    exact absurd h (hno more)

/-- R94: a line all of whose names hold values, with a value that cannot stand in its register, is refused on one. -/
theorem loadArgs_of_illTyped (hn : (args.map Prod.fst).Nodup)
    (hx : ∀ q ∈ args, ∀ x ∈ sourceNames q.2, names.lookup x ≠ none)
    (hno : ∃ q ∈ args, ¬ FitsRegister names q.1 q.2) (k : Operands → Out) :
    ∃ q ∈ args, ¬ FitsRegister names q.1 q.2 ∧ loadArgs names args {} k = .refused (.operandIllTyped q.1) := by
  obtain ⟨o, -, hin, -⟩ | ⟨q, hq, x, hxq, hnone, -⟩ | ⟨q, hq, hnot, hk⟩ := loadArgs_cases names args hn {}
  · obtain ⟨q, hq, hnot⟩ := hno
    obtain ⟨v, hv, hov⟩ := hin q hq
    exact absurd ⟨v, o, hv, hov⟩ hnot
  · exact absurd hnone (hx q hq x hxq)
  · exact ⟨q, hq, fun h => hnot [] h.append_nil, hk k⟩

end Loading

/-- Settles O46: a step delivers what `exec` answers (`deliver_runsAs`), and a line's operands load in the three ways of
`loadArgs_cases`. -/
theorem stepRunsDecodedOperation : Obligations.StepRunsDecodedOperation := by
  unfold Obligations.StepRunsDecodedOperation
  refine ⟨fun s i hi => ?_, fun s i lbl op args outs rest hp hs hd ha ho => ?_,
    fun s lbl op args outs rest e hp hs hd => (step_of_line hp hs).trans (issue_of_unlisted hd),
    fun s i lbl op args outs rest hp hs hd h => (step_of_line hp hs).trans (issue_of_illFormed hd h),
    fun s hp hs => step_of_noLine hp hs⟩
  · rw [step_of_inProgress hi]
    exact deliver_runsAs i _
  · have hn := argsGiven_nodup ha
    rw [step_of_line hp hs, issue_of_wellFormed hd ha ho]
    refine ⟨fun o hin hout => ?_, fun hfit hx => loadArgs_of_unbound hn hfit hx _,
      fun hx hno => loadArgs_of_illTyped hn hx hno _⟩
    rw [loadArgs_of_means hn hin hout]
    exact deliver_runsAs i _

end Sys2Proof.Machine
end

section
/-! PROOFS. The statements of 30_encoding.md: selectors and their operations, the pseudo-operations, and the control
masks. -/

namespace Sys2Proof.Machine

/-! ### Selectors -/

/-- R91: an operation's selector spells it. -/
@[simp] theorem decodeSelector_encodeSelector (i : Instr) : decodeSelector (encodeSelector i) = .ok i := by
  cases i <;> rfl

/-- R91, R106: a byte is the selector of the operation it decodes to, or is refused by name. -/
theorem decodeSelector_cases (op : Byte) :
    (∃ i, decodeSelector op = .ok i ∧ op = encodeSelector i) ∨ decodeSelector op = .error (.unlisted op) := by
  unfold decodeSelector
  split
  case h_30 => exact .inr rfl
  all_goals exact .inl ⟨_, rfl, BitVec.eq_of_toNat_eq (by assumption)⟩

/-- Settles O48: an operation's selector spells it, and every byte is such a selector or refused by name. -/
theorem selectorsDecodeUniquely : Obligations.SelectorsDecodeUniquely := by
  unfold Obligations.SelectorsDecodeUniquely
  refine ⟨fun i rest => ?_, fun op i hi => ?_, fun op hno => ?_⟩
  · simp [encode, decode, Except.map]
  · obtain ⟨j, hj, hop⟩ | herr := decodeSelector_cases op
    · obtain rfl : j = i := Except.ok.inj (hj.symm.trans hi)
      exact hop
    · cases herr.symm.trans hi
  · obtain ⟨j, -, hop⟩ | herr := decodeSelector_cases op
    · exact absurd hop (hno j)
    · exact herr

/-- Settles O49: an operation's selector is looked up in its row, and a byte that the decoder refuses is in no row. -/
theorem selectorTableAsWritten : Obligations.SelectorTableAsWritten := by
  unfold Obligations.SelectorTableAsWritten
  intro op
  obtain ⟨i, -, rfl⟩ | herr := decodeSelector_cases op
  · cases i <;> rfl
  · split
    case h_30 => rw [decode, herr, Except.map]
    all_goals
      rename_i hrow
      rw [decodeSelector, hrow] at herr
      cases herr

/-! ### Control masks -/

/-- R248: the MCR value a valid mask gives, bit by bit. -/
theorem ctlMcr_getLsbD (g : Signals) (mask : U32) (m : Byte) (i : Nat) : (ctlMcr g mask m).getLsbD i =
    if i = 0 then decide (mask &&& g.dtr ≠ 0#32)
    else if i = 1 then decide (mask &&& g.rts ≠ 0#32) else m.getLsbD i := by
  rw [ctlMcr_eq]
  obtain hi | hi := Nat.lt_or_ge i 8
  · interval_cases i <;> split_ifs <;> simp_all
  · simp [BitVec.getLsbD_of_ge _ i hi, show i ≠ 0 by omega, show i ≠ 1 by omega]

/-- R105: a mask is accepted when it lies within SET_MASK. -/
theorem maskAccepted_iff (g : Signals) (mask : U32) :
    maskAccepted g mask = true ↔ mask &&& ~~~(g.rts ||| g.dtr ||| g.hwFlow) = 0#32 := by
  unfold maskAccepted Signals.setMask
  exact decide_eq_true_iff

/-- Settles O20: the mask test picks the clause, and the value is read bit by bit (`ctlMcr_getLsbD`). -/
theorem ctlSetReplacesDtrAndRts : Obligations.CtlSetReplacesDtrAndRts := by
  unfold Obligations.CtlSetReplacesDtrAndRts
  refine ⟨rfl, ?_, by decide⟩
  rintro s mask m _ hr hmask hmcr rfl
  have hpos := hr.1
  refine ⟨fun hin => ⟨ctlMcr s.cfg.signals mask m, ?_, ?_, ?_, fun i hi => ?_⟩, fun hout => ?_⟩
  · simp [exec, execCtlSet, start_ready hr, hmask, hmcr, ctlSet, (maskAccepted_iff _ _).2 hin, finish, hpos]
  · exact ctlMcr_getLsbD s.cfg.signals mask m 0
  · exact ctlMcr_getLsbD s.cfg.signals mask m 1
  · rw [ctlMcr_getLsbD, if_neg (by omega), if_neg (by omega)]
  · simp [exec, execCtlSet, start_ready hr, hmask, hmcr, ctlSet, mt (maskAccepted_iff _ _).1 hout, raise, finish, hpos]

/-! ### Pseudo-operations -/

/-- R95: at Idle a pseudo-operation's line performs one round of its expansion. -/
theorem step_of_pseudo {s : State} {lbl : Option Ident} {p : Pseudo} {rest : List Line} (hp : s.pos = .idle)
    (hs : s.program = .pseudo lbl p :: rest) : step s = pseudoStep p rest s := by
  simp [step, hp, Position.inProgress, hs]

/-- R15, R33: what an operation that has just started makes of a read of an environment register. -/
theorem readEnv_started (r : Slot) (n : EnvName) (s : State) (k : Byte → State → Out) :
    readEnv r n { s with res := {} } k = k (s.drawn n) { s.draw n with
      res := {}, events := s.events ++ [readEvent s.cfg r (s.drawn n)] } := by
  have hdraw : State.draw { s with res := {} } n = { s.draw n with res := {} } := by
    unfold State.draw
    dsimp only
    split <;> rfl
  simp only [readEnv, hdraw, State.record, State.draw_events]
  rfl

/-- R95: the operation a wait evaluates ends; its line is done when the predicate holds, and stays otherwise. -/
theorem untilTrue_finish (rest : List Line) (result : Results → Option Bool) (r : Results) (s : State) :
    untilTrue rest result (finish r s) = .next { s with
      opr := {}, res := r, pos := .idle, program := if result r = some true then rest else s.program } := by
  simp only [finish, untilTrue]
  split <;> rfl

/-- R243: GATE.TXEMPTY that may start and has its LSR value. -/
theorem execGateTxempty_ready {s : State} {l : Byte} (hr : s.Ready) (hl : s.opr.lsr = some l) :
    execGateTxempty s = finish { empty := some (l.getLsbD 5 && l.getLsbD 6) } s := by
  simp [execGateTxempty, start_ready hr, hl, txEmpty_bits, finish]

/-- R245: GATE.RXREADY that may start and has its LSR value. -/
theorem execGateRxready_ready {s : State} {l : Byte} (hr : s.Ready) (hl : s.opr.lsr = some l) :
    execGateRxready s = finish { ready := some (l.getLsbD 0) } s := by
  simp [execGateRxready, start_ready hr, hl, rxReady, finish]

/-- R95: one round of a wait that reads LSR and gives the value to a gate operation. -/
theorem waitOnLsr_ready {op : State → Out} {result : Results → Option Bool} {r : Byte → Results} {s : State}
    (hop : ∀ v l, v.Ready → v.opr.lsr = some l → op v = finish (r l) v) (rest : List Line) (hr : s.Ready) :
    start s (fun s => devRead R_LSR s fun l s => untilTrue rest result (op { s with opr := { lsr := some l } }))
      = .next { s.draw .lsr with
          events := s.events ++ [readEvent s.cfg R_LSR (s.drawn .lsr)], opr := {}, res := r (s.drawn .lsr)
          program := if result (r (s.drawn .lsr)) = some true then rest else s.program } := by
  rw [start_ready hr]
  dsimp only [devRead]
  rw [readEnv_started, hop _ _ (by simpa using hr) rfl, untilTrue_finish]
  simp [hr.1]

/-- R95, R240, R241: one round of WAIT.WRITABLE with flow control, and the whole of it without. -/
theorem waitWritable_ready {s : State} (rest : List Line) (hr : s.Ready) :
    (s.cfg.hwFlow = true → pseudoStep .waitWritable rest s = .next { s.draw .msr with
      events := s.events ++ [readEvent s.cfg R_MSR (s.drawn .msr)], opr := {}
      res := { writable := some (txWritable s.cfg.detectCable (s.drawn .msr)) }
      program := if txWritable s.cfg.detectCable (s.drawn .msr) then rest else s.program })
    ∧ (s.cfg.hwFlow = false → pseudoStep .waitWritable rest s
      = .next { s with opr := {}, res := { writable := some true }, program := rest }) := by
  dsimp only [pseudoStep, execGateTx]
  rw [start_ready hr]
  dsimp only [gateTx, devRead]
  rw [readEnv_started]
  refine ⟨fun hf => ?_, fun hf => ?_⟩
  · rw [if_pos hf, untilTrue_finish]
    simp [hr.1]
  · rw [if_neg (by simp [hf]), untilTrue_finish]
    simp [hr.1]

/-- R94: reading the value a line writes for an operand goes on with the value that is meant. -/
theorem sourceValue_of_means {names : List (Ident × Value)} {src : Source} {v : Value} (h : SourceMeans names src v)
    (r : OperandName) (k : Value → Out) : sourceValue names r src k = k v := by
  cases sourceValue_reads names r src with
  | goesOn y hy _ hk => rw [hk, sourceMeans_unique hy h]
  | faults x hx hn _ => exact absurd hn (lookup_of_sourceMeans h hx)
  | refuses hno _ => exact absurd h (by simpa using hno [] v)

/-- R95: LATCH.OFF writes LCR with bits 5:0 of its operand. -/
theorem latchOff_ready {s : State} {src : Source} {v : Byte} (rest : List Line) (hr : s.Ready)
    (hv : SourceMeans s.names src (.num v.toNat)) :
    pseudoStep (.latchOff src) rest s = .next { s with
      uart := s.uart.put .lcr (v &&& 0x3F#8), events := s.events ++ [writeEvent s.cfg R_LCR (v &&& 0x3F#8)]
      res := {}, program := rest } := by
  have hload (k : Operands → Out) : loadArgs s.names [(.lcr, src)] {} k = k { lcr := some v } := by
    simp [loadArgs, sourceValue_of_means hv, typed, Operands.load, fits_toNat]
  dsimp only [pseudoStep]
  rw [start_ready hr, hload]
  rfl

/-- Settles O47: the two waits on LSR are one rule (`waitOnLsr_ready`), the third is the transmit gate, and a latch line
is its one LCR write. -/
theorem pseudoOperationsRun : Obligations.PseudoOperationsRun := by
  unfold Obligations.PseudoOperationsRun
  intro s lbl rest hr
  refine ⟨fun hs l e hl he => ?_, fun hs m w hm hw => ?_, fun hs l hl => ?_, fun hs => ?_,
    fun src v hs hsrc => ?_⟩ <;> rw [step_of_pseudo hr.1 hs]
  · subst hl he
    exact (waitOnLsr_ready (fun _ _ => execGateTxempty_ready) rest hr).trans (by simp)
  · subst hm hw
    exact waitWritable_ready rest hr
  · subst hl
    exact (waitOnLsr_ready (fun _ _ => execGateRxready_ready) rest hr).trans (by simp)
  · dsimp only [pseudoStep]
    rw [start_ready hr]
    rfl
  · refine latchOff_ready rest hr ?_
    obtain rfl | ⟨x, rfl, hx⟩ := hsrc
    · rfl
    · exact hx

end Sys2Proof.Machine
end

section
/-! PROOFS. The statements of 40_codec.md. The layer they rest on comes first: each encoder and decoder by its code
table, the packed byte by its three fields, and a resolution by its steps. -/

namespace Sys2Proof.Machine

/-! ### Encoders -/

/-- R140. -/
theorem encData_of_valid {d : Byte} (h : 5 ≤ d.toNat ∧ d.toNat ≤ 8) :
    encData d = some (BitVec.ofNat 2 (d.toNat - 5)) :=
  if_pos h

/-- R140. -/
theorem encData_of_invalid {d : Byte} (h : ¬ (5 ≤ d.toNat ∧ d.toNat ≤ 8)) : encData d = none :=
  if_neg h

/-- R96, R141. -/
theorem encPar_eq_some_iff {p : Parity} {c : BitVec 3} : encPar p = some c ↔ (p, c) ∈ parityTable := by
  revert c
  cases p <;> decide

/-- R98, R142. -/
theorem encStop_eq_some_iff {b : StopBits} {c : BitVec 1} : encStop b = some c ↔ (b, c) ∈ stopTable := by
  revert c
  cases b <;> decide

/-- R99, R143. -/
theorem lcrPack_eq_append : ∀ (dc : BitVec 2) (sc : BitVec 1) (pc : BitVec 3),
    lcrPack dc sc pc = 0#2 ++ pc ++ sc ++ dc := by decide

/-- R144: a byte is encoded exactly from valid settings, and lays their codes out. -/
theorem lcrEnc_eq_some_iff {d : Byte} {p : Parity} {b : StopBits} {l : Byte} : lcrEnc d p b = some l ↔
    ∃ pc sc, (5 ≤ d.toNat ∧ d.toNat ≤ 8) ∧ (p, pc) ∈ parityTable ∧ (b, sc) ∈ stopTable
      ∧ l = 0#2 ++ pc ++ sc ++ BitVec.ofNat 2 (d.toNat - 5) := by
  constructor
  · intro h
    unfold lcrEnc at h
    split at h
    · next dc pc sc hd hp hb =>
      have hrange : 5 ≤ d.toNat ∧ d.toNat ≤ 8 := by simpa [hd] using encData_isSome d
      cases hd.symm.trans (encData_of_valid hrange)
      cases h
      exact ⟨pc, sc, hrange, encPar_eq_some_iff.1 hp, encStop_eq_some_iff.1 hb, lcrPack_eq_append _ _ _⟩
    · cases h
  · rintro ⟨pc, sc, hd, hp, hb, rfl⟩
    simp only [lcrEnc, encData_of_valid hd, encPar_eq_some_iff.2 hp, encStop_eq_some_iff.2 hb, lcrPack_eq_append]

/-- R144: an encoded byte needs all three codes. -/
theorem lcrEnc_isSome (d : Byte) (p : Parity) (b : StopBits) :
    (lcrEnc d p b).isSome = ((encData d).isSome && (encPar p).isSome && (encStop b).isSome) := by
  unfold lcrEnc
  cases encData d <;> cases encPar p <;> cases encStop b <;> rfl

/-- R144: encoding fails exactly when an encoder does. -/
theorem lcrEnc_eq_none_iff {d : Byte} {p : Parity} {b : StopBits} : lcrEnc d p b = none ↔
    ¬ (5 ≤ d.toNat ∧ d.toNat ≤ 8) ∨ p = .default ∨ b = .default := by
  rw [← Option.not_isSome_iff_eq_none, lcrEnc_isSome, encData_isSome, encPar_isSome, encStop_isSome]
  simp only [Bool.and_eq_true, decide_eq_true_eq, ne_eq, not_and_or, not_not, or_assoc]

/-! ### Decoders -/

/-- R145. -/
theorem decData_eq (l : Byte) : decData l = BitVec.ofNat 8 (l.toNat % 4 + 5) := by
  apply BitVec.eq_of_toNat_eq
  simp [decData]

theorem decData_range (l : Byte) : 5 ≤ (decData l).toNat ∧ (decData l).toNat ≤ 8 := by
  rw [decData_eq, BitVec.toNat_ofNat]
  omega

/-- R96, R146. -/
theorem decPar_eq_some_iff {l : Byte} {p : Parity} : decPar l = some p ↔ (p, l.extractLsb' 3 3) ∈ parityTable := by
  unfold decPar
  generalize l.extractLsb' 3 3 = c
  revert c
  cases p <;> decide

/-- R146: the codes 2, 4 and 6 are undecodable. -/
theorem decPar_eq_none {l : Byte} (h : l.toNat / 8 % 8 ∈ [2, 4, 6]) : decPar l = none := by
  have hcode : (l.extractLsb' 3 3).toNat = l.toNat / 8 % 8 := by simp [Nat.shiftRight_eq_div_pow]
  simp only [List.mem_cons, List.not_mem_nil, or_false] at h
  obtain h | h | h := h <;> simp only [decPar, hcode, h]

/-- R147. -/
theorem decStop_eq (l d : Byte) : decStop l d =
    if l.getLsbD 2 = false then .one else if d.toNat = 5 then .oneAndHalf else .two := by
  have h5 : d = 5#8 ↔ d.toNat = 5 := BitVec.toNat_inj.symm
  simp only [decStop, h5]

/-- R98, R147: whatever stop bits a byte decodes to have its stop code. -/
theorem decStop_mem_stopTable (l d : Byte) : (decStop l d, l.extractLsb' 2 1) ∈ stopTable := by
  have hcode : l.extractLsb' 2 1 = BitVec.ofBool (l.getLsbD 2) := by revert l; decide
  rw [decStop_eq, hcode]
  split_ifs <;> simp_all [stopTable]

/-! ### The packed byte -/

section Packed
variable (pc : BitVec 3) (sc : BitVec 1) (dc : BitVec 2)

theorem packed_parCode : (0#2 ++ pc ++ sc ++ dc : Byte).extractLsb' 3 3 = pc := by
  revert pc sc dc; decide

theorem packed_stopCode : (0#2 ++ pc ++ sc ++ dc : Byte).getLsbD 2 = sc.getLsbD 0 := by
  revert pc sc dc; decide

theorem packed_dataCode : (0#2 ++ pc ++ sc ++ dc : Byte).toNat % 4 = dc.toNat := by
  revert pc sc dc; decide

end Packed

/-- R99: a byte's three codes, packed again, are its bits 5:0. -/
theorem packed_of_codes : ∀ l : Byte,
    0#2 ++ l.extractLsb' 3 3 ++ l.extractLsb' 2 1 ++ BitVec.ofNat 2 ((decData l).toNat - 5) = l &&& 0x3F#8 := by
  decide

/-- R147: packed stop bits decode to themselves, but for the one-and-a-half and two ambiguity. -/
theorem decStop_packed {b : StopBits} {sc : BitVec 1} (hb : (b, sc) ∈ stopTable) (pc : BitVec 3) (dc : BitVec 2)
    (d : Byte) : decStop (0#2 ++ pc ++ sc ++ dc) d =
      if b = .one then .one else if d.toNat = 5 then .oneAndHalf else .two := by
  rw [decStop_eq, packed_stopCode]
  simp only [stopTable, List.mem_cons, Prod.mk.injEq, List.not_mem_nil, or_false] at hb
  obtain ⟨rfl, rfl⟩ | ⟨rfl, rfl⟩ | ⟨rfl, rfl⟩ := hb <;> rfl

/-- Settles O11: both directions go through the three codes of the packed byte (`lcrEnc_eq_some_iff`). -/
theorem codecRoundTrip : Obligations.CodecRoundTrip := by
  unfold Obligations.CodecRoundTrip
  refine ⟨fun d p b l h => ?_, fun d p b h5 h8 hp hb => ?_, fun l p h => ?_⟩
  · obtain ⟨pc, sc, hd, hp, hb, rfl⟩ := lcrEnc_eq_some_iff.1 h
    refine ⟨?_, ?_, ?_, ?_, ?_⟩
    · rw [decData_eq, packed_dataCode]
      apply BitVec.eq_of_toNat_eq
      simp only [BitVec.toNat_ofNat]
      omega
    · rw [decPar_eq_some_iff, packed_parCode]
      exact hp
    all_goals rw [decStop_packed hb]
    · rintro (rfl | ⟨rfl, h5⟩ | ⟨rfl, h5⟩)
      · rfl
      · simp [h5]
      · simp [h5]
    · rintro rfl h5
      simp [h5]
    · rintro rfl h5
      simp [h5]
  · rw [Option.isSome_iff_ne_none, ne_eq, lcrEnc_eq_none_iff]
    simp [h5, h8, hp, hb]
  · exact lcrEnc_eq_some_iff.2 ⟨_, _, decData_range l, decPar_eq_some_iff.1 h, decStop_mem_stopTable l _,
      (packed_of_codes l).symm⟩

/-! ### Operations -/

/-- R25: an operation that has just started and ends leaves its results, no operand, and the rest as it was. -/
theorem finish_started {s : State} (hr : s.Ready) (r : Results) :
    finish r { s with res := {} } = .next { s with opr := {}, res := r } := by
  simp [finish, hr.1]

/-- R350: an operation that has just started and fails leaves a status and no other result. -/
theorem raise_started {s : State} (hr : s.Ready) (st : Status) :
    raise st { s with res := {} } = .next { s with opr := {}, res := { st := some st } } :=
  finish_started hr _

/-- Settles O1: the two branches of the encoder. -/
theorem encDataCodesFiveToEight : Obligations.EncDataCodesFiveToEight := by
  unfold Obligations.EncDataCodesFiveToEight
  refine ⟨rfl, fun s d hr hd => ?_⟩
  simp only [exec, execEncData, start_ready hr, hd, need_some]
  split_ifs with h
  · simp only [encData_of_valid h, finish_started hr]
  · simp only [encData_of_invalid h, raise_started hr]

/-- R130: the interface has six numbers of Parity, 0 to 5. -/
theorem parityOfNumber_eq_none_iff (n : Nat) : parityOfNumber n = none ↔ 5 < n := by
  match n with
  | 0 | 1 | 2 | 3 | 4 | 5 => simp [parityOfNumber]
  | n + 6 => simp [parityOfNumber]

/-- Settles O2: the encoders are their tables (`encPar_eq_some_iff`, `encStop_eq_some_iff`). -/
theorem encParAndEncStopFollowTables : Obligations.EncParAndEncStopFollowTables := by
  unfold Obligations.EncParAndEncStopFollowTables
  refine ⟨rfl, rfl, fun s p hr hp => ⟨fun c hc => ?_, ?_⟩, fun s b hr hb => ⟨fun c hc => ?_, ?_⟩,
    parityOfNumber_eq_none_iff⟩
  · simp only [exec, execEncPar, start_ready hr, hp, need_some, encPar_eq_some_iff.2 hc, finish_started hr]
  · rintro rfl
    simp only [exec, execEncPar, start_ready hr, hp, need_some, encPar, raise_started hr]
  · simp only [exec, execEncStop, start_ready hr, hb, need_some, encStop_eq_some_iff.2 hc, finish_started hr]
  · rintro rfl
    simp only [exec, execEncStop, start_ready hr, hb, need_some, encStop, raise_started hr]

/-- Settles O3: R99's layout of the packed byte (`lcrPack_eq_append`). -/
theorem lcrPackLaysOutCodes : Obligations.LcrPackLaysOutCodes := by
  unfold Obligations.LcrPackLaysOutCodes
  refine ⟨rfl, fun s dc sc pc hr hdc hsc hpc => ?_⟩
  simp only [exec, execLcrPack, start_ready hr, hdc, hsc, hpc, need_some, lcrPack_eq_append, finish_started hr]

/-- Settles O4: when the encoder answers and what (`lcrEnc_eq_some_iff`), and when it fails (`lcrEnc_eq_none_iff`). -/
theorem lcrEncValidatesThenPacks : Obligations.LcrEncValidatesThenPacks := by
  unfold Obligations.LcrEncValidatesThenPacks
  refine ⟨rfl, fun s d p b hr hd hp hb => ⟨fun pc sc h5 h8 hpc hsc => ?_, fun h => ?_⟩⟩
  · have henc := lcrEnc_eq_some_iff.2 ⟨pc, sc, ⟨h5, h8⟩, hpc, hsc, rfl⟩
    simp only [exec, execLcrEnc, start_ready hr, hd, hp, hb, need_some, henc, finish_started hr]
  · have henc := lcrEnc_eq_none_iff.2 h
    simp only [exec, execLcrEnc, start_ready hr, hd, hp, hb, need_some, henc, raise_started hr]

/-- Settles O5: the decoder is the table read backwards (`decPar_eq_some_iff`), and the other codes fail. -/
theorem decParInvertsTable : Obligations.DecParInvertsTable := by
  unfold Obligations.DecParInvertsTable
  refine ⟨rfl, fun s l hr hl => ⟨fun p hp => ?_, fun h => ?_⟩⟩
  · simp only [exec, execDecPar, start_ready hr, hl, need_some, decPar_eq_some_iff.2 hp, finish_started hr]
  · simp only [exec, execDecPar, start_ready hr, hl, need_some, decPar_eq_none h, raise_started hr]

/-- Settles O6: the two decoders in the statement's terms (`decData_eq`, `decStop_eq`). -/
theorem decDataAndDecStop : Obligations.DecDataAndDecStop := by
  unfold Obligations.DecDataAndDecStop
  refine ⟨rfl, rfl, fun s l hr hl => ?_, fun s l d hr hl hd => ?_⟩
  · simp only [exec, execDecData, start_ready hr, hl, need_some, decData_eq, finish_started hr]
  · simp only [exec, execDecStop, start_ready hr, hl, hd, need_some, decStop_eq, finish_started hr]

/-- Settles O7: FIFO.DEPTH on its operands, and label W3 of a Write on the configuration. -/
theorem fifoDepthFromControlByte : Obligations.FifoDepthFromControlByte := by
  unfold Obligations.FifoDepthFromControlByte
  refine ⟨rfl, fun s f n hr hf hn => ?_, fun s buf hp hbuf => ?_⟩
  · simp only [exec, execFifoDepth, start_ready hr, hf, hn, need_some, finish_started hr]
    rfl
  · simp only [exec, execSeqWrite, hp, writeLabel, hbuf, need_some, goto]
    rfl

/-- Settles O8: agreement on bits 5:0 is agreement modulo 64 (`lcrMatch_eq_mod`). -/
theorem lcrMatchComparesSixBits : Obligations.LcrMatchComparesSixBits := by
  unfold Obligations.LcrMatchComparesSixBits
  refine ⟨rfl, fun s a b hr ha hb => ?_⟩
  simp only [exec, execLcrMatch, start_ready hr, ha, hb, need_some, lcrMatch_eq_mod, finish_started hr]

/-! ### Attribute resolution -/

/-- R153. -/
theorem attrSource_eq (c : Cfg) (live : Option Byte) :
    attrSource c live = if c.defaultSource = .liveLcr then live else some c.lcr := by
  cases h : c.defaultSource <;> simp [attrSource, h]

section Steps
variable {src : Option Byte}

/-- R152 step 2: default data bits decode from the source. -/
theorem resolveDataBits_default {l : Byte} (hs : src = some l) : resolveDataBits src 0#8 = .value (decData l) := by
  simp [resolveDataBits, hs]

/-- R152 step 2: explicit data bits outside the encoder's range are invalid. -/
theorem resolveDataBits_invalid {d : Byte} (h0 : d ≠ 0#8) (h : ¬ (5 ≤ d.toNat ∧ d.toNat ≤ 8)) :
    resolveDataBits src d = .invalid := by
  simp [resolveDataBits, h0, encData_of_invalid h]

/-- R152 step 3: a default parity decodes from the source, or is invalid. -/
theorem resolveParity_default {l : Byte} (hs : src = some l) :
    resolveParity src .default = (decPar l).elim .invalid .value := by
  cases h : decPar l <;> simp [resolveParity, hs, h]

/-- R152 step 4: default stop bits decode from the source, by the resolved data bits. -/
theorem resolveStopBits_default {l : Byte} (hs : src = some l) (d : Byte) :
    resolveStopBits src d .default = .value (decStop l d) := by
  simp [resolveStopBits, hs]

/-- R152 step 4: stop bits other than Default are resolved as they stand. -/
theorem resolveStopBits_explicit (d : Byte) {b : StopBits} (h : b ≠ .default) :
    resolveStopBits src d b = .value b := by
  simp [resolveStopBits, h, encStop_isSome]

end Steps

section Request
variable {c : Cfg} {req : Attr} {live : Option Byte} {d : Byte}

/-- R152, R155: a request whose every step gives a value is resolved to these values and the byte they pack to. -/
theorem attrResolve_of_values {p : Parity} {b : StopBits} {l : Byte}
    (hd : resolveDataBits (attrSource c live) req.dataBits = .value d)
    (hp : resolveParity (attrSource c live) req.parity = .value p)
    (hb : resolveStopBits (attrSource c live) d req.stopBits = .value b)
    (hbaud : 16 * (resolveBaud c req.baud).toNat ≤ maxU32) (hl : lcrEnc d p b = some l) :
    attrResolve c req live
      = .resolved { req with baud := resolveBaud c req.baud, dataBits := d, parity := p, stopBits := b } l := by
  simp only [attrResolve, hd, hp, hb, if_neg hbaud.not_gt, hl]

theorem attrResolve_of_dataBits_invalid (hd : resolveDataBits (attrSource c live) req.dataBits = .invalid) :
    attrResolve c req live = .invalid := by
  simp only [attrResolve, hd]

theorem attrResolve_of_parity_invalid (hd : resolveDataBits (attrSource c live) req.dataBits = .value d)
    (hp : resolveParity (attrSource c live) req.parity = .invalid) : attrResolve c req live = .invalid := by
  simp only [attrResolve, hd, hp]

end Request

/-- Settles O9: each step of the resolution gives the resolved setting (`attrResolve_of_values`), and the settings'
codes make the packed byte (`lcrEnc_eq_some_iff`). -/
theorem attrResolveResolvesRequest : Obligations.AttrResolveResolvesRequest := by
  unfold Obligations.AttrResolveResolvesRequest
  rintro s req d p b pc sc baud src hr hreq hsrc hd hp hb hpc hsc rfl hbaud
  simp only [← attrSource_eq, ← decData_eq, ← decPar_eq_some_iff, ← decStop_eq] at hsrc hd hp hb
  subst hsrc
  have hdata : resolveDataBits (attrSource s.cfg s.opr.liveLcr) req.dataBits = .value d
      ∧ 5 ≤ d.toNat ∧ d.toNat ≤ 8 := by
    split_ifs at hd with h0
    · obtain ⟨l, hl, rfl⟩ := hd
      exact ⟨h0 ▸ resolveDataBits_default hl, decData_range l⟩
    · obtain ⟨rfl, h5, h8⟩ := hd
      exact ⟨resolveDataBits_valid _ h5 h8, h5, h8⟩
  have hparity : resolveParity (attrSource s.cfg s.opr.liveLcr) req.parity = .value p := by
    split_ifs at hp with h0
    · obtain ⟨l, hl, hl'⟩ := hp
      rw [h0, resolveParity_default hl, hl']
      rfl
    · subst hp
      exact resolveParity_explicit _ h0
  have hstop : resolveStopBits (attrSource s.cfg s.opr.liveLcr) d req.stopBits = .value b := by
    split_ifs at hb with h0
    · obtain ⟨l, hl, rfl⟩ := hb
      exact h0 ▸ resolveStopBits_default hl d
    · subst hb
      exact resolveStopBits_explicit d h0
  have hres := attrResolve_of_values hdata.1 hparity hstop hbaud
    (lcrEnc_eq_some_iff.2 ⟨pc, sc, hdata.2, hpc, hsc, rfl⟩)
  simp only [exec, execAttrResolve, start_ready hr, hreq, need_some, hres, finish_started hr]
  rfl

/-- R156: an ATTR.RESOLVE whose request is invalid takes one free record. -/
theorem execAttrResolve_invalid {s : State} {req : Attr} (hr : s.Ready) (hreq : s.opr.req = some req)
    (h : attrResolve s.cfg req s.opr.liveLcr = .invalid) :
    exec .attrResolve s = .next { s with
      freeCount := s.freeCount + 1
      opr := {}
      res := { st := some .invalidParameter, res := some (Config.freeAttr s.freeCount),
               allDefault := some (attrAllDefault req) } } := by
  simp only [exec, execAttrResolve, start_ready hr, hreq, need_some, h]
  simp [finish, State.drawAttr, hr.1]

/-- Settles O10: data bits out of range end the resolution at step 2, an undecodable parity at step 3. -/
theorem attrResolveFailureLeavesFreeRecord : Obligations.AttrResolveFailureLeavesFreeRecord := by
  unfold Obligations.AttrResolveFailureLeavesFreeRecord
  intro s req hr hreq h
  refine ⟨_, _, execAttrResolve_invalid hr hreq ?_⟩
  obtain ⟨h0, hrange⟩ | ⟨hd, hp, l, hl, hcode⟩ := h
  · exact attrResolve_of_dataBits_invalid (resolveDataBits_invalid h0 hrange)
  · rw [← attrSource_eq] at hl
    have hparity : resolveParity (attrSource s.cfg s.opr.liveLcr) req.parity = .invalid := by
      rw [hp, resolveParity_default hl, decPar_eq_none hcode]
      rfl
    obtain h0 | ⟨h5, h8⟩ := hd
    · exact attrResolve_of_parity_invalid (h0 ▸ resolveDataBits_default hl) hparity
    · exact attrResolve_of_parity_invalid (resolveDataBits_valid _ h5 h8) hparity

end Sys2Proof.Machine
end

section
/-! PROOFS. The latch protocol of Initialize and SetAttributes (R206, R391). An operation ends or goes to a label of its
own, so the statement is about two protocols only; what a label needs of a device access there is that LCR keeps its
value. -/

namespace Sys2Proof.Machine

/-! ### Where a label leads -/

/-- What this outcome answers, if it answers a next state, satisfies `P`. -/
def Leads (P : State → Prop) (o : Out) : Prop := ∀ t, o = .next t → P t

/-- What an access that is no write of LCR leaves: the configuration, and LCR where it holds a value. -/
structure LcrKept (s u : State) : Prop where
  cfg : u.cfg = s.cfg
  lcr : ∀ v, s.uart.lcr = .holds v → u.uart.lcr = .holds v

section Kept
variable {s u : State}

theorem LcrKept.refl (s : State) : LcrKept s s := ⟨rfl, fun _ => id⟩

theorem LcrKept.record (h : LcrKept s u) (e : Event) : LcrKept s (u.record e) := ⟨h.cfg, h.lcr⟩

theorem LcrKept.settle (h : LcrKept s u) (r : StoredName) : LcrKept s (u.settle r) := by
  refine ⟨by simpa using h.cfg, fun v hv => ?_⟩
  have hu : u.uart.get .lcr = .holds v := h.lcr v hv
  by_cases hr : r = .lcr
  · rw [hr, State.settle_of_holds hu]
    exact hu
  · exact (u.settle_get_other (Ne.symm hr)).trans hu

theorem LcrKept.draw (h : LcrKept s u) (r : EnvName) : LcrKept s (u.draw r) :=
  ⟨by simpa using h.cfg, by simpa using h.lcr⟩

theorem LcrKept.drawClkDiv (h : LcrKept s u) : LcrKept s u.drawClkDiv :=
  ⟨by simpa using h.cfg, by simpa using h.lcr⟩

theorem LcrKept.put (h : LcrKept s u) {r : StoredName} (hr : r ≠ .lcr) (v : Byte) :
    LcrKept s { u with uart := u.uart.put r v } :=
  ⟨h.cfg, fun w hw => (u.uart.get_put_other v (Ne.symm hr)).trans (h.lcr w hw)⟩

end Kept

/-! The rules by which a label's text is read for where it leads: one for each shared operation. -/

section Rules
variable {P : State → Prop} {s u : State}

theorem fault_leads (f : Fault) : Leads P (.fault f) := fun _ h => by cases h

theorem refused_leads (r : Refusal) : Leads P (.refused r) := fun _ h => by cases h

theorem goto_leads {p : Position} (h : P { u with pos := p }) : Leads P (goto p u) :=
  fun _ ht => goto_next ht ▸ h

theorem finish_leads {r : Results} (h : P { u with opr := {}, res := r, pos := .idle }) : Leads P (finish r u) :=
  fun _ ht => finish_next ht ▸ h

theorem need_leads {α : Type} {r : OperandName} {v : Option α} {k : α → Out} (h : ∀ a, Leads P (k a)) :
    Leads P (need r v k) := fun t ht =>
  let ⟨a, _, hk⟩ := need_next ht
  h a t hk

theorem start_leads {k : State → Out} (h : ∀ u, Leads P (k u)) : Leads P (start s k) := fun t ht =>
  h _ t (start_next ht).2

theorem devRead_leads {r : Slot} {k : Byte → State → Out} (h : ∀ v u, LcrKept s u → Leads P (k v u)) :
    Leads P (devRead r s k) := by
  have hs := LcrKept.refl s
  cases r <;> dsimp only [devRead]
  case rbrThrDll =>
    split
    · exact h _ _ (((hs.settle _).settle _).record _)
    · exact h _ _ (((hs.settle _).draw _).record _)
  case ierDlm => split <;> exact h _ _ (((hs.settle _).settle _).record _)
  case lcr | mcr => exact h _ _ ((hs.settle _).record _)
  case lsr | msr => exact h _ _ ((hs.draw _).record _)
  case iirFcr | scr => exact refused_leads _

theorem devWrite_leads {r : Slot} {v : Byte} {k : State → Out} (hr : r ≠ .lcr)
    (h : ∀ u, LcrKept s u → Leads P (k u)) : Leads P (devWrite r v s k) := by
  have hs := LcrKept.refl s
  cases r <;> dsimp only [devWrite]
  case rbrThrDll =>
    split
    · exact h _ (((hs.settle _).put (by decide) v).record _)
    · exact h _ ((hs.settle _).record _)
  case ierDlm => split <;> exact h _ (((hs.settle _).put (by decide) v).record _)
  case iirFcr => exact h _ (hs.record _)
  case mcr => exact h _ ((hs.put (by decide) v).record _)
  case lcr => exact absurd rfl hr
  case lsr | msr | scr => exact refused_leads _

/-- R32: a write of LCR leaves LCR as written. -/
theorem devWrite_lcr_leads {v : Byte} {k : State → Out}
    (h : ∀ u, LcrKept { s with uart := s.uart.put .lcr v } u → Leads P (k u)) : Leads P (devWrite R_LCR v s k) :=
  h _ ((LcrKept.refl _).record _)

theorem gateTx_leads {k : Bool → State → Out} (h : ∀ w u, LcrKept s u → Leads P (k w u)) : Leads P (gateTx s k) := by
  unfold gateTx
  split
  · exact devRead_leads fun _ u hu => h _ u hu
  · exact h true s (.refl s)

theorem computeDivisor_leads {baud : U32} {k : U32 → State → Out} (h : ∀ d u, LcrKept s u → Leads P (k d u)) :
    Leads P (computeDivisor baud s k) := by
  dsimp only [computeDivisor, clkDivRead]
  split
  · exact h _ _ ((LcrKept.refl s).drawClkDiv.record _)
  · exact refused_leads _

end Rules

/-! ### An operation ends or stays inside itself -/

/-- R25: Idle, or a label of this operation. -/
def Within (i : Instr) (t : State) : Prop := t.pos = .idle ∨ t.pos.inProgress = some i

theorem setctlLabel_within (p : SetctlPos) (s : State) : Leads (Within .seqSetctl) (setctlLabel p s) := by
  cases p <;> dsimp only [setctlLabel]
  case s0 =>
    refine need_leads fun mask => ?_
    split
    · exact goto_leads (.inr rfl)
    · exact finish_leads (.inl rfl)
  case s1 => exact devRead_leads fun _ _ _ => goto_leads (.inr rfl)
  case s2 => exact devWrite_leads (by decide) fun _ _ => goto_leads (.inr rfl)
  case s3 => exact finish_leads (.inl rfl)

theorem getctlLabel_within (p : GetctlPos) (s : State) : Leads (Within .seqGetctl) (getctlLabel p s) := by
  cases p <;> dsimp only [getctlLabel]
  case g0 | g1 | g2 => exact devRead_leads fun _ _ _ => goto_leads (.inr rfl)
  case g3 => exact finish_leads (.inl rfl)

theorem setattrLabel_within (p : SetattrPos) (s : State) : Leads (Within .seqSetattr) (setattrLabel p s) := by
  cases p <;> dsimp only [setattrLabel]
  case a0 =>
    refine need_leads fun req => ?_
    split
    · exact devRead_leads fun _ _ _ => goto_leads (.inr rfl)
    · exact goto_leads (.inr rfl)
  case a1 =>
    split
    · exact goto_leads (.inr rfl)
    · exact finish_leads (.inl rfl)
    · exact fault_leads _
    · exact refused_leads _
  case a2 =>
    split
    · exact finish_leads (.inl rfl)
    · exact goto_leads (.inr rfl)
  case a3 => exact computeDivisor_leads fun _ _ _ => goto_leads (.inr rfl)
  case a4 | a7 => exact devWrite_lcr_leads fun _ _ => goto_leads (.inr rfl)
  case a5 | a6 => exact devWrite_leads (by decide) fun _ _ => goto_leads (.inr rfl)
  case a8 => exact finish_leads (.inl rfl)

theorem initLabel_within (p : InitPos) (s : State) : Leads (Within .seqInit) (initLabel p s) := by
  cases p <;> dsimp only [initLabel]
  case i0 => exact computeDivisor_leads fun _ _ _ => goto_leads (.inr rfl)
  case i1 | i3 | i4 | i7 => exact devRead_leads fun _ _ _ => goto_leads (.inr rfl)
  case i2 | i5 | i8 | i11 => exact devWrite_lcr_leads fun _ _ => goto_leads (.inr rfl)
  case i9 | i10 | i12 | i13 | i14 | i15 => exact devWrite_leads (by decide) fun _ _ => goto_leads (.inr rfl)
  case i6 =>
    split
    · exact finish_leads (.inl rfl)
    · exact goto_leads (.inr rfl)
  case i16 => exact finish_leads (.inl rfl)

theorem writeLabel_within (p : WritePos) (s : State) : Leads (Within .seqWrite) (writeLabel p s) := by
  cases p <;> dsimp only [writeLabel]
  case w0 | w5 => exact devRead_leads fun _ _ _ => goto_leads (.inr rfl)
  case w1 | w7 => exact gateTx_leads fun _ _ _ => goto_leads (.inr rfl)
  case w3 => exact need_leads fun _ => goto_leads (.inr rfl)
  case w4 => exact goto_leads (.inr rfl)
  case w6 v rest => cases rest <;> exact goto_leads (.inr rfl)
  case w8 => exact devWrite_leads (by decide) fun _ _ => goto_leads (.inr rfl)
  case w2 | w9 => exact finish_leads (.inl rfl)

theorem readLabel_within (p : ReadPos) (s : State) : Leads (Within .seqRead) (readLabel p s) := by
  cases p <;> dsimp only [readLabel]
  case rd0 => exact need_leads fun _ => devRead_leads fun _ _ _ => goto_leads (.inr rfl)
  case rd1 => exact goto_leads (.inr rfl)
  case rd2 | rd5 => exact devRead_leads fun _ _ _ => goto_leads (.inr rfl)
  case rd3 | rd4 =>
    split
    · exact devWrite_leads (by decide) fun _ _ => goto_leads (.inr rfl)
    · exact goto_leads (.inr rfl)
  case rd6 => exact finish_leads (.inl rfl)

theorem pollLabel_within (p : PollPos) (s : State) : Leads (Within .seqPoll) (pollLabel p s) := by
  cases p <;> dsimp only [pollLabel]
  case p0 => exact devRead_leads fun _ _ _ => goto_leads (.inr rfl)
  case p1 =>
    split
    · exact devRead_leads fun _ _ _ => goto_leads (.inr rfl)
    · exact goto_leads (.inr rfl)
  case p2 => exact devWrite_leads (by decide) fun _ _ => goto_leads (.inr rfl)
  case p3 => exact finish_leads (.inl rfl)

/-- R25: an operation ends or goes to a label of its own. -/
theorem exec_within (i : Instr) (s : State) : Leads (Within i) (exec i s) := by
  cases i with
  | encData | encPar | encStop | lcrEnc | decPar | ctlSet =>
    dsimp only [exec, execEncData, execEncPar, execEncStop, execLcrEnc, execDecPar, execCtlSet, raise]
    refine start_leads fun u => ?_
    repeat refine need_leads fun _ => ?_
    split <;> exact finish_leads (.inl rfl)
  | attrResolve =>
    dsimp only [exec, execAttrResolve]
    refine start_leads fun u => need_leads fun _ => ?_
    split
    · exact finish_leads (.inl rfl)
    · exact finish_leads (.inl rfl)
    · exact fault_leads _
    · exact refused_leads _
  | divCalc =>
    dsimp only [exec, execDivCalc]
    refine start_leads fun u => need_leads fun _ => need_leads fun _ => ?_
    split
    · exact finish_leads (.inl rfl)
    · exact refused_leads _
  | lcrPack | decData | decStop | fifoDepth | lcrMatch | clkScale | divSplit | divJoin | gateTxempty | gateRxready
  | gatePollrts | ctlGet =>
    dsimp only [exec, execLcrPack, execDecData, execDecStop, execFifoDepth, execLcrMatch, execClkScale, execDivSplit,
      execDivJoin, execGateTxempty, execGateRxready, execGatePollrts, execCtlGet]
    refine start_leads fun u => ?_
    repeat refine need_leads fun _ => ?_
    exact finish_leads (.inl rfl)
  | divCompute =>
    dsimp only [exec, execDivCompute]
    exact start_leads fun _ => need_leads fun _ => computeDivisor_leads fun _ _ _ => finish_leads (.inl rfl)
  | gateTx =>
    dsimp only [exec, execGateTx]
    exact start_leads fun _ => gateTx_leads fun _ _ _ => finish_leads (.inl rfl)
  | seqWrite =>
    dsimp only [exec, execSeqWrite]
    split
    · exact writeLabel_within _ s
    · exact start_leads fun _ => need_leads fun _ => goto_leads (.inr rfl)
  | seqInit | seqRead | seqPoll | seqSetctl | seqGetctl | seqSetattr =>
    dsimp only [exec, execSeqInit, execSeqRead, execSeqPoll, execSeqSetctl, execSeqGetctl, execSeqSetattr]
    split
    · simp only [initLabel_within, readLabel_within, pollLabel_within, setctlLabel_within, getctlLabel_within,
        setattrLabel_within]
    · exact start_leads fun _ => goto_leads (.inr rfl)

theorem untilTrue_idle {rest : List Line} {result : Results → Option Bool} {o : Out}
    (h : Leads (fun t => t.pos = .idle) o) : Leads (fun t => t.pos = .idle) (untilTrue rest result o) := by
  intro t ht
  obtain ⟨u, hu, ht⟩ := untilTrue_next ht
  rw [ht]
  exact h u hu

/-- R95: a round of a pseudo-operation ends at Idle: a wait with its gate operation, a latch line with its access. -/
theorem pseudoStep_idle (p : Pseudo) (rest : List Line) (s : State) :
    Leads (fun t => t.pos = .idle) (pseudoStep p rest s) := by
  cases p <;> dsimp only [pseudoStep, execGateTxempty, execGateRxready, execGateTx]
  case waitTxempty | waitRxready =>
    exact start_leads fun _ => devRead_leads fun _ _ _ =>
      untilTrue_idle (start_leads fun _ => need_leads fun _ => finish_leads rfl)
  case waitWritable => exact untilTrue_idle (start_leads fun _ => gateTx_leads fun _ _ _ => finish_leads rfl)
  case latchOn =>
    intro t h
    obtain ⟨hr, h⟩ := start_next h
    obtain ⟨u, hu, h⟩ := latchOn_next h
    cases h
    exact hu.pos.trans hr.1
  case latchOff src =>
    intro t h
    obtain ⟨hr, h⟩ := start_next h
    obtain ⟨o, h⟩ := loadArgs_next h
    obtain ⟨v, -, h⟩ := need_next h
    obtain ⟨u, hu, h⟩ := latchOff_next h
    cases h
    exact hu.pos.trans hr.1

/-- R7, R25, R93: a step runs an operation, on the caller's operands and names for its results, or ends at Idle. -/
theorem step_runs_or_idle {s t : State} (h : step s = .next t) :
    (∃ i opr outs program u, exec i { s with opr := opr, outs := outs, program := program } = .next u
      ∧ t = { u with names := t.names, outs := t.outs }) ∨ t.pos = .idle := by
  unfold step at h
  split at h
  · next i _ =>
    obtain ⟨u, hu, ht⟩ := deliver_next h
    exact .inl ⟨i, s.opr, s.outs, s.program, u, hu, ht⟩
  · next hi =>
    split at h
    · cases h
      exact .inr (inProgress_eq_none.1 hi)
    · next op args outs rest _ =>
      obtain ⟨i, o, h⟩ := issue_next h
      obtain ⟨u, hu, ht⟩ := deliver_next h
      exact .inl ⟨i, o, outs, rest, u, hu, ht⟩
    · exact .inr (pseudoStep_idle _ _ _ t h)

/-! ### The two protocols -/

/-- R206, R391: what the latch protocol asks at a label, of this state's LCR and configuration. -/
def State.LatchAt (s : State) (p : Position) : Prop := State.LatchKept { s with pos := p }

theorem State.latchKept_iff (s : State) : s.LatchKept ↔ s.LatchAt s.pos := .rfl

theorem State.latchKept_of_idle {s : State} (h : s.pos = .idle) : s.LatchKept := by
  rw [s.latchKept_iff, h]
  trivial

/-- R391: the latch protocol asks nothing of the operations that do not program the divisor. -/
theorem Within.latchKept {i : Instr} {t : State} (h : Within i t) (hinit : i ≠ .seqInit) (hattr : i ≠ .seqSetattr) :
    t.LatchKept := by
  obtain h | h := h
  · exact State.latchKept_of_idle h
  · rw [t.latchKept_iff]
    cases hp : t.pos <;> simp only [hp, Position.inProgress, Option.some.injEq, reduceCtorEq] at h
    case init => exact absurd h.symm hinit
    case setattr => exact absurd h.symm hattr
    all_goals trivial

/-- What the latch protocol asks at a label outlasts every access but a write of LCR. -/
theorem LcrKept.latchAt {s u : State} (h : LcrKept s u) {p : Position} (hs : s.LatchAt p) : u.LatchAt p := by
  obtain ⟨hcfg, hlcr⟩ := h
  unfold State.LatchAt State.LatchKept at hs ⊢
  rw [show ({ u with pos := p } : State).cfg = ({ s with pos := p } : State).cfg from hcfg]
  cases p
  case idle | write | read | poll | setctl | getctl => trivial
  case init p =>
    cases p
    case i0 => trivial
    case i1 | i2 => exact hs
    case i3 | i4 | i5 | i9 | i10 | i11 => exact And.imp_right (hlcr _) hs
    case i6 | i7 | i8 => exact And.imp_right (Exists.imp fun v => And.imp_left (hlcr v)) hs
    case i12 | i13 | i14 | i15 | i16 => exact hlcr _ hs
  case setattr p =>
    cases p
    case a0 | a1 => trivial
    case a2 | a3 | a4 => exact hs
    case a5 | a6 | a7 => exact And.imp_right (hlcr _) hs
    case a8 => exact Exists.imp (fun v => And.imp_left (hlcr v)) hs

/-- R281: I5 clears DLAB. -/
theorem bit_dlab_cleared : ∀ l : Byte, bit (l &&& 0x7F#8) 7 = false := by decide

/-- R281 to R283: Initialize keeps the latch protocol at each of its labels. -/
theorem initLabel_latchKept {p : InitPos} {s : State} (hs : s.LatchAt (.init p)) :
    Leads State.LatchKept (initLabel p s) := by
  cases p <;> dsimp only [initLabel]
  case i0 => exact computeDivisor_leads fun _ _ _ => goto_leads rfl
  case i1 | i3 | i4 => exact devRead_leads fun _ _ hu => goto_leads (hu.latchAt hs)
  case i2 => exact devWrite_lcr_leads fun _ hu => goto_leads (hu.latchAt (And.intro hs rfl))
  case i5 t l0 _ _ _ =>
    exact devWrite_lcr_leads fun _ hu => goto_leads (hu.latchAt (And.intro hs.1 ⟨_, rfl, bit_dlab_cleared l0⟩))
  case i6 =>
    split
    · exact finish_leads trivial
    · exact goto_leads hs
  case i7 => exact devRead_leads fun l u hu => goto_leads (hu.latchAt (by split <;> exact hs))
  case i8 => exact devWrite_lcr_leads fun _ hu => goto_leads (hu.latchAt (And.intro hs.1 rfl))
  case i11 => exact devWrite_lcr_leads fun _ hu => goto_leads (hu.latchAt (congrArg Stored.holds hs.1))
  case i9 | i10 | i12 | i13 | i14 | i15 =>
    exact devWrite_leads (by decide) fun _ hu => goto_leads (hu.latchAt hs)
  case i16 => exact finish_leads trivial

/-- R320 to R322: SetAttributes keeps the latch protocol at each of its labels. -/
theorem setattrLabel_latchKept {p : SetattrPos} {s : State} (hs : s.LatchAt (.setattr p)) :
    Leads State.LatchKept (setattrLabel p s) := by
  cases p <;> dsimp only [setattrLabel]
  case a0 =>
    refine need_leads fun req => ?_
    split
    · exact devRead_leads fun _ _ _ => goto_leads trivial
    · exact goto_leads trivial
  case a1 =>
    split
    · next hres => exact goto_leads (lcrEnc_high (attrResolve_resolved hres).1)
    · exact finish_leads trivial
    · exact fault_leads _
    · exact refused_leads _
  case a2 =>
    split
    · exact finish_leads trivial
    · exact goto_leads hs
  case a3 => exact computeDivisor_leads fun _ _ hu => goto_leads (hu.latchAt hs)
  case a4 => exact devWrite_lcr_leads fun _ hu => goto_leads (hu.latchAt (And.intro hs rfl))
  case a5 | a6 => exact devWrite_leads (by decide) fun _ hu => goto_leads (hu.latchAt hs)
  case a7 => exact devWrite_lcr_leads fun _ hu => goto_leads (hu.latchAt ⟨_, rfl, hs.1⟩)
  case a8 => exact finish_leads trivial

/-- R206, R391: an operation keeps the latch protocol. -/
theorem exec_latchKept (i : Instr) {s : State} (hs : s.LatchKept) : Leads State.LatchKept (exec i s) := by
  rw [s.latchKept_iff] at hs
  by_cases hinit : i = .seqInit
  · subst hinit
    dsimp only [exec, execSeqInit]
    split
    · next p hp => exact initLabel_latchKept (hp ▸ hs)
    · exact start_leads fun _ => goto_leads trivial
  · by_cases hattr : i = .seqSetattr
    · subst hattr
      dsimp only [exec, execSeqSetattr]
      split
      · next p hp => exact setattrLabel_latchKept (hp ▸ hs)
      · exact start_leads fun _ => goto_leads trivial
    · exact fun t ht => (exec_within i s t ht).latchKept hinit hattr

/-- Settles O56: a step runs an operation, which keeps the protocol (`exec_latchKept`), or ends at Idle, where the
protocol asks nothing. -/
theorem latchProtocolKept : Obligations.LatchProtocolKept := by
  unfold Obligations.LatchProtocolKept
  intro s t hs h
  obtain ⟨i, opr, outs, program, u, hu, ht⟩ | hidle := step_runs_or_idle h
  · rw [ht]
    exact exec_latchKept i (s := { s with opr := opr, outs := outs, program := program }) hs u hu
  · exact State.latchKept_of_idle hidle

end Sys2Proof.Machine
end

section
/-! PROOFS. The statements of 41_divisor.md. The layer they rest on comes first: the calculator's rounding and its
domain, and one clock-divider read of an operation that has just started. -/

namespace Sys2Proof.Machine

/-! ### The calculator -/

/-- R201, R203: a quotient raised by one when its remainder is half the denominator or more is rounded to nearest, ties
up. -/
theorem rounded_quotient (e : Nat) {b : Nat} (hb : 1 ≤ b) :
    (if b * 8 ≤ e % (b * 16) then e / (b * 16) + 1 else e / (b * 16)) = (e + 8 * b) / (16 * b) := by
  have hhalf : 8 * b < 16 * b := by omega
  have hcarry : 16 * b ≤ e % (16 * b) + 8 * b ↔ 8 * b ≤ e % (16 * b) := by omega
  rw [Nat.add_div (by omega), Nat.div_eq_of_lt hhalf, Nat.mod_eq_of_lt hhalf, Nat.mul_comm b 8, Nat.mul_comm b 16]
  simp only [hcarry, Nat.add_zero]
  split <;> rfl

/-- R203: inside the domain the calculator answers the rounded quotient. -/
theorem divCalc_of_domain {e : Nat} {b : U32} (hb : 1 ≤ b.toNat) (h16 : 16 * b.toNat ≤ maxU32)
    (hq : (e + 8 * b.toNat) / (16 * b.toNat) ≤ maxU32) :
    divCalc e b = some (BitVec.ofNat 32 ((e + 8 * b.toNat) / (16 * b.toNat))) := by
  simp only [divCalc, rounded_quotient e hb, if_pos (And.intro hb h16), if_pos hq]

/-- R204: outside the domain the calculator answers nothing. -/
theorem divCalc_of_outsideDomain {e : Nat} {b : U32} (h : OutsideDomain e b.toNat) : divCalc e b = none := by
  by_cases hb : 1 ≤ b.toNat ∧ 16 * b.toNat ≤ maxU32
  · have hq : ¬ (e + 8 * b.toNat) / (16 * b.toNat) ≤ maxU32 :=
      (h.resolve_left (by omega)).resolve_left hb.2.not_gt |>.not_ge
    simp only [divCalc, rounded_quotient e hb.1, if_pos hb, if_neg hq]
  · exact if_neg hb

/-- R202, R204: outside the domain there is no divisor to go on with. -/
theorem computeDivisor_of_outsideDomain {s : State} {b : U32} (h : OutsideDomain s.effectiveClock b.toNat)
    (k : U32 → State → Out) : computeDivisor b s k = .refused .outsideDivisorDomain := by
  have hscale : clkScale s.cfg s.cfg.clockRate s.drawnClkDiv = s.effectiveClock := rfl
  simp only [computeDivisor, clkDivRead, State.record_cfg, State.drawClkDiv_cfg, hscale, divCalc_of_outsideDomain h]

/-- R15, R43, R202: what an operation that has just started makes of a divisor: one clock-divider read, and the
calculator's answer for the effective clock. -/
theorem computeDivisor_started {s : State} {b d : U32} (h : divCalc s.effectiveClock b = some d)
    (k : U32 → State → Out) :
    computeDivisor b { s with res := {} } k = k d { s.drawClkDiv with
      res := {}, events := s.events ++ [clkDivEvent s.cfg s.drawnClkDiv] } := by
  have hdraw : State.drawClkDiv { s with res := {} } = { s.drawClkDiv with res := {} } := by
    unfold State.drawClkDiv
    dsimp only
    split <;> rfl
  have hscale : clkScale s.cfg s.cfg.clockRate s.drawnClkDiv = s.effectiveClock := rfl
  have hdrawn : State.drawnClkDiv { s with res := {} } = s.drawnClkDiv := rfl
  simp only [computeDivisor, clkDivRead, State.record, hdraw, hdrawn, State.drawClkDiv_cfg, State.drawClkDiv_events,
    hscale, h]

/-! ### Operations -/

/-- Settles O13: the calculator inside its domain (`divCalc_of_domain`). -/
theorem divCalcRoundsToNearest : Obligations.DivCalcRoundsToNearest := by
  unfold Obligations.DivCalcRoundsToNearest
  intro s e b hr he hb h1 h16 hq
  simp only [exec, execDivCalc, start_ready hr, he, hb, need_some, divCalc_of_domain h1 h16 hq, finish_started hr]

/-- Settles O15: the calculator inside its domain, on the effective clock (`computeDivisor_of_some`). -/
theorem divComputeReadsDividerOnce : Obligations.DivComputeReadsDividerOnce := by
  unfold Obligations.DivComputeReadsDividerOnce
  refine ⟨rfl, fun s b e hr hb he h1 h16 hq => ?_⟩
  obtain rfl : e = s.effectiveClock := he
  simp only [exec, execDivCompute, start_ready hr, hb, need_some,
    computeDivisor_started (divCalc_of_domain h1 h16 hq), finish]
  simp [clkDivEvent, hr.1]

/-- Settles O12: R200's two branches. -/
theorem clkScaleDividesByFixedPoint : Obligations.ClkScaleDividesByFixedPoint := by
  unfold Obligations.ClkScaleDividesByFixedPoint
  refine ⟨rfl, fun s b r hr hb hd => ?_⟩
  simp only [exec, execClkScale, start_ready hr, hb, hd, need_some, clkScale, finish_started hr]

/-- Settles O16: the bytes of a divisor (`divHi_eq`, `divLo_eq`) and their join (`divJoin_toNat`). -/
theorem divisorSplitsAndJoins : Obligations.DivisorSplitsAndJoins := by
  unfold Obligations.DivisorSplitsAndJoins
  refine ⟨fun s d hr hd => ?_, fun s h l hr hh hl => ?_, fun d => ?_⟩
  · simp only [exec, execDivSplit, start_ready hr, hd, need_some, divHi_eq, divLo_eq, finish_started hr]
  · simp only [exec, execDivJoin, start_ready hr, hh, hl, need_some, divJoin, finish_started hr]
  · rw [divJoin_toNat, divHi_eq, divLo_eq, BitVec.toNat_ofNat, BitVec.toNat_ofNat]
    omega

/-! ### The calculator's domain in the operations that run it -/

/-- R96, R146: the codes 0, 1, 3, 5 and 7 decode. -/
theorem exists_decPar_eq_some {l : Byte} (h : l.toNat / 8 % 8 ∈ [0, 1, 3, 5, 7]) : ∃ p, decPar l = some p := by
  have hcode : (l.extractLsb' 3 3).toNat = l.toNat / 8 % 8 := by simp [Nat.shiftRight_eq_div_pow]
  simp only [List.mem_cons, List.not_mem_nil, or_false] at h
  obtain h | h | h | h | h := h <;> simp [decPar, hcode, h]

section Request
variable {c : Cfg} {req : Attr} {live : Option Byte}

/-- R153: where a line setting asks for the default, its source is at hand. -/
theorem LineSettingsResolve.source (h : LineSettingsResolve c req live)
    (hd : req.dataBits = 0#8 ∨ req.parity = .default ∨ req.stopBits = .default) :
    ∃ l, attrSource c live = some l ∧ (req.parity = .default → l.toNat / 8 % 8 ∈ [0, 1, 3, 5, 7]) := by
  rw [attrSource_eq]
  exact h.2 hd

theorem LineSettingsResolve.dataBits (h : LineSettingsResolve c req live) :
    ∃ d, resolveDataBits (attrSource c live) req.dataBits = .value d := by
  by_cases h0 : req.dataBits = 0#8
  · obtain ⟨l, hl, -⟩ := h.source (.inl h0)
    exact ⟨_, h0 ▸ resolveDataBits_default hl⟩
  · obtain ⟨h5, h8⟩ := h.1 h0
    exact ⟨_, resolveDataBits_valid _ h5 h8⟩

theorem LineSettingsResolve.parity (h : LineSettingsResolve c req live) :
    ∃ p, resolveParity (attrSource c live) req.parity = .value p := by
  by_cases h0 : req.parity = .default
  · obtain ⟨l, hl, hcode⟩ := h.source (.inr (.inl h0))
    obtain ⟨p, hp⟩ := exists_decPar_eq_some (hcode h0)
    refine ⟨p, ?_⟩
    rw [h0, resolveParity_default hl, hp]
    rfl
  · exact ⟨_, resolveParity_explicit _ h0⟩

theorem LineSettingsResolve.stopBits (h : LineSettingsResolve c req live) (d : Byte) :
    ∃ b, resolveStopBits (attrSource c live) d req.stopBits = .value b := by
  by_cases h0 : req.stopBits = .default
  · obtain ⟨l, hl, -⟩ := h.source (.inr (.inr h0))
    exact ⟨_, h0 ▸ resolveStopBits_default hl d⟩
  · exact ⟨_, resolveStopBits_explicit d h0⟩

/-- R152 step 5: a request whose line settings resolve and whose baud rate is out of the domain is refused. -/
theorem attrResolve_of_outsideDomain (h : LineSettingsResolve c req live)
    (hbaud : 16 * (resolveBaud c req.baud).toNat > maxU32) : attrResolve c req live = .outsideDomain := by
  obtain ⟨d, hd⟩ := h.dataBits
  obtain ⟨p, hp⟩ := h.parity
  obtain ⟨b, hb⟩ := h.stopBits d
  simp only [attrResolve, hd, hp, hb, if_pos hbaud]

end Request

/-- Settles O14: each operation refuses where its calculator (`divCalc_of_outsideDomain`,
`computeDivisor_of_outsideDomain`) or its resolution (`attrResolve_of_outsideDomain`) does. -/
theorem calculatorRefusesOutsideDomain : Obligations.CalculatorRefusesOutsideDomain := by
  unfold Obligations.CalculatorRefusesOutsideDomain
  refine ⟨fun s e b hr he hb h => ?_, fun s b hr hb h => ?_, fun s req hr hreq hset hbaud => ?_,
    fun s req live hp hset hbaud => ?_, fun s res l hp h => ?_, fun s hp h => ?_⟩
  · simp only [exec, execDivCalc, start_ready hr, he, hb, need_some, divCalc_of_outsideDomain h]
  · simp only [exec, execDivCompute, start_ready hr, hb, need_some]
    exact computeDivisor_of_outsideDomain (s := { s with res := {} }) h _
  · simp only [exec, execAttrResolve, start_ready hr, hreq, need_some, attrResolve_of_outsideDomain hset hbaud]
  · simp only [exec, execSeqSetattr, hp, setattrLabel, attrResolve_of_outsideDomain hset hbaud]
  · simp only [exec, execSeqSetattr, hp, setattrLabel, computeDivisor_of_outsideDomain h]
  · simp only [exec, execSeqInit, hp, initLabel, computeDivisor_of_outsideDomain h]

end Sys2Proof.Machine
end

section
/-! PROOFS. The statements of 42_gate.md: the RTS bracket and the count of a Read, and the gate's operations on the bits
of LSR, MSR, MCR and a control mask. -/

namespace Sys2Proof.Machine

/-! ### The bracket and the count of a Read -/

/-- R25: only a Read goes to a label of Read. -/
theorem Within.pos_ne_read {i : Instr} {t : State} (h : Within i t) (hi : i ≠ .seqRead) (p : ReadPos) :
    t.pos ≠ .read p := by
  intro hp
  simp only [Within, hp, Position.inProgress, reduceCtorEq, Option.some.injEq, false_or] at h
  exact hi h.symm

theorem State.rtsBracketed_of_not_reading {s : State} (h : ∀ p, s.pos ≠ .read p) : s.RtsBracketed :=
  fun _ hp => absurd hp (h _)

theorem State.readCounted_of_not_reading {s : State} (h : ∀ p, s.pos ≠ .read p) : s.ReadCounted := by
  unfold State.ReadCounted
  cases hp : s.pos with
  | read p => exact absurd hp (h p)
  | _ => trivial

/-- R246, R247: what is polled with data ready is the RTS-deasserting value. -/
theorem pollRts_ready (m : Byte) : pollRts m true = m &&& 0xFD#8 := pollRts_eq m true

/-- R247: RD4 is the one label that leads to RD5, and under flow control its access is the RTS-deasserting write. -/
theorem readLabel_rtsBracketed (p : ReadPos) (s : State) : Leads State.RtsBracketed (readLabel p s) := by
  cases p <;> dsimp only [readLabel]
  case rd0 => exact need_leads fun _ => devRead_leads fun _ _ _ => goto_leads nofun
  case rd1 => split <;> exact goto_leads nofun
  case rd2 => exact devRead_leads fun _ _ _ => by split <;> exact goto_leads nofun
  case rd3 =>
    split
    · exact devWrite_leads (by decide) fun _ _ => goto_leads nofun
    · exact goto_leads nofun
  case rd4 v =>
    split
    · rw [pollRts_ready]
      refine goto_leads fun w hw _ => ?_
      cases hw
      exact List.getLast?_concat
    · next hflow => exact goto_leads fun _ _ h => absurd h hflow
  case rd5 => exact devRead_leads fun _ _ _ => goto_leads nofun
  case rd6 => exact finish_leads nofun

/-- R300: RD1 compares the count, and RD5 adds the one byte that was still to come. -/
theorem readLabel_readCounted {p : ReadPos} {s : State} (hs : State.ReadCounted { s with pos := .read p }) :
    Leads State.ReadCounted (readLabel p s) := by
  cases p <;> dsimp only [readLabel]
  case rd0 => exact need_leads fun n => devRead_leads fun _ _ _ => goto_leads n.zero_le
  case rd1 v =>
    have hle : v.buf.length ≤ v.count := hs
    split
    · next hlt => exact goto_leads hlt
    · next hge => exact goto_leads (hle.antisymm (not_lt.1 hge))
  case rd2 => exact devRead_leads fun _ _ _ => by split <;> exact goto_leads hs
  case rd3 | rd4 =>
    split
    · exact devWrite_leads (by decide) fun _ _ => goto_leads hs
    · exact goto_leads hs
  case rd5 v =>
    have hlt : v.buf.length < v.count := hs
    exact devRead_leads fun b _ _ => goto_leads (show (v.buf ++ [b]).length ≤ v.count by simpa using hlt)
  case rd6 => exact finish_leads trivial

/-- R247: whatever an operation answers is bracketed, even where what it began in was not. -/
theorem exec_rtsBracketed (i : Instr) (s : State) : Leads State.RtsBracketed (exec i s) := by
  by_cases hi : i = .seqRead
  · subst hi
    dsimp only [exec, execSeqRead]
    split
    · exact readLabel_rtsBracketed _ s
    · exact start_leads fun _ => goto_leads nofun
  · exact fun t ht => State.rtsBracketed_of_not_reading ((exec_within i s t ht).pos_ne_read hi)

/-- R300: an operation keeps the count in bounds. -/
theorem exec_readCounted (i : Instr) {s : State} (hs : s.ReadCounted) : Leads State.ReadCounted (exec i s) := by
  by_cases hi : i = .seqRead
  · subst hi
    dsimp only [exec, execSeqRead]
    split
    · next p hp => exact readLabel_readCounted (by simpa only [State.ReadCounted, hp] using hs)
    · exact start_leads fun _ => goto_leads trivial
  · exact fun t ht => State.readCounted_of_not_reading ((exec_within i s t ht).pos_ne_read hi)

/-- Settles O41: a step runs an operation (`exec_rtsBracketed`, `exec_readCounted`), or ends at Idle, where neither asks
anything. -/
theorem readBracketAndCountKept : Obligations.ReadBracketAndCountKept := by
  unfold Obligations.ReadBracketAndCountKept
  intro s t h
  obtain ⟨i, opr, outs, program, u, hu, ht⟩ | hidle := step_runs_or_idle h
  · rw [ht]
    exact ⟨fun _ => exec_rtsBracketed i _ u hu,
      fun hs => exec_readCounted i (s := { s with opr := opr, outs := outs, program := program }) hs u hu⟩
  · have hread : ∀ p, t.pos ≠ .read p := fun p hp => by cases hidle.symm.trans hp
    exact ⟨fun _ => State.rtsBracketed_of_not_reading hread, fun _ => State.readCounted_of_not_reading hread⟩

/-! ### Bits of the gate's values -/

theorem signal_getLsbD (present : Bool) (sig : U32) (i : Nat) :
    (signal present sig).getLsbD i = (present && sig.getLsbD i) := by
  cases present <;> simp [signal]

/-- R250: the mask is the union of the signals that are present. -/
theorem ctlGet_getLsbD (g : Signals) (hwFlow : Bool) (h c l : Byte) (i : Nat) :
    (ctlGet g hwFlow h c l).getLsbD i =
      ((h.getLsbD 4 && g.cts.getLsbD i) || (h.getLsbD 5 && g.dsr.getLsbD i) || (h.getLsbD 6 && g.ri.getLsbD i)
        || (h.getLsbD 7 && g.cd.getLsbD i) || (c.getLsbD 0 && g.dtr.getLsbD i) || (c.getLsbD 1 && g.rts.getLsbD i)
        || (hwFlow && g.hwFlow.getLsbD i) || (l.getLsbD 5 && l.getLsbD 6 && g.obe.getLsbD i)
        || (!l.getLsbD 0 && g.ibe.getLsbD i)) := by
  simp only [ctlGet, BitVec.getLsbD_or, signal_getLsbD, txEmpty_bits, rxReady]

/-- R104, R250: with R104's signal values each bit of the mask is one signal. -/
theorem ctlGet_default_getLsbD (hwFlow : Bool) (h c l : Byte) {i : Nat} (hi : i < 32) :
    (ctlGet {} hwFlow h c l).getLsbD i =
      if i = 0 then c.getLsbD 0 else if i = 1 then c.getLsbD 1
      else if i = 4 then h.getLsbD 4 else if i = 5 then h.getLsbD 5
      else if i = 6 then h.getLsbD 6 else if i = 7 then h.getLsbD 7
      else if i = 8 then !l.getLsbD 0 else if i = 9 then l.getLsbD 5 && l.getLsbD 6
      else if i = 14 then hwFlow else false := by
  rw [ctlGet_getLsbD]
  interval_cases i <;> simp

/-- R251: a mask with R104's signal values has no other bit. -/
theorem ctlGet_default_within (hwFlow : Bool) (h c l : Byte) : ctlGet {} hwFlow h c l &&& ~~~0x43F3#32 = 0#32 := by
  refine BitVec.eq_of_getLsbD_eq fun i hi => ?_
  rw [BitVec.getLsbD_and, ctlGet_default_getLsbD hwFlow h c l hi]
  interval_cases i <;> simp

/-- R105, R251: the signals that can only be got lie outside SET_MASK. -/
theorem outside_setMask_of_getOnly {mask : U32} (h : mask &&& 0x3F0#32 ≠ 0#32) : mask &&& ~~~0x4003#32 ≠ 0#32 := by
  intro hin
  have hsub : 0x3F0#32 = ~~~0x4003#32 &&& 0x3F0#32 := by decide
  rw [hsub, ← BitVec.and_assoc, hin, BitVec.zero_and] at h
  exact h rfl

/-- R246, R252: the readiness decides bit 1, and the operand every other bit. -/
theorem pollRts_getLsbD (m : Byte) (ready : Bool) (i : Nat) :
    (pollRts m ready).getLsbD i = if i = 1 then !ready else m.getLsbD i := by
  rw [pollRts_eq]
  obtain hi | hi := Nat.lt_or_ge i 8
  · interval_cases i <;> cases ready <;> simp
  · simp [BitVec.getLsbD_of_ge _ i hi, show i ≠ 1 by omega]

/-! ### Operations -/

/-- Settles O22: the mask bit by bit (`ctlGet_default_within`), and CTL.SET's refusal of a mask outside SET_MASK
(`ctlSetReplacesDtrAndRts`). -/
theorem getMaskWithStatusBitsIsRejected : Obligations.GetMaskWithStatusBitsIsRejected := by
  unfold Obligations.GetMaskWithStatusBitsIsRejected
  intro hwFlow h c l m s mask hr hsig hget hmask hmcr
  obtain ⟨-, hset, -⟩ := ctlSetReplacesDtrAndRts
  refine ⟨?_, fun hbits => (hset s mask m {} hr hmask hmcr hsig.symm).2 (outside_setMask_of_getOnly hbits)⟩
  rw [hget, hsig]
  exact ctlGet_default_within hwFlow h c l

/-- R241: GATE.TX that has just started: one MSR read under flow control and none without. -/
theorem gateTx_started (s : State) (k : Bool → State → Out) : gateTx { s with res := {} } k =
    if s.cfg.hwFlow then k (txWritable s.cfg.detectCable (s.drawn .msr)) { s.draw .msr with
      res := {}, events := s.events ++ [readEvent s.cfg R_MSR (s.drawn .msr)] }
    else k true { s with res := {} } := by
  simp only [gateTx, devRead, readEnv_started, State.draw_cfg]

/-- Settles O17: the two cases of the gate (`gateTx_started`). -/
theorem gateTxReadsMsrUnderFlowControl : Obligations.GateTxReadsMsrUnderFlowControl := by
  unfold Obligations.GateTxReadsMsrUnderFlowControl
  refine ⟨rfl, fun s hr => ⟨fun hf => ?_, fun hf => ?_⟩⟩
  · simp only [exec, execGateTx, start_ready hr, gateTx_started, hf, Bool.false_eq_true, if_false, finish_started hr]
  · simp only [exec, execGateTx, start_ready hr, gateTx_started, hf, if_true, finish]
    simp [txWritable, hr.1]

/-- Settles O18: the two predicates on the LSR byte (`execGateTxempty_ready`, `execGateRxready_ready`). -/
theorem statusPredicatesReadLsrBits : Obligations.StatusPredicatesReadLsrBits := by
  unfold Obligations.StatusPredicatesReadLsrBits
  refine ⟨rfl, rfl, fun s l hr hl => ⟨?_, ?_⟩⟩
  · simp only [exec, execGateTxempty_ready hr hl, finish, hr.1]
  · simp only [exec, execGateRxready_ready hr hl, finish, hr.1]

/-- Settles O19: the answered byte is read bit by bit (`pollRts_getLsbD`). -/
theorem pollRtsDecidesOnlyRts : Obligations.PollRtsDecidesOnlyRts := by
  unfold Obligations.PollRtsDecidesOnlyRts
  refine ⟨rfl, fun s m ready hr hm hready => ⟨pollRts m ready, ?_, ?_, fun i hi => ?_⟩⟩
  · simp only [exec, execGatePollrts, start_ready hr, hm, hready, need_some, finish_started hr]
  · exact pollRts_getLsbD m ready 1
  · rw [pollRts_getLsbD, if_neg hi]

/-- Settles O21: the answered mask is read bit by bit (`ctlGet_getLsbD`, `ctlGet_default_getLsbD`). -/
theorem ctlGetAssemblesSignals : Obligations.CtlGetAssemblesSignals := by
  unfold Obligations.CtlGetAssemblesSignals
  refine ⟨rfl, ?_⟩
  rintro s h c l _ hr hmsr hmcr hlsr rfl
  refine ⟨ctlGet s.cfg.signals s.cfg.hwFlow h c l, ?_, ctlGet_getLsbD _ _ h c l, fun hsig i hi => ?_⟩
  · simp only [exec, execCtlGet, start_ready hr, hmsr, hmcr, hlsr, need_some, finish_started hr]
  · rw [hsig]
    exact ctlGet_default_getLsbD _ h c l hi

end Sys2Proof.Machine
end

section
/-! PROOFS. The statements of 43_sequences.md about whole calls of fixed length. A call is run symbolically: a state
inside it is written as a state at rest, with the call's results, label and events so far beside it (`State.running`),
and each shared operation has one rule for such a state. -/

namespace Sys2Proof.Machine

/-! ### A state inside a call -/

/-- A state inside a call: `s` with these results, at this label, with these events since the call began. -/
def State.running (s : State) (r : Results) (p : Position) (es : List Event) : State :=
  { s with res := r, pos := p, events := s.events ++ es }

/-- The state with one stored register holding a value. -/
def State.put (s : State) (n : StoredName) (v : Byte) : State := { s with uart := s.uart.put n v }

section Running
variable (s : State) (r : Results) (p : Position) (es : List Event)

theorem State.running_self : s.running s.res s.pos [] = s := by simp [State.running]

@[simp] theorem State.running_cfg : (s.running r p es).cfg = s.cfg := rfl
@[simp] theorem State.running_pos : (s.running r p es).pos = p := rfl
@[simp] theorem State.running_opr : (s.running r p es).opr = s.opr := rfl
@[simp] theorem State.running_freeCount : (s.running r p es).freeCount = s.freeCount := rfl
@[simp] theorem State.dlab_running : (s.running r p es).dlab = s.dlab := rfl

/-- R32: the draw of an unwritten register is the same wherever the call stands. -/
@[simp] theorem State.settle_running (n : StoredName) : (s.running r p es).settle n = (s.settle n).running r p es := by
  unfold State.settle State.running
  dsimp only
  split <;> rfl

/-- R33. -/
@[simp] theorem State.draw_running (n : EnvName) : (s.running r p es).draw n = (s.draw n).running r p es := by
  unfold State.draw State.running
  dsimp only
  split <;> rfl

/-- R43. -/
@[simp] theorem State.drawClkDiv_running : (s.running r p es).drawClkDiv = s.drawClkDiv.running r p es := by
  unfold State.drawClkDiv State.running
  dsimp only
  split <;> rfl

@[simp] theorem State.drawAttr_running : (s.running r p es).drawAttr = s.drawAttr.running r p es := rfl

@[simp] theorem State.record_running (e : Event) : (s.running r p es).record e = s.running r p (es ++ [e]) := by
  simp [State.record, State.running]

end Running

section Put
variable (s : State) (v : Byte)

@[simp] theorem State.put_variant (n : StoredName) : (s.put n v).variant = s.variant := rfl
@[simp] theorem State.put_cfg (n : StoredName) : (s.put n v).cfg = s.cfg := rfl
@[simp] theorem State.put_opr (n : StoredName) : (s.put n v).opr = s.opr := rfl
@[simp] theorem State.put_uart (n : StoredName) : (s.put n v).uart = s.uart.put n v := rfl
@[simp] theorem State.put_env (n : StoredName) : (s.put n v).env = s.env := rfl
@[simp] theorem State.put_freeCount (n : StoredName) : (s.put n v).freeCount = s.freeCount := rfl
@[simp] theorem State.put_events (n : StoredName) : (s.put n v).events = s.events := rfl
@[simp] theorem State.put_program (n : StoredName) : (s.put n v).program = s.program := rfl
@[simp] theorem State.put_outs (n : StoredName) : (s.put n v).outs = s.outs := rfl
@[simp] theorem State.put_names (n : StoredName) : (s.put n v).names = s.names := rfl

@[simp] theorem State.stored_put_self (n : StoredName) : (s.put n v).stored n = v :=
  State.stored_of_holds (s.uart.get_put_self n v)

@[simp] theorem State.settle_put_self (n : StoredName) : (s.put n v).settle n = s.put n v :=
  State.settle_of_holds (s.uart.get_put_self n v)

@[simp] theorem State.put_put_self (n : StoredName) (w : Byte) : (s.put n v).put n w = s.put n w := by
  simp [State.put]

/-- A register has the same value after another one is written. -/
theorem State.stored_put_other {n q : StoredName} (h : q ≠ n) : (s.put n v).stored q = s.stored q := by
  simp only [State.stored, State.put, UartRegs.get_put_other _ _ h]

/-- Writes of two registers commute. -/
theorem UartRegs.put_comm (u : UartRegs) {n q : StoredName} (h : q ≠ n) (v w : Byte) :
    (u.put n v).put q w = (u.put q w).put n v := by
  cases n <;> cases q
  case lcr.lcr | ier.ier | mcr.mcr | dll.dll | dlm.dlm | scr.scr => exact absurd rfl h
  all_goals rfl

/-- The draw of one register and the write of another commute. -/
theorem State.settle_put_other {n q : StoredName} (h : q ≠ n) : (s.put n v).settle q = (s.settle q).put n v := by
  unfold State.settle State.put
  simp only [UartRegs.get_put_other _ _ h]
  split
  · rfl
  · simp only [UartRegs.put_comm _ h]

/-- R29: a write of LCR sets the bank. -/
@[simp] theorem State.dlab_put_lcr : (s.put .lcr v).dlab = v.getLsbD 7 :=
  dlab_of_holds rfl

/-- R29: a write of another register leaves the bank. -/
theorem State.dlab_put_other {n : StoredName} (h : StoredName.lcr ≠ n) : (s.put n v).dlab = s.dlab :=
  congrArg (bit · 7) (s.stored_put_other v h)

end Put

/-! ### The shared operations inside a call -/

section Rules
variable (s : State) (r : Results) (p : Position) (es : List Event)

@[simp] theorem goto_running (q : Position) : goto q (s.running r p es) = .next (s.running r q es) := rfl

@[simp] theorem finish_running (q : Results) : finish q (s.running r p es) =
    .next { s with opr := {}, res := q, pos := .idle, events := s.events ++ es } := rfl

@[simp] theorem readStored_running (a : Slot) (n : StoredName) (k : Byte → State → Out) :
    readStored a n (s.running r p es) k =
      k (s.stored n) ((s.settle n).running r p (es ++ [readEvent s.cfg a (s.stored n)])) := by
  have hstored : (s.running r p es).stored n = s.stored n := rfl
  simp only [readStored, hstored, State.settle_running, State.record_running, State.running_cfg]

@[simp] theorem readEnv_running (a : Slot) (n : EnvName) (k : Byte → State → Out) :
    readEnv a n (s.running r p es) k =
      k (s.drawn n) ((s.draw n).running r p (es ++ [readEvent s.cfg a (s.drawn n)])) := by
  have hdrawn : (s.running r p es).drawn n = s.drawn n := rfl
  simp only [readEnv, hdrawn, State.draw_running, State.record_running, State.running_cfg]

@[simp] theorem writeStored_running (a : Slot) (n : StoredName) (v : Byte) (k : State → Out) :
    writeStored a n v (s.running r p es) k = k ((s.put n v).running r p (es ++ [writeEvent s.cfg a v])) :=
  congrArg k ((s.put n v).record_running r p es _)

@[simp] theorem writeOnly_running (a : Slot) (v : Byte) (k : State → Out) :
    writeOnly a v (s.running r p es) k = k (s.running r p (es ++ [writeEvent s.cfg a v])) :=
  congrArg k (s.record_running r p es _)

end Rules

/-- R202: inside the domain a divisor is one clock-divider read. -/
theorem computeDivisor_running {s : State} {b d : U32}
    (h : divCalc (clkScale s.cfg s.cfg.clockRate s.drawnClkDiv) b = some d)
    (r : Results) (p : Position) (es : List Event) (k : U32 → State → Out) : computeDivisor b (s.running r p es) k =
      k d (s.drawClkDiv.running r p (es ++ [clkDivEvent s.cfg s.drawnClkDiv])) := by
  have hdrawn : (s.running r p es).drawnClkDiv = s.drawnClkDiv := rfl
  simp only [computeDivisor, clkDivRead, hdrawn, State.drawClkDiv_running, State.record_running, State.running_cfg,
    State.drawClkDiv_cfg, h]

/-! ### Running a call -/

/-- R280, R300, R305, R310, R315, R320: the first label of a sequencer operation that needs no operand to start. -/
def firstLabel : Instr → Option Position
  | .seqInit => some (.init .i0)
  | .seqRead => some (.read .rd0)
  | .seqPoll => some (.poll .p0)
  | .seqSetctl => some (.setctl .s0)
  | .seqGetctl => some (.getctl .g0)
  | .seqSetattr => some (.setattr .a0)
  | _ => none

/-- R25: such an operation, where it may start, stands at its first label. -/
theorem exec_starts {s : State} (hr : s.Ready) {i : Instr} {p : Position} (h : firstLabel i = some p) :
    exec i s = .next { s with res := {}, pos := p } := by
  cases i <;> cases h <;>
    simp only [exec, execSeqInit, execSeqRead, execSeqPoll, execSeqSetctl, execSeqGetctl, execSeqSetattr, hr.1,
      start_ready hr, goto]

/-- R25: its call goes on from there. -/
theorem callOp_starts {s : State} (hr : s.Ready) {i : Instr} {p : Position} (h : firstLabel i = some p) (n : Nat) :
    callOp i n s = continueOp i n (s.running {} p []) := by
  simp [callOp, exec_starts hr h, State.running]

/-! ### SetControl, GetControl, Poll -/

/-- Settles O23: the mask is tested at S0; a valid one makes the read and the write, the other ends there. -/
theorem setctlRun : Obligations.SetctlRun := by
  unfold Obligations.SetctlRun
  refine ⟨rfl, ?_⟩
  rintro s mask m m2 g hr hmask rfl rfl hm2
  rw [← ctlMcr_eq] at hm2
  subst hm2
  refine ⟨exec_starts hr rfl, fun hin => ?_, fun hout => ?_⟩
  · rw [callOp_starts hr rfl]
    simp [continueOp, exec, execSeqSetctl, setctlLabel, devRead, devWrite, hmask, (maskAccepted_iff _ _).2 hin,
      hr.1]
  · rw [callOp_starts hr rfl]
    simp [continueOp, exec, execSeqSetctl, setctlLabel, hmask, mt (maskAccepted_iff _ _).1 hout, raise, hr.1]

/-- Settles O24: the three reads in order. -/
theorem getctlRun : Obligations.GetctlRun := by
  unfold Obligations.GetctlRun
  refine ⟨rfl, ?_⟩
  rintro s _ _ _ _ _ hr rfl rfl rfl rfl rfl
  refine ⟨exec_starts hr rfl, ?_⟩
  rw [callOp_starts hr rfl]
  simp [continueOp, exec, execSeqGetctl, getctlLabel, devRead, hr.1]

/-- Settles O25: P1 decides by the flow-control flag whether MCR is read and written (`pollRts_eq`). -/
theorem pollRun : Obligations.PollRun := by
  unfold Obligations.PollRun
  refine ⟨rfl, ?_⟩
  rintro s _ _ _ hr rfl rfl rfl
  refine ⟨exec_starts hr rfl, fun hf => ?_, fun hf m2 hm2 => ?_⟩
  · rw [callOp_starts hr rfl]
    simp [continueOp, exec, execSeqPoll, pollLabel, devRead, hf, rxReady, hr.1]
  · rw [← pollRts_eq] at hm2
    subst hm2
    rw [callOp_starts hr rfl]
    simp [continueOp, exec, execSeqPoll, pollLabel, devRead, devWrite, hf, rxReady, hr.1]

/-! ### Read of no bytes -/

/-- Settles O40: RD0 reads MCR, and RD1 finds nothing to fetch. -/
theorem readOfZeroBytes : Obligations.ReadOfZeroBytes := by
  unfold Obligations.ReadOfZeroBytes
  intro s hr hcount
  rw [callOp_starts hr rfl]
  simp [continueOp, exec, execSeqRead, readLabel, hcount, devRead, hr.1]

/-! ### Initialize -/

section CheckPath
variable {s s1 s2 s3 : State} {d : U32} {l0 hi lo : Byte}

/-- R281: the check path up to I6: its six accesses, and what they compare. The latch is open (DLAB = 1) from I2 to I5,
so DLM and DLL are reached. -/
theorem init_reaches_i6 (hr : s.Ready) (h1 : s1 = s.drawClkDiv)
    (hd : divCalc (clkScale s.cfg s.cfg.clockRate s.drawnClkDiv) s.cfg.defaultBaud = some d)
    (hl0 : l0 = s1.stored .lcr) (h2 : s2 = s1.settle .lcr) (hhi : hi = s2.stored .dlm) (h3 : s3 = s2.settle .dlm)
    (hlo : lo = s3.stored .dll) (n : Nat) :
    callOp .seqInit (n + 6) s = continueOp .seqInit n (((s3.settle .dll).put .lcr (l0 &&& 0x7F#8)).running {}
      (.init (.i6 { tDiv := d, tLcr := s.cfg.lcr &&& 0x3F#8 } (lcrMatch l0 s.cfg.lcr)
        (decide ((divJoin hi lo).toNat = d.toNat))))
      [clkDivEvent s.cfg s.drawnClkDiv, readEvent s.cfg R_LCR l0, writeEvent s.cfg R_LCR (l0 ||| 0x80#8),
       readEvent s.cfg R_DLM hi, readEvent s.cfg R_DLL lo, writeEvent s.cfg R_LCR (l0 &&& 0x7F#8)]) := by
  subst h1 hl0 h2 hhi h3 hlo
  rw [callOp_starts hr rfl]
  simp [continueOp, exec, execSeqInit, initLabel, devRead, devWrite, computeDivisor_running hd,
    State.settle_put_other, State.stored_put_other]

end CheckPath

/-- R281: I6 ends the call when both comparisons matched, and goes to the drain otherwise. -/
theorem continueOp_i6 (s : State) (t : InitTargets) (okL okD : Bool) (es : List Event) :
    continueOp .seqInit 1 (s.running {} (.init (.i6 t okL okD)) es) = .next { s with
      opr := if okL && okD then {} else s.opr
      res := if okL && okD then { st := some .success } else {}
      pos := if okL && okD then .idle else .init (.i7 t)
      events := s.events ++ es } := by
  cases okL <;> cases okD <;> rfl

/-- Settles O26: the accesses up to I6 (`init_reaches_i6`), and its two outcomes (`continueOp_i6`). -/
theorem initCheckPath : Obligations.InitCheckPath := by
  unfold Obligations.InitCheckPath
  refine ⟨rfl, ?_⟩
  rintro s d l0 hi lo s1 s2 s3 _ hr h1 hd hl0 h2 hhi h3 hlo rfl
  refine ⟨exec_starts hr rfl, fun ok hok => ?_⟩
  have hcheck : (lcrMatch l0 s.cfg.lcr && decide ((divJoin hi lo).toNat = d.toNat)) = ok := by
    simp [hok, lcrMatch_eq_mod, divJoin_toNat]
  rw [init_reaches_i6 hr h1 hd hl0 h2 hhi h3 hlo 1, continueOp_i6, hcheck]
  subst h1 h2 h3
  simp

/-- Settles O28: DLM and DLL are reached while the latch is open, IER once it is closed. -/
theorem initReprogramRun : Obligations.InitReprogramRun := by
  unfold Obligations.InitReprogramRun
  intro s t hi lo hp hk hhi hlo
  rw [← divHi_eq] at hhi
  rw [← divLo_eq] at hlo
  subst hhi hlo
  have hlcr : t.tLcr = s.cfg.lcr &&& 0x3F#8 := by
    simp only [State.LatchKept, hp] at hk
    exact hk.1
  have hself : s = s.running s.res (.init (.i8 t)) [] := by rw [← hp, s.running_self]
  conv_lhs => rw [hself]
  simp [continueOp, exec, execSeqInit, initLabel, devWrite, latchOn, LCR_DLAB, hlcr, State.settle_put_other,
    State.dlab_put_other, UartRegs.put]

/-- R281: the check path where LCR, DLM and DLL hold values: it leaves the registers, but for DLAB. -/
theorem init_check_of_holds {t : State} {d : U32} {l hi lo : Byte} (hr : t.Ready)
    (hd : divCalc (clkScale t.cfg t.cfg.clockRate t.drawnClkDiv) t.cfg.defaultBaud = some d)
    (hl : t.uart.lcr = .holds l) (hhi : t.uart.dlm = .holds hi) (hlo : t.uart.dll = .holds lo) :
    ∃ u, callOp .seqInit 7 t = .next u ∧ u.events.length = t.events.length + 6
      ∧ u.uart = t.uart.put .lcr (l &&& 0x7F#8)
      ∧ (u.pos = .idle ↔ l.toNat % 64 = t.cfg.lcr.toNat % 64 ∧ hi.toNat * 256 + lo.toNat = d.toNat)
      ∧ (u.pos = .idle → u.res = { st := some .success }) := by
  have hl' : t.drawClkDiv.uart.get .lcr = .holds l := by simpa [UartRegs.get] using hl
  have hhi' : t.drawClkDiv.uart.get .dlm = .holds hi := by simpa [UartRegs.get] using hhi
  have hlo' : t.drawClkDiv.uart.get .dll = .holds lo := by simpa [UartRegs.get] using hlo
  obtain ⟨-, hcheck⟩ := initCheckPath
  obtain ⟨-, hrun⟩ := hcheck t d l hi lo t.drawClkDiv _ _ _ hr rfl hd (State.stored_of_holds hl').symm
    (State.settle_of_holds hl').symm (State.stored_of_holds hhi').symm (State.settle_of_holds hhi').symm
    (State.stored_of_holds hlo').symm (State.settle_of_holds hlo').symm
  refine ⟨_, hrun _ rfl, by simp, by simp, by simp, fun hidle => ?_⟩
  simpa using hidle

/-- R206, R207: the bytes of a divisor join to it exactly below 65536. -/
theorem divisor_bytes_join_iff (d : U32) :
    (BitVec.ofNat 8 (d.toNat / 256)).toNat * 256 + (BitVec.ofNat 8 d.toNat).toNat = d.toNat ↔ d.toNat < 65536 := by
  simp only [BitVec.toNat_ofNat]
  omega

/-- R281, R283: a byte of six bits is what I11 writes, what I1 compares, and what I5 writes back. -/
theorem six_bits_kept : ∀ l : Byte,
    (l &&& 0x3F#8).toNat % 64 = l.toNat % 64 ∧ l &&& 0x3F#8 &&& 0x7F#8 = l &&& 0x3F#8 := by
  decide

/-- Settles O30: the check path (`init_check_of_holds`) over the registers the reprogram path leaves. -/
theorem initTwiceReprogramsOnce : Obligations.InitTwiceReprogramsOnce := by
  unfold Obligations.InitTwiceReprogramsOnce
  intro s t g hp hk hrun hr hd
  rw [initReprogramRun s g _ _ hp hk rfl rfl] at hrun
  have hcfg : t.cfg = s.cfg := by cases hrun; rfl
  have hlcr : t.uart.lcr = .holds (t.cfg.lcr &&& 0x3F#8) := by cases hrun; rfl
  obtain ⟨hsix, hback⟩ := six_bits_kept t.cfg.lcr
  obtain ⟨u, hu, hevents, huart, hidle, hres⟩ :=
    init_check_of_holds hr hd hlcr (hi := .ofNat 8 (g.tDiv.toNat / 256)) (lo := .ofNat 8 g.tDiv.toNat)
      (by cases hrun; rfl) (by cases hrun; rfl)
  rw [hsix, divisor_bytes_join_iff, and_iff_right rfl] at hidle
  refine ⟨u, hu, hevents, hidle, fun hlt => ⟨?_, hres (hidle.2 hlt)⟩⟩
  rw [huart, hback]
  simp only [UartRegs.put, ← hlcr]

/-! ### SetAttributes -/

/-- R320 (A0): what a SetAttributes makes of its request: the LCR value it reads, if it reads one, the state the read
leaves, and its event. -/
def LiveRead (s : State) (req : Attr) (live : Option Byte) (s0 : State) (ev : List Event) : Prop :=
  if attrNeedsLive s.cfg req
  then live = some (s.stored .lcr) ∧ s0 = s.settle .lcr ∧ ev = [readEvent s.cfg R_LCR (s.stored .lcr)]
  else live = none ∧ s0 = s ∧ ev = []

section Request
variable {s s0 : State} {req : Attr} {live : Option Byte} {ev : List Event}

/-- R320 (A0): the read of LCR changes no more than LCR's draw. -/
theorem LiveRead.frame (h : LiveRead s req live s0 ev) :
    s0.pos = s.pos ∧ s0.cfg = s.cfg ∧ s0.events = s.events := by
  unfold LiveRead at h
  split at h
  · obtain ⟨-, rfl, -⟩ := h
    simp
  · obtain ⟨-, rfl, -⟩ := h
    simp

/-- R320 (A0): a SetAttributes up to A1. -/
theorem setattr_reaches_a1 (hr : s.Ready) (hreq : s.opr.req = some req) (h : LiveRead s req live s0 ev) (n : Nat) :
    callOp .seqSetattr (n + 1) s = continueOp .seqSetattr n (s0.running {} (.setattr (.a1 req live)) ev) := by
  rw [callOp_starts hr rfl]
  unfold LiveRead at h
  split at h
  · next hneed =>
    obtain ⟨rfl, rfl, rfl⟩ := h
    simp [continueOp, exec, execSeqSetattr, setattrLabel, hreq, hneed, devRead]
  · next hneed =>
    obtain ⟨rfl, rfl, rfl⟩ := h
    simp [continueOp, exec, execSeqSetattr, setattrLabel, hreq, hneed]

end Request

/-- Settles O42: from A1 (`setattr_reaches_a1`) the request is applied; DLM and DLL are reached while the latch is
open. -/
theorem setattrRun : Obligations.SetattrRun := by
  unfold Obligations.SetattrRun
  rintro s s0 req res l hi lo d _ live ev hr hreq rfl (hlive : LiveRead s req live s0 ev) hres hall hd hhi hlo
  rw [← divHi_eq] at hhi
  rw [← divLo_eq] at hlo
  subst hhi hlo
  refine ⟨exec_starts hr rfl, ?_⟩
  obtain ⟨hpos, hcfg, hev⟩ := hlive.frame
  rw [← hcfg] at hd
  rw [setattr_reaches_a1 hr hreq hlive 8]
  simp [continueOp, exec, execSeqSetattr, setattrLabel, hres, attrAllDefault, hall, computeDivisor_running hd, latchOn,
    devWrite, LCR_DLAB, State.settle_put_other, State.dlab_put_other, UartRegs.put, hpos, hcfg, hev, hr.1]

/-- Settles O44: A1 (`setattr_reaches_a1`) ends the call with the free record it takes. -/
theorem setattrFailureWritesNothing : Obligations.SetattrFailureWritesNothing := by
  unfold Obligations.SetattrFailureWritesNothing
  rintro s s0 req _ live ev hr hreq rfl (hlive : LiveRead s req live s0 ev) hres
  obtain ⟨hpos, hcfg, hev⟩ := hlive.frame
  refine ⟨Config.freeAttr s0.freeCount, s0.drawAttr.freeCount, ?_⟩
  rw [setattr_reaches_a1 hr hreq hlive 1]
  simp [continueOp, exec, execSeqSetattr, setattrLabel, hres, hpos, hcfg, hev, hr.1]

/-- R10 (a): the default baud rate is in the calculator's domain. -/
theorem State.Ready.defaultBaud_le {s : State} (hr : s.Ready) : 16 * s.cfg.defaultBaud.toNat ≤ maxU32 := by
  have h := ((wf_iff s.cfg).1 hr.2.1).1
  simp only [BreaksSpecChecks, not_or] at h
  exact Nat.le_of_not_gt h.2.1

/-- R147: what default stop bits decode to with default data bits. -/
theorem decStop_decData (l : Byte) : decStop l (decData l) =
    if l.getLsbD 2 = false then .one else if l.toNat % 4 = 0 then .oneAndHalf else .two := by
  have h : (decData l).toNat = 5 ↔ l.toNat % 4 = 0 := by
    rw [decData_eq, BitVec.toNat_ofNat]
    omega
  simp only [decStop_eq, h]

/-- R321: an all-default request resolves to the default baud rate and the settings of its source. -/
theorem attrResolve_of_allDefault {c : Cfg} {req : Attr} {live : Option Byte} {src : Byte} {p : Parity}
    (hbaud : req.baud = 0#32) (hdata : req.dataBits = 0#8) (hpar : req.parity = .default)
    (hstop : req.stopBits = .default) (hsrc : attrSource c live = some src)
    (hp : (p, src.extractLsb' 3 3) ∈ parityTable) (hle : 16 * c.defaultBaud.toNat ≤ maxU32) :
    ∃ l, attrResolve c req live = .resolved { req with
      baud := c.defaultBaud, dataBits := decData src, parity := p, stopBits := decStop src (decData src) } l := by
  have hb : resolveBaud c req.baud = c.defaultBaud := by rw [hbaud]; rfl
  have hparity : resolveParity (attrSource c live) req.parity = .value p := by
    rw [hpar, resolveParity_default hsrc, decPar_eq_some_iff.2 hp]
    rfl
  obtain ⟨l, hl⟩ : ∃ l, lcrEnc (decData src) p (decStop src (decData src)) = some l :=
    ⟨_, lcrEnc_eq_some_iff.2 ⟨_, _, decData_range src, hp, decStop_mem_stopTable src _, rfl⟩⟩
  refine ⟨l, ?_⟩
  rw [← hb]
  exact attrResolve_of_values (hdata ▸ resolveDataBits_default hsrc) hparity
    (hstop ▸ resolveStopBits_default hsrc _) (hb ▸ hle) hl

/-- Settles O43: A1 (`setattr_reaches_a1`) resolves the request (`attrResolve_of_allDefault`), and A2 ends the call. -/
theorem setattrAllDefaultWritesNothing : Obligations.SetattrAllDefaultWritesNothing := by
  unfold Obligations.SetattrAllDefaultWritesNothing
  intro s req p src hr hreq hbaud hdata hpar hstop hsrc hp
  refine ⟨_, rfl, ?_⟩
  have hneed : attrNeedsLive s.cfg req = decide (s.cfg.defaultSource = .liveLcr) := by simp [attrNeedsLive, hdata]
  have hdefault : attrAllDefault req = true := by simp [attrAllDefault, hbaud, hdata, hpar, hstop]
  obtain ⟨live, s0, ev, hlive, hs0, hev0, hsource⟩ : ∃ live s0 ev, LiveRead s req live s0 ev
      ∧ s0 = (if s.cfg.defaultSource = .liveLcr then s.settle .lcr else s)
      ∧ ev = (if s.cfg.defaultSource = .liveLcr then [readEvent s.cfg R_LCR (s.stored .lcr)] else [])
      ∧ attrSource s.cfg live = some src := by
    simp only [LiveRead, hneed, attrSource_eq, hsrc]
    by_cases h : s.cfg.defaultSource = .liveLcr <;> simp [h]
  obtain ⟨hpos, hcfg, hev⟩ := hlive.frame
  obtain ⟨l, hres⟩ := attrResolve_of_allDefault hbaud hdata hpar hstop hsource hp hr.defaultBaud_le
  rw [setattr_reaches_a1 hr hreq hlive 2, ← hs0, ← hev0, ← decData_eq, ← decStop_decData]
  simp [continueOp, exec, execSeqSetattr, setattrLabel, hres, hdefault, hpos, hcfg, hev, hr.1]

end Sys2Proof.Machine
end

section
/-! PROOFS. The statements of 43_sequences.md about single labels: the drain of Initialize, the labels of Write and of
Read, each with its whole next state. -/

namespace Sys2Proof.Machine

/-- R15, R33: what a read of an environment register leaves. -/
theorem readEnv_eq (a : Slot) (n : EnvName) (s : State) (k : Byte → State → Out) : readEnv a n s k =
    k (s.drawn n) { s.draw n with events := s.events ++ [readEvent s.cfg a (s.drawn n)] } := by
  simp [readEnv, State.record]

/-- R15, R32: what a read of a stored register leaves. -/
theorem readStored_eq (a : Slot) (n : StoredName) (s : State) (k : Byte → State → Out) : readStored a n s k =
    k (s.stored n) { s.settle n with events := s.events ++ [readEvent s.cfg a (s.stored n)] } := by
  simp [readStored, State.record]

/-- Settles O27: the one LSR read of I7 (`txEmpty_bits`). -/
theorem initDrainPollsLsr : Obligations.InitDrainPollsLsr := by
  unfold Obligations.InitDrainPollsLsr
  intro s t hp
  simp only [exec, execSeqInit, hp, initLabel, devRead, readEnv_eq, goto, txEmpty_bits, apply_ite]

/-- Settles O32: each label of the flush. -/
theorem writeFlushLabels : Obligations.WriteFlushLabels := by
  unfold Obligations.WriteFlushLabels
  refine ⟨rfl, fun s buf hr hbuf => ?_, fun s hp => ?_, fun s hp hf => ?_, fun s hp hf => ?_, fun s hp => ?_⟩
  · simp only [exec, execSeqWrite, hr.1, start_ready hr, hbuf, need_some, goto]
  all_goals simp only [exec, execSeqWrite, hp, writeLabel]
  · simp only [devRead, readEnv_eq, goto, txEmpty_bits]
  · simp [gateTx, hf, goto]
  · simp [gateTx, hf, devRead, readEnv_eq, goto]
  · rfl

/-- Settles O33: each label of the send; W8 by the bank LCR selects. -/
theorem writeSendLabels : Obligations.WriteSendLabels := by
  unfold Obligations.WriteSendLabels
  refine ⟨rfl, fun s buf hp hbuf => ?_, fun s v rest hp => ?_, fun s v rest hp => ?_, fun s v hp => ?_,
    fun s v b rest hp => ?_, fun s v b rest hp hf => ?_, fun s v b rest hp hf => ?_, fun s v b rest hp => ?_,
    fun s n hp => ?_⟩
  all_goals simp only [exec, execSeqWrite, hp, writeLabel]
  · simp only [hbuf, need_some, goto, fifoDepth, apply_ite BitVec.toNat]
    rfl
  · rfl
  · simp only [devRead, readEnv_eq, goto, txEmpty_bits]
  · rfl
  · rfl
  · simp [gateTx, hf, goto]
  · simp [gateTx, hf, devRead, readEnv_eq, goto]
  · have hbank : (s.stored .lcr).getLsbD 7 = s.dlab := rfl
    rw [hbank]
    cases hd : s.dlab
    · simp [devWrite, hd, writeOnly, goto, State.record]
    · simp [devWrite, hd, writeStored, goto, State.record]
  · rfl

/-- Settles O38: each label of a Read; RD5 by the bank LCR selects. -/
theorem readLabels : Obligations.ReadLabels := by
  unfold Obligations.ReadLabels
  refine ⟨rfl, fun s hr => ?_, fun s n hp hn => ?_, fun s v hp => ?_, fun s v hp => ?_, fun s v hp => ?_,
    fun s v hp => ?_, fun s v hp hd => ?_, fun s v hp hd => ?_, fun s v hp => ?_⟩
  · exact exec_starts hr rfl
  all_goals simp only [exec, execSeqRead, hp, readLabel]
  · rw [hn, need_some, ← pollRts_ready]
    simp only [devRead, readStored_eq, goto, pollRts, if_true]
  · rfl
  · simp only [devRead, readEnv_eq]
    rfl
  · split <;> rfl
  · split <;> rfl
  · have hbank : s.dlab = false := hd
    simp [devRead, hbank, readEnv_eq, goto]
  · have hbank : s.dlab = true := hd
    simp [devRead, hbank, readStored_eq, goto]
  · rfl

end Sys2Proof.Machine
end

section
/-! PROOFS. The statements of 43_sequences.md about calls of any length: each is a property that every label keeps
(`callOp_leads`). -/

namespace Sys2Proof.Machine

/-! ### Whole calls: what every label keeps -/

/-- A call answers what its labels answer: a property every label keeps holds wherever the call stands. -/
theorem continueOp_leads {P : State → Prop} {i : Instr}
    (h : ∀ s, s.pos ≠ .idle → P s → Leads P (exec i s)) (n : Nat) {s : State} (hs : P s) :
    Leads P (continueOp i n s) := by
  induction n generalizing s with
  | zero => exact fun t ht => by cases ht; exact hs
  | succ n ih =>
    intro t ht
    unfold continueOp at ht
    split at ht
    · cases ht
      exact hs
    · next hp =>
      split at ht
      · next u hu => exact ih (h s hp hs u hu) t ht
      · cases ht
      · cases ht

/-- R25: the same of a whole call, whose start gives the property. -/
theorem callOp_leads {P : State → Prop} {i : Instr} {s : State} (hstart : Leads P (exec i s))
    (h : ∀ s, s.pos ≠ .idle → P s → Leads P (exec i s)) (n : Nat) : Leads P (callOp i n s) := by
  intro t ht
  unfold callOp at ht
  split at ht
  · next u hu => exact continueOp_leads h n (hstart u hu) t ht
  · cases ht
  · cases ht

/-! ### Initialize -/

/-- R284: where the call has ended, its only result is Success. -/
def EndsWithSuccess (t : State) : Prop := t.pos = .idle → t.res = { st := some .success }

/-- R281 to R283: I6 and I16 are the labels that end Initialize. -/
theorem initLabel_endsWithSuccess (p : InitPos) (s : State) : Leads EndsWithSuccess (initLabel p s) := by
  cases p <;> dsimp only [initLabel]
  case i0 => exact computeDivisor_leads fun _ _ _ => goto_leads nofun
  case i1 | i3 | i4 | i7 => exact devRead_leads fun _ _ _ => goto_leads nofun
  case i2 | i5 | i8 | i11 => exact devWrite_lcr_leads fun _ _ => goto_leads nofun
  case i9 | i10 | i12 | i13 | i14 | i15 => exact devWrite_leads (by decide) fun _ _ => goto_leads nofun
  case i6 =>
    split
    · exact finish_leads fun _ => rfl
    · exact goto_leads nofun
  case i16 => exact finish_leads fun _ => rfl

theorem exec_seqInit_endsWithSuccess (s : State) : Leads EndsWithSuccess (exec .seqInit s) := by
  dsimp only [exec, execSeqInit]
  split
  · exact initLabel_endsWithSuccess _ s
  · exact start_leads fun _ => goto_leads nofun

/-- Settles O29: whatever a label of Initialize answers, it ends only with Success (`exec_seqInit_endsWithSuccess`). -/
theorem initReturnsOnlySuccess : Obligations.InitReturnsOnlySuccess := by
  unfold Obligations.InitReturnsOnlySuccess
  intro s t n _ h
  exact callOp_leads (exec_seqInit_endsWithSuccess s) (fun u _ _ => exec_seqInit_endsWithSuccess u) n t h

/-! ### Accesses by their events -/

/-- What one access leaves: its event, and the configuration. -/
structure Adds (s : State) (e : Event) (u : State) : Prop where
  cfg : u.cfg = s.cfg
  events : u.events = s.events ++ [e]

section Rules
variable {P : State → Prop} {s : State}

/-- R15: a read that goes on adds its event. -/
theorem devRead_adds {r : Slot} {k : Byte → State → Out}
    (h : ∀ v u, Adds s (readEvent s.cfg r v) u → Leads P (k v u)) : Leads P (devRead r s k) := by
  cases r <;> dsimp only [devRead, readStored, readEnv]
  case iirFcr | scr => exact refused_leads _
  case rbrThrDll | ierDlm => split <;> exact h _ _ ⟨by simp, by simp⟩
  case lcr | mcr | lsr | msr => exact h _ _ ⟨by simp, by simp⟩

/-- R15: a write that goes on adds its event. -/
theorem devWrite_adds {r : Slot} {v : Byte} {k : State → Out}
    (h : ∀ u, Adds s (writeEvent s.cfg r v) u → Leads P (k u)) : Leads P (devWrite r v s k) := by
  cases r <;> dsimp only [devWrite, writeStored, writeOnly]
  case lsr | msr | scr => exact refused_leads _
  case rbrThrDll | ierDlm => split <;> exact h _ ⟨by simp, by simp⟩
  case iirFcr | lcr | mcr => exact h _ ⟨by simp, by simp⟩

/-- R241: the gate adds an MSR read under flow control and nothing without it. -/
theorem gateTx_adds {k : Bool → State → Out} (hoff : s.cfg.hwFlow = false → Leads P (k true s))
    (hon : s.cfg.hwFlow = true → ∀ v w u, Adds s (readEvent s.cfg R_MSR v) u → Leads P (k w u)) :
    Leads P (gateTx s k) := by
  unfold gateTx
  split
  · next hf => exact devRead_adds fun v u hu => hon hf v _ u hu
  · next hf => exact hoff (by simpa using hf)

end Rules

/-! ### Write -/

/-- R293: the history since `s` has LSR reads and THR writes only. -/
def OnlyLsrAndThr (s t : State) : Prop :=
  t.cfg = s.cfg ∧ ∃ es, t.events = s.events ++ es ∧ ∀ e ∈ es,
    (e.kind = .read ∧ e.address = s.cfg.addr R_LSR) ∨ (e.kind = .write ∧ e.address = s.cfg.addr R_THR)

theorem OnlyLsrAndThr.adds {s t u : State} {e : Event} (h : OnlyLsrAndThr s t) (hu : Adds t e u)
    (he : (e.kind = .read ∧ e.address = s.cfg.addr R_LSR) ∨ (e.kind = .write ∧ e.address = s.cfg.addr R_THR)) :
    OnlyLsrAndThr s u := by
  obtain ⟨hcfg, es, hes, hall⟩ := h
  refine ⟨hu.cfg.trans hcfg, es ++ [e], by rw [hu.events, hes, List.append_assoc], ?_⟩
  intro f hf
  obtain hf | hf := List.mem_append.1 hf
  · exact hall f hf
  · rw [List.mem_singleton.1 hf]
    exact he

theorem OnlyLsrAndThr.read {s t u : State} {v : Byte} (h : OnlyLsrAndThr s t)
    (hu : Adds t (readEvent t.cfg R_LSR v) u) : OnlyLsrAndThr s u :=
  h.adds hu (.inl ⟨rfl, congrArg (Cfg.addr · R_LSR) h.1⟩)

theorem OnlyLsrAndThr.write {s t u : State} {v : Byte} (h : OnlyLsrAndThr s t)
    (hu : Adds t (writeEvent t.cfg R_THR v) u) : OnlyLsrAndThr s u :=
  h.adds hu (.inr ⟨rfl, congrArg (Cfg.addr · R_THR) h.1⟩)

/-- R293: without flow control the gate makes no access, so no label of Write reads MSR. -/
theorem writeLabel_onlyLsrAndThr {s t : State} (hf : s.cfg.hwFlow = false) (p : WritePos) (h : OnlyLsrAndThr s t) :
    Leads (OnlyLsrAndThr s) (writeLabel p t) := by
  have hflow : t.cfg.hwFlow = false := by rw [h.1, hf]
  have goes {q : Position} {u : State} (hu : OnlyLsrAndThr s u) : Leads (OnlyLsrAndThr s) (goto q u) := goto_leads hu
  cases p <;> dsimp only [writeLabel]
  case w0 | w5 => exact devRead_adds fun _ _ hu => goes (h.read hu)
  case w1 | w7 => exact gateTx_adds (fun _ => goes h) fun hon => by simp [hflow] at hon
  case w3 => exact need_leads fun _ => goes h
  case w4 => exact goes h
  case w6 v rest => cases rest <;> exact goes h
  case w8 => exact devWrite_adds fun _ hu => goes (h.write hu)
  case w2 | w9 => exact finish_leads h

theorem exec_seqWrite_onlyLsrAndThr {s t : State} (hf : s.cfg.hwFlow = false) (h : OnlyLsrAndThr s t) :
    Leads (OnlyLsrAndThr s) (exec .seqWrite t) := by
  dsimp only [exec, execSeqWrite]
  split
  · exact writeLabel_onlyLsrAndThr hf _ h
  · intro u hu
    obtain ⟨-, hu⟩ := start_next hu
    refine need_leads (fun _ => goto_leads ?_) u hu
    exact h

/-- Settles O35: every label keeps the history to LSR reads and THR writes (`exec_seqWrite_onlyLsrAndThr`). -/
theorem writeWithoutFlowControl : Obligations.WriteWithoutFlowControl := by
  unfold Obligations.WriteWithoutFlowControl
  intro s t n _ hf h
  have hs : OnlyLsrAndThr s s := ⟨rfl, [], by simp, by simp⟩
  exact (callOp_leads (exec_seqWrite_onlyLsrAndThr hf hs) (fun _ _ => exec_seqWrite_onlyLsrAndThr hf) n t h).2

/-- A read adds nothing to what was written to a register. -/
theorem writtenTo_read (c : Cfg) (r q : Slot) (es : List Event) (v : Byte) :
    writtenTo c r (es ++ [readEvent c q v]) = writtenTo c r es := by
  simp [writtenTo, readEvent]

/-- A write of the register adds its value. -/
theorem writtenTo_write (c : Cfg) (r : Slot) (es : List Event) (v : Byte) :
    writtenTo c r (es ++ [writeEvent c r v]) = writtenTo c r es ++ [v.toNat] := by
  simp [writtenTo, writeEvent]

/-- R291: the bytes a Write of `buf` has not sent at a label. -/
def WritePos.unsent (buf : List Byte) : WritePos → List Byte
  | .w3 => buf
  | .w0 | .w1 | .w2 | .w9 _ => []
  | .w4 _ rest | .w5 _ rest | .w6 _ rest => rest
  | .w7 _ b rest | .w8 _ b rest => b :: rest

/-- R290 to R292: a label of a Write of `buf` will answer its length. -/
def WritePos.Counts (buf : List Byte) (o : Operands) : WritePos → Prop
  | .w0 | .w1 | .w2 => buf = []
  | .w3 => o.buf = some buf
  | .w4 v _ | .w5 v _ | .w6 v _ | .w7 v _ _ | .w8 v _ _ => v.n = buf.length
  | .w9 n => n = buf.length

/-- R291: the history since `s` has written all of `buf` but these bytes at THR's address. -/
def SentAllBut (s : State) (buf rest : List Byte) (t : State) : Prop :=
  t.cfg = s.cfg ∧ ∃ es, t.events = s.events ++ es
    ∧ writtenTo s.cfg R_THR es ++ rest.map BitVec.toNat = buf.map BitVec.toNat

section SentAllBut
variable {s t u : State} {buf rest : List Byte}

theorem SentAllBut.read (h : SentAllBut s buf rest t) {q : Slot} {v : Byte} (hu : Adds t (readEvent t.cfg q v) u) :
    SentAllBut s buf rest u := by
  obtain ⟨hcfg, es, hes, hsent⟩ := h
  refine ⟨hu.cfg.trans hcfg, es ++ [readEvent s.cfg q v], ?_, ?_⟩
  · rw [hu.events, hes, hcfg, List.append_assoc]
  · rw [writtenTo_read, hsent]

theorem SentAllBut.write {b : Byte} (h : SentAllBut s buf (b :: rest) t) (hu : Adds t (writeEvent t.cfg R_THR b) u) :
    SentAllBut s buf rest u := by
  obtain ⟨hcfg, es, hes, hsent⟩ := h
  refine ⟨hu.cfg.trans hcfg, es ++ [writeEvent s.cfg R_THR b], ?_, ?_⟩
  · rw [hu.events, hes, hcfg, List.append_assoc]
  · rw [writtenTo_write, ← hsent, List.append_assoc]
    rfl

end SentAllBut

/-- R290 to R292: where a Write of `buf`, begun in `s`, may stand. -/
def Sending (s : State) (buf : List Byte) (t : State) : Prop :=
  (t.pos = .idle ∧ t.res = { count := some buf.length } ∧ SentAllBut s buf [] t)
  ∨ ∃ p, t.pos = .write p ∧ p.Counts buf t.opr ∧ SentAllBut s buf (p.unsent buf) t

theorem goto_sending {s u : State} {buf : List Byte} {p : WritePos} (hn : p.Counts buf u.opr)
    (hu : SentAllBut s buf (p.unsent buf) u) : Leads (Sending s buf) (goto (.write p) u) :=
  goto_leads (.inr ⟨p, rfl, hn, hu⟩)

/-- R291, R292: W8 is the label that sends a byte, and the count goes from W3 to W9 unchanged. -/
theorem writeLabel_sending {s t : State} {buf : List Byte} {p : WritePos}
    (hn : p.Counts buf t.opr) (h : SentAllBut s buf (p.unsent buf) t) : Leads (Sending s buf) (writeLabel p t) := by
  cases p <;> dsimp only [writeLabel]
  case w0 | w5 => exact devRead_adds fun _ _ hu => by split <;> exact goto_sending hn (h.read hu)
  case w1 | w7 =>
    exact gateTx_adds (fun _ => goto_sending hn h) fun _ _ _ _ hu => by
      split <;> exact goto_sending hn (h.read hu)
  case w2 => exact finish_leads (.inl ⟨rfl, by rw [show buf = [] from hn]; rfl, h⟩)
  case w3 =>
    rw [show t.opr.buf = some buf from hn]
    exact goto_sending rfl h
  case w4 v rest =>
    split
    · next hrest =>
      subst hrest
      exact goto_sending hn h
    · exact goto_sending hn h
  case w6 v rest =>
    cases rest with
    | nil => exact goto_sending hn h
    | cons b rest => dsimp only; split <;> exact goto_sending hn h
  case w8 => exact devWrite_adds fun _ hu => goto_sending hn (h.write hu)
  case w9 n => exact finish_leads (.inl ⟨rfl, by rw [show n = buf.length from hn], h⟩)

theorem exec_seqWrite_sending {s t : State} {buf : List Byte} (hp : t.pos ≠ .idle) (h : Sending s buf t) :
    Leads (Sending s buf) (exec .seqWrite t) := by
  obtain ⟨hidle, -⟩ | ⟨p, hpos, hn, hsent⟩ := h
  · exact absurd hidle hp
  · simp only [exec, execSeqWrite, hpos]
    exact writeLabel_sending hn hsent

/-- R290, R291: a Write starts with nothing sent. -/
theorem exec_seqWrite_starts_sending {s : State} {buf : List Byte} (hr : s.Ready) (hbuf : s.opr.buf = some buf) :
    Leads (Sending s buf) (exec .seqWrite s) := by
  obtain ⟨-, hstart, -⟩ := writeFlushLabels
  rw [hstart s buf hr hbuf]
  rintro _ ⟨⟩
  have hsent : SentAllBut s buf buf s := ⟨rfl, [], by simp, by simp [writtenTo]⟩
  refine .inr ⟨_, rfl, ?_⟩
  split
  · next hb =>
    subst hb
    exact ⟨rfl, hsent⟩
  · exact ⟨hbuf, hsent⟩

/-- Settles O34: a Write starts with the whole buffer unsent, every label sends what it takes from the rest
(`writeLabel_sending`), and at Idle nothing is left. -/
theorem writeSendsBufferInOrder : Obligations.WriteSendsBufferInOrder := by
  unfold Obligations.WriteSendsBufferInOrder
  intro s t buf n hr hbuf h hidle
  obtain ⟨-, hres, -, es, hes, hsent⟩ | ⟨p, hpos, -⟩ :=
    callOp_leads (exec_seqWrite_starts_sending hr hbuf) (fun _ => exec_seqWrite_sending) n t h
  · exact ⟨hres, es, hes, by simpa using hsent⟩
  · cases hidle.symm.trans hpos

/-! ### Read -/

/-- R300: a label of a Read will answer this count. -/
def ReadPos.Counts (c : Nat) (o : Operands) : ReadPos → Prop
  | .rd0 => o.count = some c
  | .rd1 v | .rd2 v | .rd3 v | .rd4 v | .rd5 v | .rd6 v => v.count = c

/-- R300: where a Read of `c` bytes may stand. -/
def Reading (c : Nat) (t : State) : Prop :=
  (t.pos = .idle ∧ ∃ bs : List Byte, t.res = { buf := some bs, countRead := some c } ∧ bs.length = c)
  ∨ ∃ p, t.pos = .read p ∧ p.Counts c t.opr

theorem goto_reading {c : Nat} {u : State} {p : ReadPos} (hn : p.Counts c u.opr) :
    Leads (Reading c) (goto (.read p) u) :=
  goto_leads (.inr ⟨p, rfl, hn⟩)

/-- R300: RD0 takes the count, RD6 answers it. -/
theorem readLabel_reading {c : Nat} {t : State} {p : ReadPos} (hn : p.Counts c t.opr)
    (hc : State.ReadCounted { t with pos := .read p }) : Leads (Reading c) (readLabel p t) := by
  cases p <;> dsimp only [readLabel]
  case rd0 =>
    rw [show t.opr.count = some c from hn, need_some]
    exact devRead_leads fun _ _ _ => goto_reading (p := .rd1 _) rfl
  case rd1 => split <;> exact goto_reading hn
  case rd2 => exact devRead_leads fun _ _ _ => by split <;> exact goto_reading hn
  case rd3 | rd4 =>
    split
    · exact devWrite_leads (by decide) fun _ _ => goto_reading hn
    · exact goto_reading hn
  case rd5 => exact devRead_leads fun _ _ _ => goto_reading hn
  case rd6 v =>
    have hcount : v.count = c := hn
    have hlen : v.buf.length = v.count := hc
    exact finish_leads (.inl ⟨rfl, v.buf, by rw [hcount], hlen.trans hcount⟩)

theorem exec_seqRead_reading {c : Nat} {t : State} (hp : t.pos ≠ .idle) (h : Reading c t ∧ t.ReadCounted) :
    Leads (fun u => Reading c u ∧ u.ReadCounted) (exec .seqRead t) := by
  obtain ⟨⟨hidle, -⟩ | ⟨p, hpos, hn⟩, hc⟩ := h
  · exact absurd hidle hp
  · refine fun u hu => ⟨?_, exec_readCounted .seqRead hc u hu⟩
    simp only [exec, execSeqRead, hpos] at hu
    exact readLabel_reading hn (by simpa only [State.ReadCounted, hpos] using hc) u hu

/-- Settles O39: every label keeps the requested count (`exec_seqRead_reading`), and RD6 has that many bytes by the
invariant of O41 (`exec_readCounted`). -/
theorem readReturnsRequestedCount : Obligations.ReadReturnsRequestedCount := by
  unfold Obligations.ReadReturnsRequestedCount
  intro s t c n hr hcount h hidle
  have hstart : Leads (fun u => Reading c u ∧ u.ReadCounted) (exec .seqRead s) := by
    rw [exec_starts hr rfl]
    rintro _ ⟨⟩
    exact ⟨.inr ⟨.rd0, rfl, hcount⟩, trivial⟩
  obtain ⟨⟨-, hres⟩ | ⟨p, hpos, -⟩, -⟩ := callOp_leads hstart (fun _ => exec_seqRead_reading) n t h
  · exact hres
  · cases hidle.symm.trans hpos

end Sys2Proof.Machine
end

section
/-! PROOFS. The statements of 60_exceptions.md: a call that fails has made no write, and an operation that has its
operands answers. -/

namespace Sys2Proof.Machine

/-! ### A call that fails -/

/-- R354: since `s` no stored register that held a value has changed, and every access was a read. -/
def OnlyRead (s t : State) : Prop :=
  (∀ r v, s.uart.get r = .holds v → t.uart.get r = .holds v)
  ∧ ∃ es, t.events = s.events ++ es ∧ ∀ e ∈ es, e.kind = .read

/-- R32: a draw leaves every register that holds a value. -/
theorem State.settle_get_of_holds {s : State} {q : StoredName} {v : Byte} (h : s.uart.get q = .holds v)
    (r : StoredName) : (s.settle r).uart.get q = .holds v := by
  by_cases hq : q = r
  · rw [← hq, State.settle_of_holds h, h]
  · rw [s.settle_get_other hq, h]

/-- R32: a read of LCR adds a read to the history, and changes no register that holds a value. -/
theorem devRead_lcr_onlyRead {P : State → Prop} {s t : State} {k : Byte → State → Out} (h : OnlyRead s t)
    (hk : ∀ v u, OnlyRead s u → Leads P (k v u)) : Leads P (devRead R_LCR t k) := by
  obtain ⟨hkept, es, hes, hreads⟩ := h
  refine hk _ _ ⟨fun r v hv => State.settle_get_of_holds (hkept r v hv) .lcr,
    es ++ [readEvent t.cfg R_LCR (t.stored .lcr)], by simp [hes], fun e he => ?_⟩
  obtain he | he := List.mem_append.1 he
  · exact hreads e he
  · rw [List.mem_singleton.1 he]
    rfl

/-- R310, R322: the labels up to the last at which SetControl and SetAttributes can still fail, and the end of a call
that has failed. -/
def Failing (t : State) : Prop :=
  match t.pos with
  | .idle => t.res.st ≠ some .success
  | .setctl .s0 => True
  | .setattr .a0 => True
  | .setattr (.a1 _ _) => True
  | _ => False

/-- R354: as long as the call begun in `s` can fail, it has only read. -/
def FailsReading (s t : State) : Prop := Failing t → OnlyRead s t

/-- R310: SetControl can fail at S0 only, before any access. -/
theorem setctlLabel_failsReading {s t : State} {p : SetctlPos} (hp : t.pos = .setctl p) (h : FailsReading s t) :
    Leads (FailsReading s) (setctlLabel p t) := by
  cases p <;> dsimp only [setctlLabel]
  case s0 =>
    have hread : OnlyRead s t := h (by simp [Failing, hp])
    refine need_leads fun mask => ?_
    split
    · exact goto_leads False.elim
    · exact finish_leads fun _ => hread
  case s1 => exact devRead_leads fun _ _ _ => goto_leads False.elim
  case s2 => exact devWrite_leads (by decide) fun _ _ => goto_leads False.elim
  case s3 => exact finish_leads fun hfail => absurd rfl hfail

/-- R320 to R322: SetAttributes fails at A1 if at all, after no access but A0's read of LCR. -/
theorem setattrLabel_failsReading {s t : State} {p : SetattrPos} (hp : t.pos = .setattr p) (h : FailsReading s t) :
    Leads (FailsReading s) (setattrLabel p t) := by
  cases p <;> dsimp only [setattrLabel]
  case a0 =>
    have hread : OnlyRead s t := h (by simp [Failing, hp])
    refine need_leads fun req => ?_
    split
    · exact devRead_lcr_onlyRead hread fun _ _ hu => goto_leads fun _ => hu
    · exact goto_leads fun _ => hread
  case a1 =>
    have hread : OnlyRead s t := h (by simp [Failing, hp])
    split
    · exact goto_leads False.elim
    · exact finish_leads fun _ => hread
    · exact fault_leads _
    · exact refused_leads _
  case a2 =>
    split
    · exact finish_leads fun hfail => absurd rfl hfail
    · exact goto_leads False.elim
  case a3 => exact computeDivisor_leads fun _ _ _ => goto_leads False.elim
  case a4 | a7 => exact devWrite_lcr_leads fun _ _ => goto_leads False.elim
  case a5 | a6 => exact devWrite_leads (by decide) fun _ _ => goto_leads False.elim
  case a8 => exact finish_leads fun hfail => absurd rfl hfail

/-- R8: nothing starts inside an operation. -/
theorem start_busy_leads {P : State → Prop} {s : State} (h : s.pos ≠ .idle) (k : State → Out) :
    Leads P (start s k) := by
  rw [start_busy h]
  exact refused_leads _

/-- R354: both failing protocols keep it at each of their labels. -/
theorem exec_failsReading {i : Instr} (hi : i = .seqSetattr ∨ i = .seqSetctl) {s t : State} (hp : t.pos ≠ .idle)
    (h : FailsReading s t) : Leads (FailsReading s) (exec i t) := by
  obtain rfl | rfl := hi
  · dsimp only [exec, execSeqSetattr]
    split
    · next p hpos => exact setattrLabel_failsReading hpos h
    · exact start_busy_leads hp _
  · dsimp only [exec, execSeqSetctl]
    split
    · next p hpos => exact setctlLabel_failsReading hpos h
    · exact start_busy_leads hp _

/-- R310, R320: both failing protocols start without an access. -/
theorem exec_starts_failsReading {i : Instr} (hi : i = .seqSetattr ∨ i = .seqSetctl) {s : State} (hr : s.Ready) :
    Leads (FailsReading s) (exec i s) := by
  obtain ⟨p, hfirst⟩ : ∃ p, firstLabel i = some p := by
    obtain rfl | rfl := hi
    · exact ⟨_, rfl⟩
    · exact ⟨_, rfl⟩
  rw [exec_starts hr hfirst]
  rintro _ ⟨⟩ -
  exact ⟨fun _ _ => id, [], by simp, nofun⟩

/-- Settles O45: wherever a call of either can still fail, and where it has failed, it has only read
(`exec_failsReading`). -/
theorem failureMakesNoWrite : Obligations.FailureMakesNoWrite := by
  unfold Obligations.FailureMakesNoWrite
  intro s t i n hr hi h hidle hst
  exact callOp_leads (exec_starts_failsReading hi hr) (fun _ => exec_failsReading hi) n t h
    (by simpa only [Failing, hidle] using hst)

/-! ### An operation that has its operands -/

/-- R350: an operation's outcome that is a next state, or the refusal of the calculator's domain from one of the three
operations the domain bounds. -/
def Answers (i : Instr) (out : Out) : Prop :=
  (∃ t, out = .next t) ∨ (out = .refused .outsideDivisorDomain ∧ (i = .divCalc ∨ i = .divCompute ∨ i = .attrResolve))

/-- R350: an outcome that is an answer when these operand registers hold values. -/
def AnswersGiven (i : Instr) (o : Operands) (rs : List OperandName) (out : Out) : Prop :=
  (∀ r ∈ rs, o.has r = true) → Answers i out

section Rules
variable {i : Instr} {o : Operands} {rs : List OperandName} {s : State}

theorem next_answers (s : State) : AnswersGiven i o rs (.next s) := fun _ => .inl ⟨s, rfl⟩

theorem finish_answers (r : Results) (s : State) : AnswersGiven i o rs (finish r s) := next_answers _

theorem raise_answers (st : Status) (s : State) : AnswersGiven i o rs (raise st s) := next_answers _

theorem goto_answers (p : Position) (s : State) : AnswersGiven i o rs (goto p s) := next_answers _

theorem outsideDomain_answers (hi : i = .divCalc ∨ i = .divCompute ∨ i = .attrResolve) :
    AnswersGiven i o rs (.refused .outsideDivisorDomain) :=
  fun _ => .inr ⟨rfl, hi⟩

/-- R21: reading an operand register that holds a value goes on. -/
theorem need_answers {α : Type} {r : OperandName} {v : Option α} {k : α → Out} (hk : ∀ a, AnswersGiven i o rs (k a))
    (hv : o.has r = v.isSome := by simp [Operands.has, Operands.value]) : AnswersGiven i o (r :: rs) (need r v k) := by
  intro hgiven
  obtain ⟨hhas, hgiven⟩ := List.forall_mem_cons.1 hgiven
  obtain ⟨a, rfl⟩ := Option.isSome_iff_exists.1 (hv.symm.trans hhas)
  exact hk a hgiven

/-- R241: the gate reads MSR or nothing, and goes on. -/
theorem gateTx_answers {k : Bool → State → Out} (hk : ∀ w u, AnswersGiven i o rs (k w u)) :
    AnswersGiven i o rs (gateTx s k) := by
  unfold gateTx
  split
  · exact hk _ _
  · exact hk _ _

/-- R202: the divisor is computed, or the rate is outside the calculator's domain. -/
theorem computeDivisor_answers {b : U32} {k : U32 → State → Out}
    (hi : i = .divCalc ∨ i = .divCompute ∨ i = .attrResolve) (hk : ∀ d u, AnswersGiven i o rs (k d u)) :
    AnswersGiven i o rs (computeDivisor b s k) := by
  dsimp only [computeDivisor, clkDivRead]
  split
  · exact hk _ _
  · exact outsideDomain_answers hi

end Rules

section Source
variable (l : Byte)

theorem resolveDataBits_ne_noSource (d : Byte) : resolveDataBits (some l) d ≠ .noSource := by
  unfold resolveDataBits
  split_ifs <;> nofun

theorem resolveParity_ne_noSource (p : Parity) : resolveParity (some l) p ≠ .noSource := by
  by_cases hp : p = .default
  · rw [hp, resolveParity_default rfl]
    cases decPar l <;> nofun
  · rw [resolveParity_explicit _ hp]
    nofun

theorem resolveStopBits_ne_noSource (d : Byte) (b : StopBits) : resolveStopBits (some l) d b ≠ .noSource := by
  unfold resolveStopBits
  split_ifs <;> nofun

end Source

/-- R152, R155: with a live LCR at hand no step of a resolution wants for a source. -/
theorem attrResolve_ne_noSource (c : Cfg) (req : Attr) (l : Byte) : attrResolve c req (some l) ≠ .noSource := by
  obtain ⟨src, hsrc⟩ : ∃ src, attrSource c (some l) = some src := by
    rw [attrSource_eq]
    split
    · exact ⟨_, rfl⟩
    · exact ⟨_, rfl⟩
  intro h
  simp only [attrResolve, hsrc] at h
  split at h
  · cases h
  · next hd => exact resolveDataBits_ne_noSource src _ hd
  · split at h
    · cases h
    · next hp => exact resolveParity_ne_noSource src _ hp
    · split at h
      · cases h
      · next hb => exact resolveStopBits_ne_noSource src _ _ hb
      · split_ifs at h
        split at h <;> cases h

/-- R152, R155: a resolution given its request and the live LCR answers, or its baud rate is outside the domain. -/
theorem execAttrResolve_answers {s : State} (hr : s.Ready) :
    AnswersGiven .attrResolve s.opr [.req, .liveLcr] (execAttrResolve s) := by
  unfold execAttrResolve
  rw [start_ready hr]
  refine need_answers fun req => ?_
  split
  · exact finish_answers _ _
  · exact finish_answers _ _
  · next hnone =>
    intro hgiven
    obtain ⟨l, hlive⟩ : ∃ l, s.opr.liveLcr = some l := by
      simpa [Operands.has, Operands.value, Option.isSome_iff_exists] using hgiven
    exact absurd (hlive ▸ hnone) (attrResolve_ne_noSource _ _ _)
  · exact outsideDomain_answers (by decide)

/-- R350: an operation that may start reads its operands, and then fails only by a status or by the domain. -/
theorem exec_answers (i : Instr) {s : State} (hr : s.Ready) :
    AnswersGiven i s.opr (i.operands ++ i.optionalOperands) (exec i s) := by
  cases i with
  | encData | encPar | encStop | lcrEnc | decPar | ctlSet =>
    dsimp only [exec, execEncData, execEncPar, execEncStop, execLcrEnc, execDecPar, execCtlSet]
    rw [start_ready hr]
    repeat refine need_answers fun _ => ?_
    split
    · exact finish_answers _ _
    · exact raise_answers _ _
  | lcrPack | decData | decStop | fifoDepth | lcrMatch | clkScale | divSplit | divJoin | gateTxempty | gateRxready
  | gatePollrts | ctlGet =>
    dsimp only [exec, execLcrPack, execDecData, execDecStop, execFifoDepth, execLcrMatch, execClkScale, execDivSplit,
      execDivJoin, execGateTxempty, execGateRxready, execGatePollrts, execCtlGet]
    rw [start_ready hr]
    repeat refine need_answers fun _ => ?_
    exact finish_answers _ _
  | attrResolve => exact execAttrResolve_answers hr
  | divCalc =>
    dsimp only [exec, execDivCalc]
    rw [start_ready hr]
    repeat refine need_answers fun _ => ?_
    split
    · exact finish_answers _ _
    · exact outsideDomain_answers (by decide)
  | divCompute =>
    dsimp only [exec, execDivCompute]
    rw [start_ready hr]
    exact need_answers fun _ => computeDivisor_answers (by decide) fun _ _ => finish_answers _ _
  | gateTx =>
    dsimp only [exec, execGateTx]
    rw [start_ready hr]
    exact gateTx_answers fun _ _ => finish_answers _ _
  | seqWrite =>
    simp only [exec, execSeqWrite, hr.1, start_ready hr]
    exact need_answers fun _ => goto_answers _ _
  | seqInit | seqRead | seqPoll | seqSetctl | seqGetctl | seqSetattr =>
    rw [exec_starts hr rfl]
    exact next_answers _

/-- Settles O51: the operands are all an operation waits for (`exec_answers`). -/
theorem operationsAnswerWhenGivenOperands : Obligations.OperationsAnswerWhenGivenOperands := by
  unfold Obligations.OperationsAnswerWhenGivenOperands
  exact fun i s hr => exec_answers i hr

end Sys2Proof.Machine
end

section
/-! PROOFS. The statements of 70_reset_and_hazards.md: the state at reset, LCR after a programming protocol, and two
waits of a Write, the one that cannot end and the one whose environment ends it. -/

namespace Sys2Proof.Machine

/-! ### Reset -/

/-- Settles O58: the definition of the reset state, read register by register for the stored ones. -/
theorem resetStateAsSpecified : Obligations.ResetStateAsSpecified := by
  unfold Obligations.ResetStateAsSpecified
  exact ⟨rfl, rfl, rfl, rfl, fun r => by cases r <;> rfl, rfl⟩

/-! ### The latch at the end of a programming protocol -/

/-- R206: LCR holds a value with DLAB = 0. -/
def State.DlabClear (t : State) : Prop := ∃ v, t.uart.lcr = .holds v ∧ v.getLsbD 7 = false

/-- R281: the target LCR value of Initialize has DLAB = 0. -/
theorem dlab_of_target : ∀ l : Byte, (l &&& 0x3F#8).getLsbD 7 = false := by decide

/-- R323: so has an encoded LCR value, whose two high bits are zero. -/
theorem dlab_of_high_zero : ∀ l : Byte, l &&& 0xC0#8 = 0#8 → l.getLsbD 7 = false := by decide

/-- R384: Initialize ends from I6, after I5 has closed the latch, or from I16, after I11 has. -/
theorem initLabel_endsDlabClear {p : InitPos} {s : State} (hs : s.LatchAt (.init p)) :
    Leads (fun t => t.pos = .idle → t.DlabClear) (initLabel p s) := by
  cases p <;> dsimp only [initLabel]
  case i0 => exact computeDivisor_leads fun _ _ _ => goto_leads nofun
  case i1 | i3 | i4 | i7 => exact devRead_leads fun _ _ _ => goto_leads nofun
  case i2 | i5 | i8 | i11 => exact devWrite_lcr_leads fun _ _ => goto_leads nofun
  case i9 | i10 | i12 | i13 | i14 | i15 => exact devWrite_leads (by decide) fun _ _ => goto_leads nofun
  case i6 =>
    obtain ⟨-, hclear⟩ := hs
    split
    · exact finish_leads fun _ => hclear
    · exact goto_leads nofun
  case i16 => exact finish_leads fun _ => ⟨_, hs, dlab_of_target s.cfg.lcr⟩

/-- Settles O31: Initialize by its two last labels (`initLabel_endsDlabClear`), SetAttributes by A8, which leaves the
LCR value A7 wrote. -/
theorem completedProgrammingClearsDlab : Obligations.CompletedProgrammingClearsDlab := by
  unfold Obligations.CompletedProgrammingClearsDlab
  intro s t hk hidle h
  rw [s.latchKept_iff] at hk
  obtain ⟨⟨p, hp⟩, h⟩ | ⟨⟨res, hp⟩, h⟩ := h
  · rw [hp] at hk
    simp only [exec, execSeqInit, hp] at h
    exact initLabel_endsDlabClear hk t h hidle
  · rw [hp] at hk
    simp only [exec, execSeqSetattr, hp] at h
    obtain ⟨v, hv, hhigh⟩ := hk
    cases h
    exact ⟨v, hv, dlab_of_high_zero v hhigh⟩

/-! ### A call of Write -/

section Write
variable {s : State} {buf : List Byte}

/-- R290, R291: a Write that may start goes on from W0 or W3. -/
theorem callOp_seqWrite_starts (hr : s.Ready) (hbuf : s.opr.buf = some buf) (n : Nat) :
    callOp .seqWrite n s =
      continueOp .seqWrite n (s.running {} (.write (if buf = [] then .w0 else .w3)) []) := by
  obtain ⟨-, hstart, -⟩ := writeFlushLabels
  simp [callOp, hstart s buf hr hbuf, State.running]

/-- R290: without flow control the flush ends after three labels when its LSR read finds the transmitter empty. -/
theorem callOp_seqWrite_flush (hr : s.Ready) (hbuf : s.opr.buf = some []) (hf : s.cfg.hwFlow = false)
    (h5 : (s.drawn .lsr).getLsbD 5 = true) (h6 : (s.drawn .lsr).getLsbD 6 = true) :
    callOp .seqWrite 3 s = .next { s.draw .lsr with
      events := s.events ++ [readEvent s.cfg R_LSR (s.drawn .lsr)], opr := {}, res := { count := some 0 } } := by
  rw [callOp_seqWrite_starts hr hbuf]
  simp [continueOp, exec, execSeqWrite, writeLabel, devRead, gateTx, txEmpty_bits, hf, h5, h6, hr.1]

/-- R291: W3 takes the batch size from the configuration. -/
theorem exec_seqWrite_w3 (hp : s.pos = .write .w3) (hbuf : s.opr.buf = some buf) :
    exec .seqWrite s = .next { s with pos := .write (.w4
      { n := buf.length, depth := (fifoDepth s.cfg.fcr s.cfg.extFifoSize).toNat, k := 0 } buf) } := by
  simp only [exec, execSeqWrite, hp, writeLabel, hbuf, need_some, goto]

end Write

/-! ### A Write of depth 0 -/

/-- Where every label of an operation answers and keeps a property, a call of any length answers and keeps it. -/
theorem continueOp_total {P : State → Prop} {i : Instr} (h : ∀ s, P s → ∃ t, exec i s = .next t ∧ P t) (n : Nat)
    {s : State} (hs : P s) : ∃ t, continueOp i n s = .next t ∧ P t := by
  induction n generalizing s with
  | zero => exact ⟨s, rfl, hs⟩
  | succ n ih =>
    obtain ⟨u, hu, hPu⟩ := h s hs
    unfold continueOp
    split
    · exact ⟨s, rfl, hs⟩
    · rw [hu]
      exact ih hPu

/-- R395: the labels a Write of depth 0 goes round, with bytes left to send. -/
def WritePos.Blocked (o : Operands) : WritePos → Prop
  | .w3 => ∃ b rest, o.buf = some (b :: rest)
  | .w4 v rest | .w5 v rest | .w6 v rest => v.depth = 0 ∧ rest ≠ []
  | .w0 | .w1 | .w2 | .w7 _ _ _ | .w8 _ _ _ | .w9 _ => False

/-- R395: `t` stands at such a label, and has made only LSR reads since `s`. -/
structure BlockedSince (s t : State) : Prop where
  cfg : t.cfg = s.cfg
  reads : ∃ es, t.events = s.events ++ es ∧ ∀ e ∈ es, e.kind = .read ∧ e.address = s.cfg.addr R_LSR
  label : ∃ p, t.pos = .write p ∧ p.Blocked t.opr

/-- R395: W4 finds bytes left, W5 waits for the transmitter, and W6 finds the empty batch complete. -/
theorem exec_seqWrite_blocked {s t : State} (hd : fifoDepth s.cfg.fcr s.cfg.extFifoSize = 0#32) (h : BlockedSince s t) :
    ∃ u, exec .seqWrite t = .next u ∧ BlockedSince s u := by
  obtain ⟨-, -, hw4, hw5, -, hw6, -⟩ := writeSendLabels
  obtain ⟨hcfg, hreads, p, hp, hb⟩ := h
  cases p with
  | w0 | w1 | w2 | w7 | w8 | w9 => exact hb.elim
  | w3 =>
    obtain ⟨b, rest, hbuf⟩ := hb
    exact ⟨_, exec_seqWrite_w3 hp hbuf, hcfg, hreads, _, rfl, by simp [hcfg, hd], by simp⟩
  | w4 v rest => exact ⟨_, hw4 t v rest hp, hcfg, hreads, .w5 v rest, by simp [hb.2], hb⟩
  | w5 v rest =>
    obtain ⟨es, hes, hall⟩ := hreads
    refine ⟨_, hw5 t v rest hp, by simp [hcfg], ⟨es ++ [readEvent t.cfg R_LSR (t.drawn .lsr)], by simp [hes], ?_⟩,
      _, rfl, by split <;> exact hb⟩
    exact List.forall_mem_append.2 ⟨hall, List.forall_mem_singleton.2 ⟨rfl, congrArg (Cfg.addr · R_LSR) hcfg⟩⟩
  | w6 v rest =>
    obtain ⟨hv, hrest⟩ := hb
    obtain ⟨b, rest, rfl⟩ := List.exists_cons_of_ne_nil hrest
    exact ⟨_, hw6 t v b rest hp, hcfg, hreads, .w4 v (b :: rest), by simp [hv], hv, hrest⟩

/-- Settles O36: with bytes to send every label answers another of the round (`exec_seqWrite_blocked`); with none the
call is the flush (`callOp_seqWrite_flush`). -/
theorem zeroDepthWriteNeverEnds : Obligations.ZeroDepthWriteNeverEnds := by
  unfold Obligations.ZeroDepthWriteNeverEnds
  intro s buf hr hbuf h0 h5 hsize
  have hd : fifoDepth s.cfg.fcr s.cfg.extFifoSize = 0#32 := by
    simp only [fifoDepth, bit, h0, h5, hsize, reduceCtorEq, if_false]
  refine ⟨fun hne n => ?_, ?_⟩
  · obtain ⟨b, rest, rfl⟩ := List.exists_cons_of_ne_nil hne
    have hstart : BlockedSince s (s.running {} (.write .w3) []) :=
      ⟨rfl, ⟨[], rfl, nofun⟩, .w3, rfl, b, rest, hbuf⟩
    obtain ⟨t, ht, -, hreads, p, hp, -⟩ := continueOp_total (fun _ => exec_seqWrite_blocked hd) n hstart
    refine ⟨t, by simpa [callOp_seqWrite_starts hr hbuf] using ht, ?_, hreads⟩
    rw [hp]
    nofun
  · rintro rfl hf
    exact callOp_seqWrite_flush hr hbuf hf

/-! ### A Write that the environment ends -/

/-- R397: a Write that stands here returns after some number of labels. -/
def WriteEnds (t : State) : Prop := ∃ n u, continueOp .seqWrite n t = .next u ∧ u.pos = .idle

/-- One label before a state from which the Write returns. -/
theorem WriteEnds.before {t u : State} (hu : exec .seqWrite t = .next u) (hp : t.pos ≠ .idle) (h : WriteEnds u) :
    WriteEnds t := by
  obtain ⟨n, w, hw, hidle⟩ := h
  exact ⟨n + 1, w, by simp [continueOp, hp, hu, hw], hidle⟩

/-- R397: there is no flow control, and `m` LSR values at least are laid out, each of an empty transmitter. -/
structure Supplied (m : Nat) (t : State) : Prop where
  flow : t.cfg.hwFlow = false
  enough : m ≤ t.env.lsr.length
  empty : ∀ v ∈ t.env.lsr, v.getLsbD 5 = true ∧ v.getLsbD 6 = true

/-- R397: a Write at this label returns, given `m` such values. -/
def EndsAt (m : Nat) (p : WritePos) : Prop := ∀ t : State, t.pos = .write p → Supplied m t → WriteEnds t

section EndsAt
variable {m m' : Nat} {t : State}

/-- A state with the same configuration and draws is supplied alike. -/
theorem Supplied.congr (h : Supplied m t) {u : State} (hcfg : u.cfg = t.cfg) (henv : u.env = t.env) :
    Supplied m u :=
  ⟨hcfg ▸ h.flow, henv ▸ h.enough, henv ▸ h.empty⟩

/-- R33: the next LSR read draws one of the values. -/
theorem Supplied.drawn (h : Supplied (m + 1) t) :
    (t.drawn .lsr).getLsbD 5 = true ∧ (t.drawn .lsr).getLsbD 6 = true := by
  obtain ⟨l, ls, hl⟩ := List.exists_cons_of_length_pos (Nat.lt_of_lt_of_le m.succ_pos h.enough)
  have hdrawn : t.drawn .lsr = l := by simp [State.drawn, Env.queue, hl]
  exact h.empty _ (by simp [hdrawn, hl])

/-- R33: and leaves the others. -/
theorem Supplied.draw (h : Supplied (m + 1) t) : Supplied m (t.draw .lsr) := by
  obtain ⟨hf, hlen, hempty⟩ := h
  obtain ⟨l, ls, hl⟩ := List.exists_cons_of_length_pos (Nat.lt_of_lt_of_le m.succ_pos hlen)
  have hdraw : (t.draw .lsr).env.lsr = ls := by simp [State.draw, Env.queue, Env.putQueue, hl]
  rw [hl] at hlen hempty
  exact ⟨by simpa using hf, hdraw ▸ Nat.le_of_succ_le_succ hlen, hdraw ▸ (List.forall_mem_cons.1 hempty).2⟩

theorem EndsAt.mono {p : WritePos} (h : EndsAt m p) (hm : m ≤ m') : EndsAt m' p :=
  fun t hp hs => h t hp ⟨hs.flow, hm.trans hs.enough, hs.empty⟩

/-- A label that leads to one from which the Write returns. -/
theorem EndsAt.before {p q : WritePos} (hq : EndsAt m' q)
    (h : ∀ t : State, t.pos = .write p → Supplied m t →
      ∃ u, exec .seqWrite t = .next u ∧ u.pos = .write q ∧ Supplied m' u) : EndsAt m p := by
  intro t hp hs
  obtain ⟨u, hu, hpos, hsu⟩ := h t hp hs
  exact .before hu (by simp [hp]) (hq u hpos hsu)

variable {v : WriteVars} {b : Byte} {rest : List Byte}

theorem endsAt_w9 (n : Nat) : EndsAt m (.w9 n) := by
  obtain ⟨-, -, -, -, -, -, -, -, -, hw9⟩ := writeSendLabels
  exact fun t hp _ => .before (hw9 t n hp) (by simp [hp]) ⟨0, _, rfl, rfl⟩

theorem endsAt_w4_nil : EndsAt m (.w4 v []) := by
  obtain ⟨-, -, hw4, -⟩ := writeSendLabels
  exact (endsAt_w9 v.n).before fun t hp hs => ⟨_, hw4 t v [] hp, rfl, hs.congr rfl rfl⟩

theorem EndsAt.w4_cons (h : EndsAt m (.w5 v (b :: rest))) : EndsAt m (.w4 v (b :: rest)) := by
  obtain ⟨-, -, hw4, -⟩ := writeSendLabels
  exact h.before fun t hp hs => ⟨_, hw4 t v _ hp, rfl, hs.congr rfl rfl⟩

/-- R291: W5 takes one LSR value. -/
theorem EndsAt.w5 (h : EndsAt m (.w6 { v with k := 0 } rest)) : EndsAt (m + 1) (.w5 v rest) := by
  obtain ⟨-, -, -, hw5, -⟩ := writeSendLabels
  refine h.before fun t hp hs => ⟨_, hw5 t v rest hp, ?_, hs.draw.congr rfl rfl⟩
  simp [hs.drawn]

theorem endsAt_w6_nil : EndsAt m (.w6 v []) := by
  obtain ⟨-, -, -, -, hw6, -⟩ := writeSendLabels
  exact endsAt_w4_nil.before fun t hp hs => ⟨_, hw6 t v hp, rfl, hs.congr rfl rfl⟩

/-- R291: inside a batch W6 goes on to W7. -/
theorem EndsAt.w6_send (hk : v.k < v.depth) (h : EndsAt m (.w7 v b rest)) : EndsAt m (.w6 v (b :: rest)) := by
  obtain ⟨-, -, -, -, -, hw6, -⟩ := writeSendLabels
  exact h.before fun t hp hs => ⟨_, hw6 t v b rest hp, by simp [hk], hs.congr rfl rfl⟩

/-- R291: after a batch W6 goes back to W4. -/
theorem EndsAt.w6_batch (hk : ¬ v.k < v.depth) (h : EndsAt m (.w4 v (b :: rest))) : EndsAt m (.w6 v (b :: rest)) := by
  obtain ⟨-, -, -, -, -, hw6, -⟩ := writeSendLabels
  exact h.before fun t hp hs => ⟨_, hw6 t v b rest hp, by simp [hk], hs.congr rfl rfl⟩

/-- R241: without flow control W7 goes on at once. -/
theorem EndsAt.w7 (h : EndsAt m (.w8 v b rest)) : EndsAt m (.w7 v b rest) := by
  obtain ⟨-, -, -, -, -, -, hw7, -⟩ := writeSendLabels
  exact h.before fun t hp hs => ⟨_, hw7 t v b rest hp hs.flow, rfl, hs.congr rfl rfl⟩

theorem EndsAt.w8 (h : EndsAt m (.w6 { v with k := v.k + 1 } rest)) : EndsAt m (.w8 v b rest) := by
  obtain ⟨-, -, -, -, -, -, -, -, hw8, -⟩ := writeSendLabels
  exact h.before fun t hp hs => ⟨_, hw8 t v b rest hp, rfl, hs.congr (by simp) (by simp)⟩

/-- R397: a batch of depth at least one sends a byte, so one LSR value for each byte left is enough. -/
theorem endsAt_w6 (hd : 0 < v.depth) : EndsAt rest.length (.w6 v rest) := by
  induction rest generalizing v with
  | nil => exact endsAt_w6_nil
  | cons b rest ih =>
    have hsend : ∀ k, EndsAt rest.length (.w7 { v with k := k } b rest) := fun k =>
      (ih (v := { v with k := k + 1 }) hd).w8.w7
    by_cases hk : v.k < v.depth
    · exact ((hsend v.k).w6_send hk).mono (Nat.le_succ _)
    · exact ((hsend 0).w6_send hd).w5.w4_cons.w6_batch hk

/-- R397: the wait before the first batch takes one value more. -/
theorem endsAt_w4 (hd : 0 < v.depth) : EndsAt (rest.length + 1) (.w4 v rest) := by
  cases rest with
  | nil => exact endsAt_w4_nil
  | cons b rest => exact (endsAt_w6 (v := { v with k := 0 }) hd).w5.w4_cons

end EndsAt

/-- Settles O37: the flush takes one LSR value (`callOp_seqWrite_flush`), a send one for each batch it begins
(`endsAt_w4`). -/
theorem writeEndsWhenTransmitterEmpties : Obligations.WriteEndsWhenTransmitterEmpties := by
  unfold Obligations.WriteEndsWhenTransmitterEmpties
  intro s buf hr hbuf hf hdepth hlen hempty
  have hs : Supplied (buf.length + 1) s := ⟨hf, hlen, hempty⟩
  by_cases hb : buf = []
  · subst hb
    obtain ⟨h5, h6⟩ := hs.drawn
    exact ⟨3, _, callOp_seqWrite_flush hr hbuf hf h5 h6, by simp [hr.1]⟩
  · have hd : 0 < (fifoDepth s.cfg.fcr s.cfg.extFifoSize).toNat :=
      Nat.pos_of_ne_zero fun h0 => hdepth (BitVec.eq_of_toNat_eq h0)
    have hends : WriteEnds (s.running {} (.write .w3) []) :=
      .before (exec_seqWrite_w3 rfl hbuf) nofun (endsAt_w4 hd _ rfl (hs.congr rfl rfl))
    obtain ⟨n, t, ht, hidle⟩ := hends
    exact ⟨n, t, by rw [callOp_seqWrite_starts hr hbuf, if_neg hb, ht], hidle⟩

end Sys2Proof.Machine
end
